-- ==== Sys2Proof/Word.lean ====
section
/-! DEFINITION. The two word types of the block and the halves of a register (00_scope.md R17 to R19).
Every value of the block is unsigned (R18). -/

namespace Sys2Proof

/-- A host register: 16 bits (R17). -/
abbrev Word := BitVec 16

/-- A byte of a frame or of the serial line (R19). -/
abbrev Byte := BitVec 8

/-- `DATA_WORDS` (R17): the words of a channel's data buffer. -/
abbrev dataWords : Nat := 125

/-- A channel's data buffer `DATA[0 .. 124]` (10_state.md R52). -/
abbrev DataBuffer := Vector Word dataWords

end Sys2Proof
end

