-- ==== Sys2Proof/Syntax.lean ====
section
/-! DEFINITION. The commands of the block (one constructor per row of spec/opcode_table.json), the names of the
host registers (20_memory.md R80) and the notation the spec writes host programs in (30_encoding.md R124). -/

namespace Sys2Proof

/-- The eleven legal commands (30_encoding.md R110, R111). A command word carries no operand: operands are read from
the issuing channel's registers (R100, R115), so no constructor has an argument. -/
inductive Instr where
  /-- READ_COILS, function code 0x01 (R288). -/
  | rc
  /-- READ_HOLDING_REGISTERS, 0x03 (R284). -/
  | rhr
  /-- READ_INPUT_REGISTERS, 0x04 (R285). -/
  | rir
  /-- WRITE_SINGLE_COIL, 0x05 (R289). -/
  | wsc
  /-- WRITE_SINGLE_REGISTER, 0x06 (R286). -/
  | wsr
  /-- WRITE_MULTIPLE_COILS, 0x0F (R290). -/
  | wmc
  /-- WRITE_MULTIPLE_REGISTERS, 0x10 (R287). -/
  | wmr
  /-- Open the port, 0xF0 (R212). -/
  | init
  /-- Close the port, 0xF1 (R214). -/
  | deinit
  /-- CRC16 of the data buffer, 0xF2 (R147). -/
  | crc
  /-- CRC16 check of a frame in the data buffer, 0xF3 (R149). -/
  | crcchk
  deriving DecidableEq, Repr

/-- All commands, in the order of the opcode table. -/
def Instr.all : List Instr := [.rc, .rhr, .rir, .wsc, .wsr, .wmc, .wmr, .init, .deinit, .crc, .crcchk]

/-- The seven Modbus function commands (R110), as against the four local ones (R111). -/
def Instr.isModbus : Instr → Bool
  | .rc => true
  | .rhr => true
  | .rir => true
  | .wsc => true
  | .wsr => true
  | .wmc => true
  | .wmr => true
  | .init => false
  | .deinit => false
  | .crc => false
  | .crcchk => false

/-- The assigned host registers of a channel (20_memory.md R80). There are no others (10_state.md R59). -/
inductive Reg where
  | cmd
  | csr
  | slave
  | addr
  | qty
  | exc
  | attempts
  | crcr
  | psr
  /-- `DATA[i]`. -/
  | data (i : Fin dataWords)
  deriving DecidableEq, Repr

/-- The triple a host register access names (20_memory.md R80): port, channel and register number. Register numbers
are 8 bits, so all 256 of them, and nothing else, can be named. -/
structure RegName where
  port : Nat
  chan : Nat
  reg  : Byte
  deriving DecidableEq, Repr, Inhabited

/-- One line of a host program (30_encoding.md R124). -/
inductive Line where
  /-- `wr REG, v`. -/
  | wr (r : Reg) (v : Word)
  /-- `rd REG`. -/
  | rd (r : Reg)
  /-- `MNEMONIC s, a, q` for the seven Modbus commands (`q` is the coil state of WSC and the value of WSR). -/
  | modbus (i : Instr) (s a q : Word)
  /-- `CRC n`. -/
  | crc (n : Word)
  /-- `CRCCHK n`. -/
  | crcchk (n : Word)
  /-- `INIT`. -/
  | init
  /-- `DEINIT`. -/
  | deinit
  /-- `data i, v0, v1, ...`. -/
  | data (i : Nat) (vs : List Word)
  /-- `wait`, unrolled to `reads` reads of CSR: the loop itself is the host's control flow (R124, R354). -/
  | wait (reads : Nat)
  deriving DecidableEq, Repr

end Sys2Proof
end

