-- ==== Sys2Proof/WellFormed.lean ====
section
/-! DEFINITION. Well-formed commands and program lines. A command has no operand in its word (30_encoding.md R100), so
nothing of it can be out of range; a program line can name a command outside its class or a data word that does not
exist. -/

namespace Sys2Proof

/-- Every command is well formed: R100 gives the word no operand field. -/
def Instr.wellFormed : Instr → Bool
  | .rc => true
  | .rhr => true
  | .rir => true
  | .wsc => true
  | .wsr => true
  | .wmc => true
  | .wmr => true
  | .init => true
  | .deinit => true
  | .crc => true
  | .crcchk => true

/-- A line stands for host accesses the notation of R124 gives: the three-operand form exists only for Modbus
commands, and `data` writes only words of the buffer (10_state.md R52). -/
def Line.wellFormed : Line → Bool
  | .wr _ _ => true
  | .rd _ => true
  | .modbus i _ _ _ => i.isModbus
  | .crc _ => true
  | .crcchk _ => true
  | .init => true
  | .deinit => true
  | .data i vs => decide (i + vs.length ≤ dataWords)
  | .wait _ => true

end Sys2Proof
end

