-- ==== Sys2Proof/Decode.lean ====
section
/-! DEFINITION. The command word (30_encoding.md R100 to R112): its fields, the decoder, total on every 16-bit word
(R102), and after it the encoder. The register-number decoder of 20_memory.md R80, R83 stands at the end. -/

namespace Sys2Proof

/-- `v[15:8]` (R18). -/
def hi8 (v : Word) : Byte := v.extractLsb' 8 8

/-- `v[7:0]` (R18). -/
def lo8 (v : Word) : Byte := v.extractLsb' 0 8

/-- Why a command word is illegal. -/
inductive Illegal where
  /-- `RSVD ≠ 0` (R101). -/
  | reservedBits
  /-- A reserved OP (R112). -/
  | reservedOp
  deriving DecidableEq, Repr

/-- What a command word decodes to: exactly one of the two (R102). -/
inductive Decoded where
  | command (i : Instr)
  | illegal (why : Illegal)
  deriving DecidableEq, Repr

/-- The command with operation code `op`, if one has it (the tables of R110 and R111); every other value is reserved
(R112). -/
def commandOf (op : Byte) : Option Instr :=
  if op = 0x01 then some .rc
  else if op = 0x03 then some .rhr
  else if op = 0x04 then some .rir
  else if op = 0x05 then some .wsc
  else if op = 0x06 then some .wsr
  else if op = 0x0F then some .wmc
  else if op = 0x10 then some .wmr
  else if op = 0xF0 then some .init
  else if op = 0xF1 then some .deinit
  else if op = 0xF2 then some .crc
  else if op = 0xF3 then some .crcchk
  else none

/-- The decoder: RSVD is looked at before OP, as in `issue` (43_transaction_engine.md R231). -/
def decode (w : Word) : Decoded :=
  if hi8 w ≠ 0 then .illegal .reservedBits
  else match commandOf (lo8 w) with
    | some i => .command i
    | none => .illegal .reservedOp

/-- The OP of a command (R110, R111). -/
def Instr.op : Instr → Byte
  | .rc => 0x01
  | .rhr => 0x03
  | .rir => 0x04
  | .wsc => 0x05
  | .wsr => 0x06
  | .wmc => 0x0F
  | .wmr => 0x10
  | .init => 0xF0
  | .deinit => 0xF1
  | .crc => 0xF2
  | .crcchk => 0xF3

/-- The command word: RSVD = 0 in bits 15:8, OP in bits 7:0 (R100). -/
def encode (i : Instr) : Word := (0 : Byte) ++ i.op

/-- The host's question: the command the decoder reads from a row's word. A command is one 16-bit word (R100), so a
word with a bit above bit 15 is none. -/
def decodeTableWord (nbits w : Nat) : Option Instr :=
  let v := w % 2 ^ nbits
  if v < 2 ^ 16 then
    match decode (BitVec.ofNat 16 v) with
    | .command i => some i
    | .illegal _ => none
  else none

/-- The number of a register (20_memory.md R80). -/
def Reg.number : Reg → Byte
  | .cmd => 0
  | .csr => 1
  | .slave => 2
  | .addr => 3
  | .qty => 4
  | .exc => 5
  | .attempts => 6
  | .crcr => 7
  | .psr => 8
  | .data i => BitVec.ofNat 8 (16 + i.val)

/-- The register a number names; `none` for the reserved numbers 9 to 15 and 141 to 255 (R80, R83). -/
def regOf (n : Byte) : Option Reg :=
  if n = 0 then some .cmd
  else if n = 1 then some .csr
  else if n = 2 then some .slave
  else if n = 3 then some .addr
  else if n = 4 then some .qty
  else if n = 5 then some .exc
  else if n = 6 then some .attempts
  else if n = 7 then some .crcr
  else if n = 8 then some .psr
  else if n.toNat < 16 then none
  else if h : n.toNat - 16 < dataWords then some (.data ⟨n.toNat - 16, h⟩)
  else none

end Sys2Proof
end

