-- ==== Sys2Proof/Config.lean ====
section
/-! DEFINITION. The parameters of the model (00_scope.md section 3), which of them are legal (10_state.md R31), the
steps the agents can take (00_scope.md R22), and the one free value: which agent moves next when no input says. -/

namespace Sys2Proof

/-- `CFG[p].PARITY` (R10). -/
inductive Parity where
  | none
  | even
  | odd
  deriving DecidableEq, Repr

/-- `CFG[p]` (R10), one record per port. All fields are OPEN. `TX_PIN` and `RX_PIN` are the "TX and RX pin roles" of
10_state.md R33; the spec gives them no form, and the block only passes them on. -/
structure PortConfig where
  dePresent     : Bool
  baud          : Nat
  dataBits      : Nat
  stopBits      : Nat
  parity        : Parity
  respTimeoutMs : Nat
  maxRetries    : Nat
  rxBufCap      : Nat
  txBufCap      : Nat
  txPin         : Nat
  rxPin         : Nat
  deriving DecidableEq, Repr

/-- The parameters shared by all ports (R9, R11 to R14, R16). `none` is UNBOUNDED. `TICK_MS` is 1 (R15) and is not a
parameter. -/
structure Params where
  /-- `NUM_CHANNELS` (R9). -/
  numChannels    : Nat
  /-- `RETRY_BACKOFF_MS` (R11). -/
  retryBackoffMs : Nat
  /-- `POLL_SLICE_MS` (R12): no rule reads it. -/
  pollSliceMs    : Nat
  /-- `LOCK_WAIT_MS` (R13). -/
  lockWaitMs     : Option Nat
  /-- `TXC_TIMEOUT_MS` (R14). -/
  txcTimeoutMs   : Option Nat
  /-- `BUS_MAP` (R16): the host bus addresses of the registers that have one. -/
  busMap         : List (Nat × RegName)
  deriving DecidableEq, Repr

/-- A whole configuration. `NUM_PORTS` (R8) is the number of port records. -/
structure Config where
  params : Params
  ports  : List PortConfig
  deriving DecidableEq, Repr

/-- The constraints of R31 on one port's record (the value set of PARITY is the type `Parity`). -/
def PortConfig.legal (c : PortConfig) : Bool :=
  (c.dataBits == 7 || c.dataBits == 8) && (c.stopBits == 1 || c.stopBits == 2) && decide (1 ≤ c.baud) &&
    decide (1 ≤ c.respTimeoutMs) && decide (255 ≤ c.rxBufCap) && decide (255 ≤ c.txBufCap)

/-- At least 1, or UNBOUNDED (R31). -/
def boundLegal : Option Nat → Bool
  | none => true
  | some n => decide (1 ≤ n)

/-- "any injective map" (92_eei_decisions.md section 2, `BUS_MAP`): no address names two registers and no register
has two addresses. -/
def Params.busMapInjective (p : Params) : Bool :=
  decide ((p.busMap.map Prod.fst).Nodup) && decide ((p.busMap.map Prod.snd).Nodup)

/-- A legal configuration: R31, with the range of `BUS_MAP`. An entry of `BUS_MAP` that names a port or channel that does
not exist is legal: R31 and R16 say nothing of it (log 11, DESIGN CHOICE). -/
def Config.legal (c : Config) : Bool :=
  c.ports.all PortConfig.legal && decide (1 ≤ c.ports.length) && decide (1 ≤ c.params.numChannels) &&
    boundLegal c.params.lockWaitMs && boundLegal c.params.txcTimeoutMs && c.params.busMapInjective

/-- The configuration of `State.reset`: the common test configuration of 95_test_vectors.md (log 2). The line
parameters, the pin roles, the poll slice and the bus map, on which no rule of the block depends, are the model's. -/
def Config.reference : Config where
  params := { numChannels := 2, retryBackoffMs := 10, pollSliceMs := 1, lockWaitMs := none, txcTimeoutMs := some 5,
              busMap := [] }
  ports := [{ dePresent := false, baud := 9600, dataBits := 8, stopBits := 1, parity := .none, respTimeoutMs := 100,
              maxRetries := 2, rxBufCap := 256, txBufCap := 256, txPin := 0, rxPin := 1 }]

/-- One atomic step of one agent (R22), with every answer the environment gives in it (42_transport_port.md R201). -/
inductive Action where
  /-- The host reads a register (20_memory.md R84). -/
  | hostRead (r : RegName)
  /-- The host writes a register (R85). -/
  | hostWrite (r : RegName) (v : Word)
  /-- A host read at a bus address, through `BUS_MAP` (R16, R80). -/
  | busRead (a : Nat)
  /-- A host write at a bus address, through `BUS_MAP`. -/
  | busWrite (a : Nat) (v : Word)
  /-- The lock-grant step of channel `c` of port `p` (43_transaction_engine.md R240). `openOk` is the transport's
  answer to `open`, read only by INIT (42_transport_port.md R210). -/
  | grant (p c : Nat) (openOk : Bool)
  /-- The sequencer step of port `p` (43_transaction_engine.md R243). `accepted` is how many bytes `write` accepts,
  read only by the write step (42_transport_port.md R206). -/
  | sequencer (p : Nat) (accepted : Nat)
  /-- One tick (43_transaction_engine.md R263). -/
  | tick
  /-- A byte arrives on the line of port `p` (42_transport_port.md R208). -/
  | rx (p : Nat) (b : Byte)
  /-- Transmit-complete of port `p` (42_transport_port.md R209). -/
  | txc (p : Nat)
  deriving DecidableEq, Repr, Inhabited

/-- FREE VALUE (log 3): the step taken when no input is pending. "Any enabled step of any agent may be taken next"
(R22); nothing constrains it. It is applied to a counter of State that the step advances. -/
opaque Config.freeAction : Nat → Action

end Sys2Proof
end

