-- ==== Sys2Proof/Machine/State.lean ====
section
/-! DEFINITION. The state of the block (10_state.md) as plain data, its reset (70_reset_and_hazards.md R360), and the
reasons a step can stop. -/

namespace Sys2Proof.Machine

/-- The closed set of completion statuses (30_encoding.md R120). -/
inductive Status where
  | ok
  | error
  | invalidParameter
  | notInitialized
  | alreadyInitialized
  | busy
  | timeout
  | crcError
  | unexpectedResponse
  | excIllegalFunction
  | excIllegalDataAddress
  | excIllegalDataValue
  | excSlaveDeviceFailure
  | excAcknowledge
  | excSlaveBusy
  | excGatewayPathUnavailable
  | excGatewayTargetNoResponse
  deriving DecidableEq, Repr

/-- `PS[p].SEQ` (10_state.md R36). The code 7 is never held, so it has no constructor. -/
inductive Seq where
  | idle
  | sending
  | awaiting
  | validating
  | success
  | retryable
  | fatal
  deriving DecidableEq, Repr

/-- `PS[p].TXPH` (R37): TX_START = 0, TX_WAIT = 1. -/
inductive TxPhase where
  | start
  | wait
  deriving DecidableEq, Repr

/-- `CH[p][c].PHASE` (R58). -/
inductive Phase where
  | free
  | waitLock
  | active
  deriving DecidableEq, Repr

/-- `PS[p].REQ` (R38). -/
structure Request where
  op    : Byte
  slave : Byte
  addr  : Word
  qty   : Word
  deriving DecidableEq, Repr

/-- `PS[p]` (10_state.md section 3). A buffer is the list of its bytes from byte 0 to the last one ever written; the
bytes after those have no value and no rule reads them (R39, R40; log 5). -/
structure PortState where
  /-- `INIT` (R34). -/
  init        : Bool
  /-- `OWNER` (R35); `none` is NONE. -/
  owner       : Option Nat
  /-- `SEQ` (R36). -/
  seq         : Seq
  /-- `TXPH` (R37). -/
  txph        : TxPhase
  /-- `REQ` (R38). -/
  req         : Request
  /-- `TXBUF` (R39). -/
  txbuf       : List Byte
  /-- `TXLEN` (R39). -/
  txlen       : Nat
  /-- `RXBUF` (R40). -/
  rxbuf       : List Byte
  /-- `RXLEN` (R40). -/
  rxlen       : Nat
  /-- `RETRIES_LEFT` (R41). -/
  retriesLeft : Nat
  /-- `LAST` (R42). -/
  last        : Status
  /-- `TIMER` (R43). -/
  timer       : Nat
  /-- `TIMED_OUT` (R44). -/
  timedOut    : Bool
  /-- `DE` (R45). -/
  de          : Bool
  /-- `TXLOG` (R46): an observation, read by no rule. -/
  txlog       : List (List Byte)
  deriving DecidableEq, Repr

/-- `CH[p][c]` (10_state.md section 4). `CSR` and `PSR` are views: CSR of `phase`, `done` and `status` (R48; BUSY is 1
exactly when PHASE is not FREE, R58), PSR of the port state (R57). SLAVE and EXC hold their bits 7:0; their bits 15:8
are reserved and read 0 (R49, R54). -/
structure Channel where
  /-- `CMD` (R47). -/
  cmd      : Word
  /-- `CSR.DONE` (R48). -/
  done     : Bool
  /-- `CSR.STATUS` (R48). -/
  status   : Status
  /-- `SLAVE[7:0]` (R49). -/
  slave    : Byte
  /-- `ADDR` (R50). -/
  addr     : Word
  /-- `QTY` (R51). -/
  qty      : Word
  /-- `DATA[0 .. 124]` (R52). -/
  data     : DataBuffer
  /-- `EXC[7:0]` (R54). -/
  exc      : Byte
  /-- `ATTEMPTS` (R55). -/
  attempts : Word
  /-- `CRCR` (R56). -/
  crcr     : Word
  /-- `PHASE` (R58). -/
  phase    : Phase
  /-- `WAIT` (R58). -/
  wait     : Nat
  deriving DecidableEq, Repr

/-- The arguments of one `configure` call and the pin roles (42_transport_port.md R210). -/
structure LineParams where
  baud     : Nat
  dataBits : Nat
  stopBits : Nat
  parity   : Parity
  txPin    : Nat
  rxPin    : Nat
  deriving DecidableEq, Repr

/-- `ENV[p]` (10_state.md section 6). -/
structure Env where
  /-- `LINE_RX` (R62). -/
  lineRx     : List Byte
  /-- The MODEL's own observation (log 6): the arguments of every `configure` call made, oldest first. Read by no
  rule. -/
  configured : List LineParams
  deriving DecidableEq, Repr

/-- Port `p` whole: its record `CFG[p]`, `PS[p]`, `CH[p][c]` for each channel `c`, and `ENV[p]` (R30). -/
structure Port where
  cfg   : PortConfig
  ps    : PortState
  chans : List Channel
  env   : Env
  deriving DecidableEq, Repr

/-- The MODEL's own field (log 4): which channel's command `exec` takes its next step for, and the environment's
answers in that step. -/
structure Selection where
  port     : Nat
  chan     : Nat
  openOk   : Bool
  accepted : Nat
  deriving DecidableEq, Repr

/-- The block with its environment. `params` and each port's `cfg` are the configuration, which no step writes (R32;
log 1). `pending`, `drawIndex`, `sel` and `hostIn` are the MODEL's own (logs 3, 4, 7). -/
structure State where
  /-- The parameters shared by all ports. -/
  params    : Params
  /-- The ports, port 0 first. -/
  ports     : List Port
  /-- The agents' steps to come, the next one first. -/
  pending   : List Action
  /-- How many free steps were drawn. -/
  drawIndex : Nat
  /-- The command in hand. -/
  sel       : Selection
  /-- The value the last host read returned (R84). -/
  hostIn    : Word
  deriving DecidableEq, Repr

/-- Why the machine stops. The block itself raises no fault (60_exceptions.md R320): each constructor is an access or a
step of an agent that does not exist. -/
inductive Fault where
  /-- Raised by `exec` and by a step that names a port index at or above NUM_PORTS (R30, R348). Safe. -/
  | noSuchPort
  /-- Raised by `exec` and by a step that names a channel index at or above NUM_CHANNELS (R30, R348). Safe. -/
  | noSuchChannel
  /-- Raised by a host access at an address that `BUS_MAP` gives to no register (R16, R97). Safe. -/
  | unmappedBusAddress
  deriving DecidableEq, Repr

/-- Why a step has no meaning. -/
inductive Refusal where
  /-- Raised by an arm of `exec` whose command has no meaning yet. Safe. -/
  | notModelled (mnemonic : String)
  /-- Raised by `step` in a state with an illegal configuration: the model refuses it (R31, R377). Safe. -/
  | illegalConfiguration
  deriving DecidableEq, Repr

/-- The reset value of `PS[p]` (R360). -/
def PortState.reset : PortState where
  init := false
  owner := none
  seq := .idle
  txph := .start
  req := { op := 0, slave := 0, addr := 0, qty := 0 }
  txbuf := []
  txlen := 0
  rxbuf := []
  rxlen := 0
  retriesLeft := 0
  last := .ok
  timer := 0
  timedOut := false
  de := false
  txlog := []

/-- The reset value of `CH[p][c]` (R360). -/
def Channel.reset : Channel where
  cmd := 0
  done := false
  status := .ok
  slave := 0
  addr := 0
  qty := 0
  data := Vector.replicate dataWords 0
  exc := 0
  attempts := 0
  crcr := 0
  phase := .free
  wait := 0

/-- Port with record `cfg` after reset, with `n` channels. -/
def Port.reset (n : Nat) (cfg : PortConfig) : Port where
  cfg := cfg
  ps := PortState.reset
  chans := List.replicate n Channel.reset
  env := { lineRx := [], configured := [] }

/-- The state after reset under configuration `c` (R360, R362). -/
def State.resetWith (c : Config) : State where
  params := c.params
  ports := c.ports.map (Port.reset c.params.numChannels)
  pending := []
  drawIndex := 0
  sel := { port := 0, chan := 0, openOk := false, accepted := 0 }
  hostIn := 0

/-- "The model refuses an illegal configuration: it gives it no initial state" (R31). -/
def State.initial (c : Config) : Option State :=
  if c.legal then some (State.resetWith c) else none

/-- The state after reset under the reference configuration (log 2). -/
def State.reset : State := State.resetWith Config.reference

/-- The configuration a state runs under. -/
def State.config (s : State) : Config := { params := s.params, ports := s.ports.map Port.cfg }

end Sys2Proof.Machine
end

