-- ==== Sys2Proof/Machine/Bytes.lean ====
section
/-! DEFINITION. Byte order and byte sequences (00_scope.md R18, R19; 20_memory.md R88, R89), and the byte buffers of a
port (10_state.md R39, R40). -/

namespace Sys2Proof.Machine

/-- `be16(v) = [hi8(v), lo8(v)]` (R19, R88). -/
def be16 (v : Word) : List Byte := [hi8 v, lo8 v]

/-- `le16(v) = [lo8(v), hi8(v)]` (R19, R89). -/
def le16 (v : Word) : List Byte := [lo8 v, hi8 v]

/-- `(zext_16(hi) << 8) | zext_16(lo)`: the 16-bit value of a big-endian byte pair (44_function_commands.md R283). -/
def join16 (hi lo : Byte) : Word := (hi.setWidth 16 <<< 8) ||| lo.setWidth 16

/-- `ceil_div(a, b) = (a + b - 1) div b` (R18). -/
def ceilDiv (a b : Nat) : Nat := (a + b - 1) / b

/-- `s[i]` (R19). Rules read it only below `len(s)`. -/
def byteAt (s : List Byte) (i : Nat) : Byte := (s[i]?).getD 0

/-- `buf[k .. k + len(a)) <- a`: the other bytes of the buffer keep their values. Rules write only at or below the end
of the bytes written before. -/
def bufWrite (buf : List Byte) (k : Nat) (a : List Byte) : List Byte :=
  buf.take k ++ a ++ buf.drop (k + a.length)

end Sys2Proof.Machine
end

