-- ==== Sys2Proof/Machine/Crc16.lean ====
section
/-! DEFINITION. The CRC16 engine (40_crc16.md R140 to R143): a pure function of a byte sequence. -/

namespace Sys2Proof.Machine

/-- One of the 8 bit steps of R140: shift right, and XOR with 0xA001 if the bit shifted out is 1. -/
def crcBit (r : Word) : Word := if r.getLsbD 0 then (r >>> 1) ^^^ 0xA001 else r >>> 1

/-- One byte of R140: XOR into bits 7:0, then 8 bit steps. -/
def crcByte (r : Word) (b : Byte) : Word :=
  crcBit (crcBit (crcBit (crcBit (crcBit (crcBit (crcBit (crcBit (r ^^^ b.setWidth 16))))))))

/-- `crc16(s)` (R140): initial register 0xFFFF, no final XOR. -/
def crc16 (s : List Byte) : Word := s.foldl crcByte 0xFFFF

/-- `s ++ le16(crc16(s))` (R142). -/
def appendCrc (s : List Byte) : List Byte := s ++ le16 (crc16 s)

/-- `crc_ok(t)` (R143): the trailing two bytes are the little-endian CRC of the bytes before them. -/
def crcOk (t : List Byte) : Bool :=
  decide (2 ≤ t.length) &&
    (crc16 (t.take (t.length - 2)) == join16 (byteAt t (t.length - 1)) (byteAt t (t.length - 2)))

end Sys2Proof.Machine
end

