-- ==== Sys2Proof/Machine/Flags.lean ====
section
/-! DEFINITION. The codes of statuses and sequencer states and the two composed registers CSR and PSR
(30_encoding.md R120 to R123; 10_state.md R36, R48, R57). -/

namespace Sys2Proof.Machine

/-- The status codes (30_encoding.md R120). -/
def Status.code : Status → Byte
  | .ok => 0x00
  | .error => 0x01
  | .invalidParameter => 0x02
  | .notInitialized => 0x03
  | .alreadyInitialized => 0x04
  | .busy => 0x05
  | .timeout => 0x06
  | .crcError => 0x07
  | .unexpectedResponse => 0x08
  | .excIllegalFunction => 0x81
  | .excIllegalDataAddress => 0x82
  | .excIllegalDataValue => 0x83
  | .excSlaveDeviceFailure => 0x84
  | .excAcknowledge => 0x85
  | .excSlaveBusy => 0x86
  | .excGatewayPathUnavailable => 0x8A
  | .excGatewayTargetNoResponse => 0x8B

/-- `exc_status(e)` (43_transaction_engine.md R253): the map of 30_encoding.md R122, and ERROR for every other code
(R123). -/
def excStatus (e : Byte) : Status :=
  if e = 0x01 then .excIllegalFunction
  else if e = 0x02 then .excIllegalDataAddress
  else if e = 0x03 then .excIllegalDataValue
  else if e = 0x04 then .excSlaveDeviceFailure
  else if e = 0x05 then .excAcknowledge
  else if e = 0x06 then .excSlaveBusy
  else if e = 0x0A then .excGatewayPathUnavailable
  else if e = 0x0B then .excGatewayTargetNoResponse
  else .error

/-- The retry classes of 30_encoding.md R121: only transport errors are retried. -/
def Status.retried : Status → Bool
  | .timeout => true
  | .crcError => true
  | .unexpectedResponse => true
  | .ok => false
  | .error => false
  | .invalidParameter => false
  | .notInitialized => false
  | .alreadyInitialized => false
  | .busy => false
  | .excIllegalFunction => false
  | .excIllegalDataAddress => false
  | .excIllegalDataValue => false
  | .excSlaveDeviceFailure => false
  | .excAcknowledge => false
  | .excSlaveBusy => false
  | .excGatewayPathUnavailable => false
  | .excGatewayTargetNoResponse => false

/-- The 3-bit code of the sequencer state (10_state.md R36). -/
def Seq.code : Seq → BitVec 3
  | .idle => 0
  | .sending => 1
  | .awaiting => 2
  | .validating => 3
  | .success => 4
  | .retryable => 5
  | .fatal => 6

/-- `CSR.BUSY` (R48), by R58 the same fact as `PHASE ≠ FREE`. -/
def Channel.busy (ch : Channel) : Bool := decide (ch.phase ≠ .free)

/-- CSR (R48): STATUS in bits 15:8, bits 7:2 reserved, DONE in bit 1, BUSY in bit 0. -/
def Channel.csr (ch : Channel) : Word :=
  ch.status.code ++ (0 : BitVec 6) ++ BitVec.ofBool ch.done ++ BitVec.ofBool ch.busy

/-- PSR as channel `c` reads it (R57): DE in bit 7, SEQ in bits 6:4, bit 2 lock held by `c`, bit 1 lock held, bit 0
INIT; bits 15:8 and 3 reserved. -/
def PortState.psr (ps : PortState) (c : Nat) : Word :=
  (0 : BitVec 8) ++ BitVec.ofBool ps.de ++ ps.seq.code ++ (0 : BitVec 1) ++
    BitVec.ofBool (decide (ps.owner = some c)) ++ BitVec.ofBool (decide (ps.owner ≠ none)) ++ BitVec.ofBool ps.init

end Sys2Proof.Machine
end

