-- ==== Sys2Proof/Machine/Operands.lean ====
section
/-! DEFINITION. The operands of the commands: the byte view of the data buffer (10_state.md R53), the argument checks of
the issue step (43_transaction_engine.md R234, R235), the request latched at grant (R242), and the host's reads and
writes of registers (20_memory.md R80 to R86). -/

namespace Sys2Proof.Machine

/-- `byte(c, k)` (R53): the low half of `DATA[k >> 1]` for even `k`, the high half for odd `k`. -/
def dataByte (d : DataBuffer) (k : Nat) : Byte :=
  if k % 2 = 0 then lo8 ((d[k / 2]?).getD 0) else hi8 ((d[k / 2]?).getD 0)

/-- `[byte(c, 0), ..., byte(c, n-1)]` (R53). -/
def dataBytes (d : DataBuffer) (n : Nat) : List Byte := (List.range n).map (dataByte d)

/-- `be16(DATA[0]) ++ ... ++ be16(DATA[n-1])` (41_adu_codec.md R165). -/
def dataWordsBe (d : DataBuffer) (n : Nat) : List Byte :=
  (List.range n).flatMap fun i => be16 ((d[i]?).getD 0)

/-- `DATA[i] <- (zext_16(b[2i]) << 8) | zext_16(b[2i+1])` for `i` in `0 .. q-1`; the other words keep their values
(44_function_commands.md R283). -/
def storeRegisters (d : DataBuffer) (q : Nat) (b : List Byte) : DataBuffer :=
  Vector.ofFn fun i => if i.val < q then join16 (byteAt b (2 * i.val)) (byteAt b (2 * i.val + 1)) else d[i]

/-- `byte(c, k) <- b[k]` for `k` in `0 .. n-1`; the other bytes keep their values (R283, R53). -/
def storeBytes (d : DataBuffer) (n : Nat) (b : List Byte) : DataBuffer :=
  Vector.ofFn fun i =>
    join16 (if 2 * i.val + 1 < n then byteAt b (2 * i.val + 1) else hi8 d[i])
      (if 2 * i.val < n then byteAt b (2 * i.val) else lo8 d[i])

/-- The slave address check (43_transaction_engine.md R234). -/
def slaveOk (ch : Channel) : Bool := decide (1 ≤ ch.slave.toNat) && decide (ch.slave.toNat ≤ 247)

/-- `lo ≤ QTY ≤ hi`. -/
def qtyIn (ch : Channel) (lo hi : Nat) : Bool := decide (lo ≤ ch.qty.toNat) && decide (ch.qty.toNat ≤ hi)

/-- `ArgsOK` (R234, R235). The local commands have no argument that the issue step checks here: INIT and DEINIT have
none (30_encoding.md R115), and CRC and CRCCHK check theirs in their own rules (40_crc16.md R147, R149). -/
def argsOk (i : Instr) (ch : Channel) : Bool :=
  match i with
  | .rc => slaveOk ch && qtyIn ch 1 2000
  | .rhr => slaveOk ch && qtyIn ch 1 125
  | .rir => slaveOk ch && qtyIn ch 1 125
  | .wsc => slaveOk ch
  | .wsr => slaveOk ch
  | .wmc => slaveOk ch && qtyIn ch 1 1968
  | .wmr => slaveOk ch && qtyIn ch 1 123
  | .init => true
  | .deinit => true
  | .crc => true
  | .crcchk => true

/-- The request latched at lock grant (R242). -/
def latchRequest (ch : Channel) : Request :=
  { op := lo8 ch.cmd, slave := ch.slave, addr := ch.addr, qty := ch.qty }

/-- The value a host read of register number `n` of channel `c` returns (20_memory.md R83, R84): reserved bits and
reserved numbers read 0. -/
def readReg (u : Port) (c : Nat) (ch : Channel) (n : Byte) : Word :=
  match regOf n with
  | some .cmd => ch.cmd
  | some .csr => ch.csr
  | some .slave => ch.slave.setWidth 16
  | some .addr => ch.addr
  | some .qty => ch.qty
  | some .exc => ch.exc.setWidth 16
  | some .attempts => ch.attempts
  | some .crcr => ch.crcr
  | some .psr => u.ps.psr c
  | some (.data i) => ch.data[i]
  | none => 0

/-- A host write of `v` to register number `n` other than CMD (20_memory.md R85): no effect while BUSY, nor on a
read-only or reserved register; SLAVE keeps only bits 7:0. A write to CMD is `issue`, not this. -/
def writeReg (ch : Channel) (n : Byte) (v : Word) : Channel :=
  if ch.busy then ch
  else match regOf n with
    | some .slave => { ch with slave := lo8 v }
    | some .addr => { ch with addr := v }
    | some .qty => { ch with qty := v }
    | some (.data i) => { ch with data := ch.data.set i v }
    | some .cmd => ch
    | some .csr => ch
    | some .exc => ch
    | some .attempts => ch
    | some .crcr => ch
    | some .psr => ch
    | none => ch

end Sys2Proof.Machine
end

