-- ==== Sys2Proof/Machine/Codec.lean ====
section
/-! DEFINITION. The ADU codec (41_adu_codec.md): Build, ExpectedLen, Complete, Parse and Payload, pure functions
(R182). -/

namespace Sys2Proof.Machine

/-- `op` in READS = 0x01, 0x03, 0x04 (41_adu_codec.md, notation). -/
def isRead (op : Byte) : Bool := op == 0x01 || op == 0x03 || op == 0x04

/-- `op` in WRITES = 0x05, 0x06, 0x0F, 0x10. -/
def isWrite (op : Byte) : Bool := op == 0x05 || op == 0x06 || op == 0x0F || op == 0x10

/-- WRITE_SINGLE_COIL's value field (R162): ON is 0xFF00, OFF is 0x0000. -/
def coilValue (qty : Word) : Word := if qty ≠ 0 then 0xFF00 else 0x0000

/-- The data bytes after address and function code (R161 to R165). No rule builds a frame for another function code;
such a request is never latched (Inv, Safety.lean). -/
def requestBody (req : Request) (d : DataBuffer) : List Byte :=
  if isRead req.op then be16 req.addr ++ be16 req.qty
  else if req.op = 0x05 then be16 req.addr ++ be16 (coilValue req.qty)
  else if req.op = 0x06 then be16 req.addr ++ be16 req.qty
  else if req.op = 0x0F then
    be16 req.addr ++ be16 req.qty ++ [BitVec.ofNat 8 (ceilDiv req.qty.toNat 8)] ++
      dataBytes d (ceilDiv req.qty.toNat 8)
  else if req.op = 0x10 then
    be16 req.addr ++ be16 req.qty ++ [BitVec.ofNat 8 (2 * req.qty.toNat)] ++ dataWordsBe d req.qty.toNat
  else []

/-- `Build(req, c)` (R160), from the DATA of the owning channel. -/
def build (req : Request) (d : DataBuffer) : List Byte := appendCrc ([req.slave, req.op] ++ requestBody req d)

/-- Bit 7 of a response's function code byte (30_encoding.md R114). -/
def isExceptionFc (fc : Byte) : Bool := (fc &&& 0x80) != 0

/-- `ExpectedLen(rx, op)` (R170); `none` is UNKNOWN. -/
def expectedLen (rx : List Byte) (op : Byte) : Option Nat :=
  if rx.length < 2 then none
  else if isExceptionFc (byteAt rx 1) then some 5
  else if isRead op then
    if rx.length < 3 then none else some (5 + (byteAt rx 2).toNat)
  else some 8

/-- `Complete(rx, op, cap)` (R171). -/
def frameComplete (rx : List Byte) (op : Byte) (cap : Nat) : Bool :=
  decide (rx.length = cap) ||
    (match expectedLen rx op with
      | some n => decide (n ≤ rx.length)
      | none => false)

/-- The result of Parse (R172). -/
inductive ParseResult where
  | ok
  | crcError
  | unexpectedResponse
  | exception (e : Byte)
  deriving DecidableEq, Repr

/-- `nb(req)` (R179): the byte count a read must answer with. -/
def readByteCount (req : Request) : Nat :=
  if req.op = 0x01 then ceilDiv req.qty.toNat 8 else 2 * req.qty.toNat

/-- `Parse(rx, req)` (R172 to R181): the first check that fails decides. -/
def parse (rx : List Byte) (req : Request) : ParseResult :=
  if rx.length < 5 then .unexpectedResponse
  else if !crcOk rx then .crcError
  else if byteAt rx 0 ≠ req.slave then .unexpectedResponse
  else if isExceptionFc (byteAt rx 1) then .exception (byteAt rx 2)
  else if (byteAt rx 1 &&& 0x7F) ≠ req.op then .unexpectedResponse
  else if isRead req.op && decide (5 + (byteAt rx 2).toNat ≠ rx.length) then .unexpectedResponse
  else if isRead req.op && decide ((byteAt rx 2).toNat ≠ readByteCount req) then .unexpectedResponse
  else if isWrite req.op && decide (rx.length ≠ 8) then .unexpectedResponse
  else .ok

/-- `Payload(rx)` (R181): `rx[3 .. 3 + rx[2])` for reads, empty for writes. -/
def payload (rx : List Byte) (op : Byte) : List Byte :=
  if isRead op then (rx.drop 3).take (byteAt rx 2).toNat else []

/-- `copy_payload(p, c)` on the owner's DATA (44_function_commands.md R283). -/
def copyPayload (req : Request) (rx : List Byte) (d : DataBuffer) : DataBuffer :=
  if req.op = 0x03 ∨ req.op = 0x04 then storeRegisters d req.qty.toNat (payload rx req.op)
  else if req.op = 0x01 then storeBytes d (ceilDiv req.qty.toNat 8) (payload rx req.op)
  else d

end Sys2Proof.Machine
end

