-- ==== Sys2Proof/Machine/Ops.lean ====
section
/-! DEFINITION. The shared operations on a port and on the state: accepting a command, completing it (the block's one
way to end a command, in the place of a trap entry: 60_exceptions.md R320, R330, R340), the transport operations
(42_transport_port.md), and the application of a command's step to the channel in hand. -/

namespace Sys2Proof.Machine

/-- Port `u` with channel `c` changed by `f`. -/
def Port.modChan (u : Port) (c : Nat) (f : Channel → Channel) : Port := { u with chans := u.chans.modify c f }

/-- Port `u` with its port state changed by `f`. -/
def Port.modPs (u : Port) (f : PortState → PortState) : Port := { u with ps := f u.ps }

/-- Port `u` with the line queue `q`. -/
def Port.setLine (u : Port) (q : List Byte) : Port := { u with env := { u.env with lineRx := q } }

/-- State `s` with port `p` replaced. -/
def State.setPort (s : State) (p : Nat) (u : Port) : State := { s with ports := s.ports.set p u }

/-- State `s` with channel `c` of port `p` in hand, and the environment's answers. -/
def State.select (s : State) (p c : Nat) (openOk : Bool) (accepted : Nat) : State :=
  { s with sel := { port := p, chan := c, openOk := openOk, accepted := accepted } }

/-- A timed wait has reached its bound (43_transaction_engine.md R239, R248); `none` is UNBOUNDED. -/
def reached (bound : Option Nat) (t : Nat) : Bool :=
  match bound with
  | none => false
  | some b => decide (b ≤ t)

/-- What `complete` does to the channel (60_exceptions.md R330); BUSY falls with PHASE. -/
def completeChannel (st : Status) (ch : Channel) : Channel :=
  { ch with status := st, done := true, phase := .free, wait := 0 }

/-- What `complete` does to the port state when the command held the lock (R330). -/
def releaseLock (ps : PortState) : PortState :=
  { ps with owner := none, seq := .idle, txph := .start, de := false, timer := 0, timedOut := false }

/-- `complete(p, c, st)` (R330). -/
def complete (u : Port) (c : Nat) (st : Status) : Port :=
  { u with
    chans := u.chans.modify c (completeChannel st)
    ps := if u.ps.owner = some c then releaseLock u.ps else u.ps }

/-- What an accepted CMD write of `w` does before the command is looked at (43_transaction_engine.md R231). -/
def acceptCommand (w : Word) (ch : Channel) : Channel :=
  { ch with cmd := w, done := false, status := .ok, exc := 0, attempts := 0 }

/-- The issue step of a command word that completes at once with `st` (R231, R233 to R235). -/
def issueRejected (w : Word) (u : Port) (c : Nat) (st : Status) : Port :=
  complete (u.modChan c (acceptCommand w)) c st

/-- What the issue step of a command that needs the port does to its channel (R231, R237). -/
def enterWaitLock (w : Word) (ch : Channel) : Channel :=
  { acceptCommand w ch with phase := .waitLock, wait := 0 }

/-- The lock-grant step's first effect: `PS[p].OWNER <- c; CH[p][c].PHASE <- ACTIVE` (R240). -/
def acquireLock (u : Port) (c : Nat) : Port :=
  { u with
    chans := u.chans.modify c (fun ch => { ch with phase := .active })
    ps := { u.ps with owner := some c } }

/-- `begin_transmit()` (42_transport_port.md R203). -/
def beginTransmit (cfg : PortConfig) (ps : PortState) : PortState :=
  if cfg.dePresent then { ps with de := true } else ps

/-- `enter_awaiting(p)` (43_transaction_engine.md R249). -/
def enterAwaiting (ps : PortState) : PortState :=
  { ps with seq := .awaiting, rxlen := 0, timer := 0, timedOut := false }

/-- `enter_retryable(p)` (R258). -/
def enterRetryable (ps : PortState) : PortState := { ps with seq := .retryable, timer := 0 }

/-- The `configure` arguments that `open` hands to the transport (42_transport_port.md R210). -/
def lineParams (cfg : PortConfig) : LineParams :=
  { baud := cfg.baud, dataBits := cfg.dataBits, stopBits := cfg.stopBits, parity := cfg.parity,
    txPin := cfg.txPin, rxPin := cfg.rxPin }

/-- The `configure` call of `open(CFG[p])` (R210), as the model's observation. -/
def callConfigure (u : Port) : Port :=
  { u with env := { u.env with configured := u.env.configured ++ [lineParams u.cfg] } }

/-- `min(ATTEMPTS + 1, 0xFFFF)` (43_transaction_engine.md R245, R246). -/
def countAttempt (ch : Channel) : Channel :=
  { ch with attempts := if ch.attempts = 0xFFFF then 0xFFFF else ch.attempts + 1 }

/-- Apply one atomic step of a command to the channel in hand. -/
def onSelected (s : State) (f : Port → Channel → Port) : Host.Outcome State Fault Refusal :=
  match s.ports[s.sel.port]? with
  | none => .fault .noSuchPort
  | some u =>
    match u.chans[s.sel.chan]? with
    | none => .fault .noSuchChannel
    | some ch => .next (s.setPort s.sel.port (f u ch))

end Sys2Proof.Machine
end

