-- ==== Sys2Proof/Machine/Engine.lean ====
section
/-! DEFINITION. The transaction engine (43_transaction_engine.md): what the grant step does for a Modbus command, the
sequencer's steps, and the three atomic steps of a command's life put together. Which step comes next is said by the
channel's PHASE and, while it holds the lock, by the port's SEQ (10_state.md R58, R60). -/

namespace Sys2Proof.Machine

/-- Latch and build (R242): the grant step's work on an initialised port. -/
def latchAndBuild (u : Port) (ch : Channel) : Port :=
  let req := latchRequest ch
  let adu := build req ch.data
  u.modPs fun ps =>
    { ps with
      req := req
      txbuf := bufWrite ps.txbuf 0 adu
      txlen := adu.length
      retriesLeft := u.cfg.maxRetries
      last := .ok
      seq := .sending
      txph := .start }

/-- The lock-grant step of a Modbus command (R240 to R242). -/
def grantModbus (u : Port) (c : Nat) (ch : Channel) : Port :=
  if u.ps.init then latchAndBuild (acquireLock u c) ch else complete (acquireLock u c) c .notInitialized

/-- The bytes the write step hands to the transport: `PS[p].TXBUF[0 .. PS[p].TXLEN)` (R245). -/
def txFrame (ps : PortState) : List Byte := ps.txbuf.take ps.txlen

/-- The bytes received in the current attempt: `PS[p].RXBUF[0 .. PS[p].RXLEN)`. -/
def rxFrame (ps : PortState) : List Byte := ps.rxbuf.take ps.rxlen

/-- The port state after the write step, the transport having accepted `n` bytes (R245 to R247, R250). -/
def writePs (cfg : PortConfig) (n : Nat) (ps0 : PortState) : PortState :=
  let ps1 := beginTransmit cfg ps0
  let ps := { ps1 with txlog := ps1.txlog ++ [(txFrame ps1).take n] }
  if n < ps.txlen then { ps with de := false, last := .error, seq := .fatal }
  else if cfg.dePresent then { ps with txph := .wait, timer := 0 }
  else enterAwaiting ps

/-- The write step (R245). The environment chooses `n` with `0 ≤ n ≤ TXLEN` (42_transport_port.md R206): the answer
`accepted` stands for the smaller of itself and TXLEN. -/
def writeStep (accepted : Nat) (u : Port) (c : Nat) : Port :=
  ((u.setLine []).modPs (writePs u.cfg (min accepted u.ps.txlen))).modChan c countAttempt

/-- The port state after byte `b` is read (R251). -/
def readBytePs (cap : Nat) (b : Byte) (ps : PortState) : PortState :=
  let ps' := { ps with rxbuf := bufWrite ps.rxbuf ps.rxlen [b], rxlen := ps.rxlen + 1 }
  if frameComplete (rxFrame ps') ps'.req.op cap then { ps' with seq := .validating } else ps'

/-- The byte read step (R251); with an empty line queue it is not enabled. -/
def byteReadStep (u : Port) : Port :=
  match u.env.lineRx with
  | [] => u
  | b :: rest => (u.setLine rest).modPs (readBytePs u.cfg.rxBufCap b)

/-- The port state after an attempt failed with the retryable status `st` (R253). -/
def failAttempt (st : Status) (ps : PortState) : PortState :=
  if 0 < ps.retriesLeft then enterRetryable { ps with last := st } else { ps with last := st, seq := .fatal }

/-- The validation step (R253). -/
def validateStep (u : Port) (c : Nat) : Port :=
  if u.ps.timedOut ∧ u.ps.rxlen = 0 then u.modPs (failAttempt .timeout)
  else
    match parse (rxFrame u.ps) u.ps.req with
    | .ok => u.modPs fun ps => { ps with seq := .success }
    | .exception e =>
      (u.modPs fun ps => { ps with last := excStatus e, seq := .fatal }).modChan c fun ch => { ch with exc := e }
    | .crcError => u.modPs (failAttempt .crcError)
    | .unexpectedResponse => u.modPs (failAttempt .unexpectedResponse)

/-- The SUCCESS step (R255): the payload, then `complete(p, OWNER, OK)`. -/
def successStep (u : Port) (c : Nat) : Port :=
  complete (u.modChan c fun ch => { ch with data := copyPayload u.ps.req (rxFrame u.ps) ch.data }) c .ok

/-- The FATAL step (R256). -/
def fatalStep (u : Port) (c : Nat) : Port := complete u c u.ps.last

/-- The retry step (R258); not enabled before the backoff has passed. -/
def retryStep (prm : Params) (u : Port) : Port :=
  if prm.retryBackoffMs ≤ u.ps.timer then
    u.modPs fun ps => { ps with retriesLeft := ps.retriesLeft - 1, seq := .sending, txph := .start }
  else u

/-- The sequencer step of the port whose lock channel `c` holds (R243). No step is enabled in IDLE (R244) nor in
TX_WAIT, which ends by transmit-complete or a tick (R248). -/
def sequencerStep (prm : Params) (accepted : Nat) (u : Port) (c : Nat) : Port :=
  match u.ps.seq with
  | .idle => u
  | .sending =>
    match u.ps.txph with
    | .start => writeStep accepted u c
    | .wait => u
  | .awaiting => byteReadStep u
  | .validating => validateStep u c
  | .success => successStep u c
  | .retryable => retryStep prm u
  | .fatal => fatalStep u c

/-- The issue step of a Modbus command (R231, R234, R235, R237). -/
def issueModbus (i : Instr) (u : Port) (c : Nat) (ch : Channel) : Port :=
  if argsOk i ch then u.modChan c (enterWaitLock (encode i)) else issueRejected (encode i) u c .invalidParameter

/-- One atomic step of Modbus command `i` on the channel in hand (44_function_commands.md R282): its issue step, its
lock-grant step, or the sequencer step of its transaction. -/
def modbusCommand (i : Instr) (s : State) : Host.Outcome State Fault Refusal :=
  onSelected s fun u ch =>
    match ch.phase with
    | .free => issueModbus i u s.sel.chan ch
    | .waitLock => if u.ps.owner = none then grantModbus u s.sel.chan ch else u
    | .active => if u.ps.owner = some s.sel.chan then sequencerStep s.params s.sel.accepted u s.sel.chan else u

end Sys2Proof.Machine
end

