-- ==== Sys2Proof/Machine/Coils.lean ====
section
/-! DEFINITION. The coil commands (44_function_commands.md section 3), by the common execution of R282. -/

namespace Sys2Proof.Machine

/-- READ_COILS (R288). -/
def execRc (s : State) : Host.Outcome State Fault Refusal := modbusCommand .rc s

/-- WRITE_SINGLE_COIL (R289). -/
def execWsc (s : State) : Host.Outcome State Fault Refusal := modbusCommand .wsc s

/-- WRITE_MULTIPLE_COILS (R290). -/
def execWmc (s : State) : Host.Outcome State Fault Refusal := modbusCommand .wmc s

end Sys2Proof.Machine
end

