-- ==== Sys2Proof/Machine/Crc.lean ====
section
/-! DEFINITION. The commands CRC and CRCCHK (40_crc16.md R147, R149). They run whole in the issue step, whatever the
port is doing (43_transaction_engine.md R236). -/

namespace Sys2Proof.Machine

/-- The issue step of a CRC16 command that computed `r` and completes with `st`. -/
def issueComputed (i : Instr) (r : Word) (st : Status) (u : Port) (c : Nat) : Port :=
  complete ((u.modChan c (acceptCommand (encode i))).modChan c fun ch => { ch with crcr := r }) c st

/-- CRC's issue step (R147). -/
def issueCrc (u : Port) (c : Nat) (ch : Channel) : Port :=
  if 250 < ch.qty.toNat then issueRejected (encode .crc) u c .invalidParameter
  else issueComputed .crc (crc16 (dataBytes ch.data ch.qty.toNat)) .ok u c

/-- CRCCHK's issue step (R149). -/
def issueCrcchk (u : Port) (c : Nat) (ch : Channel) : Port :=
  let n := ch.qty.toNat
  if n < 2 ∨ 250 < n then issueRejected (encode .crcchk) u c .invalidParameter
  else
    let t := dataBytes ch.data n
    issueComputed .crcchk (crc16 (t.take (n - 2))) (if crcOk t then .ok else .crcError) u c

/-- A command that runs whole in its issue step: a channel that is BUSY has no step of it. -/
def issueOnly (issue : Port → Nat → Channel → Port) (s : State) : Host.Outcome State Fault Refusal :=
  onSelected s fun u ch =>
    match ch.phase with
    | .free => issue u s.sel.chan ch
    | .waitLock => u
    | .active => u

/-- CRC (R147). -/
def execCrc (s : State) : Host.Outcome State Fault Refusal := issueOnly issueCrc s

/-- CRCCHK (R149). -/
def execCrcchk (s : State) : Host.Outcome State Fault Refusal := issueOnly issueCrcchk s

end Sys2Proof.Machine
end

