-- ==== Sys2Proof/Machine/Lifecycle.lean ====
section
/-! DEFINITION. The port-lifecycle commands INIT and DEINIT (42_transport_port.md R212, R214): the issue step waits for
the lock, the grant step does all the work. -/

namespace Sys2Proof.Machine

/-- Both open and close leave the line queue empty and DE deasserted (R212, R214). -/
def setInit (b : Bool) (u : Port) : Port :=
  (u.setLine []).modPs fun ps => { ps with init := b, de := false }

/-- INIT's grant step (R212), `ok` being the transport's answer to `open`. -/
def grantInit (ok : Bool) (u0 : Port) (c : Nat) : Port :=
  let u := acquireLock u0 c
  if u.ps.init then complete u c .alreadyInitialized
  else if ok then complete (setInit true (callConfigure u)) c .ok
  else complete (callConfigure u) c .error

/-- DEINIT's grant step (R214, with 60_exceptions.md R330): REQ, TXLEN, RXLEN, RETRIES_LEFT and LAST keep their values.
R215's "the same state as after reset" is read as its own list of fields (log 24, DEDUCED). -/
def grantDeinit (u0 : Port) (c : Nat) : Port :=
  let u := acquireLock u0 c
  if u.ps.init then complete (setInit false u) c .ok else complete u c .notInitialized

/-- One atomic step of a lifecycle command: its issue step (43_transaction_engine.md R237) or its lock-grant step
(R240). It holds the lock only within the latter (42_transport_port.md R216), so an ACTIVE channel has no step of it. -/
def lifecycleCommand (i : Instr) (grant : Bool → Port → Nat → Port) (s : State) : Host.Outcome State Fault Refusal :=
  onSelected s fun u ch =>
    match ch.phase with
    | .free => u.modChan s.sel.chan (enterWaitLock (encode i))
    | .waitLock => if u.ps.owner = none then grant s.sel.openOk u s.sel.chan else u
    | .active => u

/-- INIT (R212). -/
def execInit (s : State) : Host.Outcome State Fault Refusal := lifecycleCommand .init grantInit s

/-- DEINIT (R214). -/
def execDeinit (s : State) : Host.Outcome State Fault Refusal := lifecycleCommand .deinit (fun _ => grantDeinit) s

end Sys2Proof.Machine
end

