-- ==== Sys2Proof/Machine/Registers.lean ====
section
/-! DEFINITION. The register commands (44_function_commands.md section 2). Each is the common execution of R282 with
its function code; what differs between them stands in `argsOk`, `build`, `parse` and `copyPayload`. -/

namespace Sys2Proof.Machine

/-- READ_HOLDING_REGISTERS (R284). -/
def execRhr (s : State) : Host.Outcome State Fault Refusal := modbusCommand .rhr s

/-- READ_INPUT_REGISTERS (R285). -/
def execRir (s : State) : Host.Outcome State Fault Refusal := modbusCommand .rir s

/-- WRITE_SINGLE_REGISTER (R286). -/
def execWsr (s : State) : Host.Outcome State Fault Refusal := modbusCommand .wsr s

/-- WRITE_MULTIPLE_REGISTERS (R287). -/
def execWmr (s : State) : Host.Outcome State Fault Refusal := modbusCommand .wmr s

end Sys2Proof.Machine
end

