-- ==== Sys2Proof/Machine/Dispatch.lean ====
section
/-! DEFINITION. One atomic step of a command on the channel in hand: one arm per command. -/

namespace Sys2Proof.Machine

def exec (i : Instr) (s : State) : Host.Outcome State Fault Refusal :=
  match i with
  | .rc => Sys2Proof.Machine.execRc s
  | .rhr => Sys2Proof.Machine.execRhr s
  | .rir => Sys2Proof.Machine.execRir s
  | .wsc => Sys2Proof.Machine.execWsc s
  | .wsr => Sys2Proof.Machine.execWsr s
  | .wmc => Sys2Proof.Machine.execWmc s
  | .wmr => Sys2Proof.Machine.execWmr s
  | .init => Sys2Proof.Machine.execInit s
  | .deinit => Sys2Proof.Machine.execDeinit s
  | .crc => Sys2Proof.Machine.execCrc s
  | .crcchk => Sys2Proof.Machine.execCrcchk s

end Sys2Proof.Machine
end

