-- ==== Sys2Proof/Machine/Agents.lean ====
section
/-! DEFINITION. The steps of the agents around the commands (00_scope.md R22): host accesses, the choice of the command
whose grant or sequencer step is taken, ticks and line events; and which agent moves next. An agent's step that is
not enabled changes nothing (log 4). -/

namespace Sys2Proof.Machine

/-- The port and channel a step names, or the fault that there is none. -/
def State.withChan (s : State) (p c : Nat) (k : Port → Channel → Host.Outcome State Fault Refusal) :
    Host.Outcome State Fault Refusal :=
  match s.ports[p]? with
  | none => .fault .noSuchPort
  | some u =>
    match u.chans[c]? with
    | none => .fault .noSuchChannel
    | some ch => k u ch

/-- The port a step names, or the fault that there is none. -/
def State.withPort (s : State) (p : Nat) (k : Port → Host.Outcome State Fault Refusal) :
    Host.Outcome State Fault Refusal :=
  match s.ports[p]? with
  | none => .fault .noSuchPort
  | some u => k u

/-- A host read (20_memory.md R84): the block is unchanged, the value goes to the host. -/
def hostReadStep (s : State) (r : RegName) : Host.Outcome State Fault Refusal :=
  s.withChan r.port r.chan fun u ch => .next { s with hostIn := readReg u r.chan ch r.reg }

/-- `issue(p, c, v)` (43_transaction_engine.md R231 to R233): nothing while BUSY; an illegal word completes at once; a
legal one is the first step of its command. -/
def issueStep (s : State) (p c : Nat) (u : Port) (ch : Channel) (v : Word) : Host.Outcome State Fault Refusal :=
  if ch.busy then .next s
  else
    match decode v with
    | .illegal _ => .next (s.setPort p (issueRejected v u c .invalidParameter))
    | .command i => exec i (s.select p c false 0)

/-- A host write (20_memory.md R85). -/
def hostWriteStep (s : State) (r : RegName) (v : Word) : Host.Outcome State Fault Refusal :=
  s.withChan r.port r.chan fun u ch =>
    if r.reg = 0 then issueStep s r.port r.chan u ch v
    else .next (s.setPort r.port (u.modChan r.chan fun ch => writeReg ch r.reg v))

/-- The register at a bus address (00_scope.md R16). -/
def resolve (prm : Params) (a : Nat) : Option RegName := prm.busMap.lookup a

/-- The lock-grant step of channel `c` (43_transaction_engine.md R240), enabled when it waits and the lock is free: the
grant step of the command in its CMD. -/
def grantStep (s : State) (p c : Nat) (openOk : Bool) : Host.Outcome State Fault Refusal :=
  s.withChan p c fun u ch =>
    if ch.phase = .waitLock ∧ u.ps.owner = none then
      match decode ch.cmd with
      | .command i => exec i (s.select p c openOk 0)
      | .illegal _ => .next s
    else .next s

/-- The sequencer step of port `p` (R243), for the command whose request is latched: its OP is `PS[p].REQ.OP`
(30_encoding.md R113). Without an owner the sequencer is IDLE and has no step (10_state.md R64 (b), R244). -/
def portStep (s : State) (p : Nat) (accepted : Nat) : Host.Outcome State Fault Refusal :=
  s.withPort p fun u =>
    match u.ps.owner with
    | none => .next s
    | some c =>
      s.withChan p c fun _ ch =>
        if ch.phase = .active then
          match commandOf u.ps.req.op with
          | some i => exec i (s.select p c false accepted)
          | none => .next s
        else .next s

/-- One tick of a channel (R238, R239). A waiting channel does not hold the lock (10_state.md R64 (a)), so `complete`
touches the channel alone. -/
def tickChannel (prm : Params) (ch : Channel) : Channel :=
  match ch.phase with
  | .free => ch
  | .active => ch
  | .waitLock =>
    if reached prm.lockWaitMs (ch.wait + 1) then completeChannel .busy ch else { ch with wait := ch.wait + 1 }

/-- End of TX_WAIT (R248): `PS[p].DE <- 0; enter_awaiting(p)`. -/
def endTransmit (ps : PortState) : PortState := enterAwaiting { ps with de := false }

/-- One tick of the port's timer (R263, R248, R252, R258). -/
def tickPs (prm : Params) (cfg : PortConfig) (ps0 : PortState) : PortState :=
  let ps := { ps0 with timer := ps0.timer + 1 }
  match ps0.seq with
  | .sending =>
    match ps0.txph with
    | .start => ps0
    | .wait => if reached prm.txcTimeoutMs ps.timer then endTransmit ps else ps
  | .awaiting => if cfg.respTimeoutMs ≤ ps.timer then { ps with timedOut := true, seq := .validating } else ps
  | .retryable => ps
  | .idle => ps0
  | .validating => ps0
  | .success => ps0
  | .fatal => ps0

/-- One tick of a port: its timer and all its channels (R263). -/
def tickPort (prm : Params) (u : Port) : Port :=
  { u with ps := tickPs prm u.cfg u.ps, chans := u.chans.map (tickChannel prm) }

/-- The tick step: every port and channel at once (R263). -/
def tickStep (s : State) : State := { s with ports := s.ports.map (tickPort s.params) }

/-- A byte arrives (42_transport_port.md R208): queued while the port is open, lost while it is closed. -/
def rxPort (b : Byte) (u : Port) : Port := if u.ps.init then u.setLine (u.env.lineRx ++ [b]) else u

/-- Transmit-complete (R209), enabled only in TX_WAIT on a port with direction-enable; its effect is R248. -/
def txcPort (u : Port) : Port :=
  if u.ps.seq = .sending ∧ u.ps.txph = .wait ∧ u.cfg.dePresent then u.modPs endTransmit else u

/-- One agent's step. -/
def actionStep (a : Action) (s : State) : Host.Outcome State Fault Refusal :=
  match a with
  | .hostRead r => hostReadStep s r
  | .hostWrite r v => hostWriteStep s r v
  | .busRead a =>
    match resolve s.params a with
    | some r => hostReadStep s r
    | none => .fault .unmappedBusAddress
  | .busWrite a v =>
    match resolve s.params a with
    | some r => hostWriteStep s r v
    | none => .fault .unmappedBusAddress
  | .grant p c openOk => grantStep s p c openOk
  | .sequencer p accepted => portStep s p accepted
  | .tick => .next (tickStep s)
  | .rx p b => s.withPort p fun u => .next (s.setPort p (rxPort b u))
  | .txc p => s.withPort p fun u => .next (s.setPort p (txcPort u))

/-- A drawn step names only agents that exist: indices are taken modulo their number, and a bus access at an address
`BUS_MAP` does not hold is a tick. Every step of every existing agent is still reached by some draw. A bus access at an
address of `BUS_MAP` is taken as drawn, so where that entry names a missing port or channel it faults, as a pending one
does (logs 10, 11). -/
def State.existing (s : State) (a : Action) : Action :=
  let np := s.ports.length
  let nc := s.params.numChannels
  let reg (r : RegName) : RegName := { port := r.port % np, chan := r.chan % nc, reg := r.reg }
  match a with
  | .hostRead r => .hostRead (reg r)
  | .hostWrite r v => .hostWrite (reg r) v
  | .busRead a => if (resolve s.params a).isSome then .busRead a else .tick
  | .busWrite a v => if (resolve s.params a).isSome then .busWrite a v else .tick
  | .grant p c o => .grant (p % np) (c % nc) o
  | .sequencer p n => .sequencer (p % np) n
  | .tick => .tick
  | .rx p b => .rx (p % np) b
  | .txc p => .txc (p % np)

/-- The step taken next: the first pending one, else a free one (log 3). -/
def State.nextAction (s : State) : Action :=
  match s.pending with
  | a :: _ => a
  | [] => s.existing (Config.freeAction s.drawIndex)

/-- The state with that choice used up. -/
def State.afterChoice (s : State) : State :=
  match s.pending with
  | _ :: rest => { s with pending := rest }
  | [] => { s with drawIndex := s.drawIndex + 1 }

/-- One step of the machine under a legal configuration. -/
def legalStep (s : State) : Host.Outcome State Fault Refusal := actionStep s.nextAction s.afterChoice

/-- The first FREE channel of a port list, port 0 first; (0, 0) if every channel is busy. -/
def firstFree (ports : List Port) (p : Nat) : Nat × Nat :=
  match ports with
  | [] => (0, 0)
  | u :: rest =>
    match u.chans.findIdx? (fun ch => !ch.busy) with
    | some c => (p, c)
    | none => firstFree rest (p + 1)

/-- The host's CMD write of the low 16 bits of `w` that is to be the next step. -/
def commandWrite (s : State) (nbits w : Nat) : Action :=
  let pc := firstFree s.ports 0
  .hostWrite { port := pc.1, chan := pc.2, reg := 0 } (BitVec.ofNat 16 (w % 2 ^ nbits))

end Sys2Proof.Machine
end

