-- ==== Sys2Proof/Machine/Step.lean ====
section
/-! DEFINITION. The step of the whole machine, and how the host places a command before it. -/

namespace Sys2Proof.Machine

/-- One step: an illegal configuration is refused (10_state.md R31, R377); else one agent takes one atomic step
(00_scope.md R22). -/
def step (s : State) : Host.Outcome State Fault Refusal :=
  if s.config.legal then legalStep s else .refused .illegalConfiguration

/-- `s` with the host's CMD write of the word as the very next step, on the first channel that is not BUSY. The block
fetches nothing: a command comes to run only by a host write of CMD (70_reset_and_hazards.md R361; log 8). -/
def State.withFetchWord (s : State) (nbits w : Nat) : State :=
  { s with pending := commandWrite s nbits w :: s.pending }

end Sys2Proof.Machine
end

