-- ==== Sys2Proof/Machine/Program.lean ====
section
/-! DEFINITION. What the lines of a host program stand for (30_encoding.md R124): a sequence of separate host steps,
never one atomic step. -/

namespace Sys2Proof.Machine

/-- One host access to the current channel. -/
inductive Access where
  | rd (r : Reg)
  | wr (r : Reg) (v : Word)
  deriving DecidableEq, Repr

/-- `wr DATA[i], v0; wr DATA[i+1], v1; ...` (R124); a word past the buffer has no register. -/
def dataAccesses (i : Nat) (vs : List Word) : List Access :=
  match vs with
  | [] => []
  | v :: rest =>
    if h : i < dataWords then .wr (.data ⟨i, h⟩) v :: dataAccesses (i + 1) rest else dataAccesses (i + 1) rest

/-- The expansion of one line (R124). -/
def expandLine (l : Line) : List Access :=
  match l with
  | .wr r v => [.wr r v]
  | .rd r => [.rd r]
  | .modbus i s a q => [.wr .slave s, .wr .addr a, .wr .qty q, .wr .cmd (encode i)]
  | .crc n => [.wr .qty n, .wr .cmd (encode .crc)]
  | .crcchk n => [.wr .qty n, .wr .cmd (encode .crcchk)]
  | .init => [.wr .cmd (encode .init)]
  | .deinit => [.wr .cmd (encode .deinit)]
  | .data i vs => dataAccesses i vs
  | .wait reads => List.replicate reads (.rd .csr)

/-- The host's step for one access on channel `c` of port `p`. -/
def Access.action (p c : Nat) (a : Access) : Action :=
  match a with
  | .rd r => .hostRead { port := p, chan := c, reg := r.number }
  | .wr r v => .hostWrite { port := p, chan := c, reg := r.number } v

/-- The host's steps for a program run on channel `c` of port `p`. -/
def programActions (p c : Nat) (ls : List Line) : List Action := (ls.flatMap expandLine).map (Access.action p c)

end Sys2Proof.Machine
end

