-- ==== Sys2Proof/Safety.lean ====
section
/-! DEFINITION. The terms claims are stated in: the channel a command runs on, the invariants every reachable state
satisfies (10_state.md R64, R58; 43_transaction_engine.md; 60_exceptions.md R344, R347), quiescence
(70_reset_and_hazards.md R379), and the fair runs of R378. -/

namespace Sys2Proof.Machine

/-- Port `u` and channel record `ch` are those of the command in hand. -/
def InHand (s : State) (u : Port) (ch : Channel) : Prop :=
  s.ports[s.sel.port]? = some u ∧ u.chans[s.sel.chan]? = some ch

/-- Port `u` with channel record `c` replaced by `ch`. -/
def Port.putChan (u : Port) (c : Nat) (ch : Channel) : Port := { u with chans := u.chans.set c ch }

/-- State `s` with the port of the command in hand replaced. -/
def State.putPort (s : State) (u : Port) : State := s.setPort s.sel.port u

/-- Channel `c` of port `p` in state `s`. -/
def State.chanAt (s : State) (p c : Nat) : Option Channel := (s.ports[p]?).bind fun u => u.chans[c]?

/-- The operands a Modbus command may have (30_encoding.md R115, 43_transaction_engine.md R234, R235), for the channel
record it is issued on. A local command has none of them. -/
def Admitted (i : Instr) (ch : Channel) : Prop :=
  1 ≤ ch.slave.toNat ∧ ch.slave.toNat ≤ 247 ∧
    (i = .rhr → 1 ≤ ch.qty.toNat ∧ ch.qty.toNat ≤ 125) ∧ (i = .rir → 1 ≤ ch.qty.toNat ∧ ch.qty.toNat ≤ 125) ∧
    (i = .wmr → 1 ≤ ch.qty.toNat ∧ ch.qty.toNat ≤ 123) ∧ (i = .rc → 1 ≤ ch.qty.toNat ∧ ch.qty.toNat ≤ 2000) ∧
    (i = .wmc → 1 ≤ ch.qty.toNat ∧ ch.qty.toNat ≤ 1968)

/-- The command in hand holds the lock of its port and is in the running transaction. -/
def Running (s : State) (u : Port) (ch : Channel) : Prop :=
  InHand s u ch ∧ ch.phase = .active ∧ u.ps.owner = some s.sel.chan

/-- The command in hand waits for the lock of its port, and the lock is free. -/
def Grantable (s : State) (u : Port) (ch : Channel) : Prop :=
  InHand s u ch ∧ ch.phase = .waitLock ∧ u.ps.owner = none

/-- The next step of the machine is `a`, `rest` being what is pending after it. -/
def NextIs (s : State) (a : Action) (rest : List Action) : Prop := s.config.legal = true ∧ s.pending = a :: rest

/-- The next step of the machine is a host read of register `r`, by its name or at the bus address `BUS_MAP` gives it
(00_scope.md R16, 20_memory.md R80). -/
def NextReads (s : State) (r : RegName) (rest : List Action) : Prop :=
  NextIs s (.hostRead r) rest ∨ ∃ b, (b, r) ∈ s.params.busMap ∧ NextIs s (.busRead b) rest

/-- The next step of the machine is a host write of `v` to register `r`, by its name or at its bus address. -/
def NextWrites (s : State) (r : RegName) (v : Word) (rest : List Action) : Prop :=
  NextIs s (.hostWrite r v) rest ∨ ∃ b, (b, r) ∈ s.params.busMap ∧ NextIs s (.busWrite b v) rest

/-- The port a step may change: the one it is a step of (43_transaction_engine.md R264). A read changes none; a tick,
which changes all of them, names none. -/
def touchedPort (prm : Params) (a : Action) : Option Nat :=
  match a with
  | .hostRead _ => none
  | .hostWrite r _ => some r.port
  | .busRead _ => none
  | .busWrite b _ => (resolve prm b).map RegName.port
  | .grant p _ _ => some p
  | .sequencer p _ => some p
  | .tick => none
  | .rx p _ => some p
  | .txc p => some p

/-- The five invariants of 10_state.md R64, (a) to (e), of one port. -/
structure R64 (u : Port) : Prop where
  ownerActive   : ∀ c, u.ps.owner = some c → ∃ ch, u.chans[c]? = some ch ∧ ch.phase = .active
  oneActive     : ∀ (c c' : Nat) (ch ch' : Channel), u.chans[c]? = some ch → u.chans[c']? = some ch' → ch.phase = .active →
                    ch'.phase = .active → c = c'
  idleUnowned   : u.ps.seq = .idle ↔ u.ps.owner = none
  deSending     : u.ps.de = true → u.ps.seq = .sending
  busyInit      : u.ps.seq ≠ .idle → u.ps.init = true
  rxFits        : u.ps.rxlen ≤ u.cfg.rxBufCap
  txFits        : u.ps.txlen ≤ u.cfg.txBufCap

/-- What holds of a channel by itself: a command in progress shows no result yet (70_reset_and_hazards.md R366), a
waiting one needs the port, has admitted operands, has sent nothing and has not waited past its bound
(43_transaction_engine.md R237, R239), and WAIT is 0 when nothing waits (60_exceptions.md R330). -/
structure ChannelInv (prm : Params) (ch : Channel) : Prop where
  noResultYet : ch.phase ≠ .free → ch.done = false ∧ ch.status = .ok
  waits       : ch.phase = .waitLock → ∃ i, decode ch.cmd = .command i ∧ i ≠ .crc ∧ i ≠ .crcchk ∧ argsOk i ch = true
  waitBound   : ch.phase = .waitLock → reached prm.lockWaitMs ch.wait = false
  waitFresh   : ch.phase = .waitLock → ch.attempts = 0 ∧ ch.exc = 0
  freeWait    : ch.phase = .free → ch.wait = 0

/-- What holds of the transaction that channel record `ch` runs on port `u`: the request is the channel's admitted
command, the transmit buffer holds its ADU (43_transaction_engine.md R242), and ATTEMPTS counts the write steps made of
the `MAX_RETRIES + 1` allowed (R259; saturating, R246). -/
structure TransactionInv (u : Port) (ch : Channel) : Prop where
  command   : ∃ i, decode ch.cmd = .command i ∧ i.isModbus = true ∧ argsOk i ch = true
  latched   : u.ps.req = latchRequest ch
  built     : txFrame u.ps = build u.ps.req ch.data
  budget    : u.ps.retriesLeft ≤ u.cfg.maxRetries
  attempts  : ch.attempts.toNat =
                min (u.cfg.maxRetries - u.ps.retriesLeft + (if u.ps.seq = .sending ∧ u.ps.txph = .start then 0 else 1))
                  0xFFFF
  noExc     : u.ps.seq ≠ .fatal → ch.exc = 0

/-- What holds of a port in every reachable state. -/
structure PortInv (prm : Params) (u : Port) : Prop where
  chanCount    : u.chans.length = prm.numChannels
  channels     : ∀ ch ∈ u.chans, ChannelInv prm ch
  ownerIff     : ∀ c, u.ps.owner = some c ↔ ∃ ch, u.chans[c]? = some ch ∧ ch.phase = .active
  idleUnowned  : u.ps.seq = .idle ↔ u.ps.owner = none
  deWaiting    : u.ps.de = true → u.ps.seq = .sending ∧ u.ps.txph = .wait
  waitingDe    : u.ps.seq = .sending → u.ps.txph = .wait → u.cfg.dePresent = true ∧ u.ps.de = true
  busyInit     : u.ps.seq ≠ .idle → u.ps.init = true
  closedLine   : u.ps.init = false → u.env.lineRx = []
  rxFits       : u.ps.rxlen ≤ u.ps.rxbuf.length ∧ u.ps.rxbuf.length ≤ u.cfg.rxBufCap
  txFits       : u.ps.txlen ≤ u.ps.txbuf.length ∧ u.ps.txbuf.length ≤ u.cfg.txBufCap
  awaitingRoom : u.ps.seq = .awaiting → u.ps.rxlen < u.cfg.rxBufCap ∧ u.ps.timedOut = false
  respTimer    : u.ps.seq = .awaiting → u.ps.timer < u.cfg.respTimeoutMs
  txcTimer     : u.ps.seq = .sending → u.ps.txph = .wait → reached prm.txcTimeoutMs u.ps.timer = false
  validatingOn : u.ps.seq = .validating →
                   u.ps.timedOut = true ∨ frameComplete (rxFrame u.ps) u.ps.req.op u.cfg.rxBufCap = true
  successOk    : u.ps.seq = .success → parse (rxFrame u.ps) u.ps.req = .ok
  retryBudget  : u.ps.seq = .retryable → 0 < u.ps.retriesLeft ∧ u.ps.last.retried = true
  fatalStatus  : u.ps.seq = .fatal → u.ps.last ≠ .ok ∧ u.ps.last ≠ .busy
  transaction  : ∀ c ch, u.ps.owner = some c → u.chans[c]? = some ch → TransactionInv u ch

/-- The invariant of the machine. -/
def Inv (s : State) : Prop := ∀ u ∈ s.ports, PortInv s.params u

/-- A quiescent state (70_reset_and_hazards.md R379): no channel of any port is BUSY. -/
def Quiescent (s : State) : Prop := ∀ u ∈ s.ports, ∀ ch ∈ u.chans, ch.busy = false

/-- The port's sequencer has an internal step enabled (43_transaction_engine.md R243, R265). -/
def sequencerEnabled (prm : Params) (u : Port) : Prop :=
  match u.ps.seq with
  | .idle => False
  | .sending => u.ps.txph = .start
  | .awaiting => u.env.lineRx ≠ []
  | .validating => True
  | .success => True
  | .retryable => prm.retryBackoffMs ≤ u.ps.timer
  | .fatal => True

/-- Channel `c` of port `u` has its lock-grant step enabled (R240). -/
def grantEnabled (u : Port) (c : Nat) : Prop :=
  u.ps.owner = none ∧ ∃ ch, u.chans[c]? = some ch ∧ ch.phase = .waitLock

/-- An infinite run of the machine, with `a n` the agent's step taken in its n-th place. Every schedule of the agents is
some `a` (00_scope.md R22), so a claim for all `a` holds whatever the free value is. -/
def IsRun (a : Nat → Action) (f : Nat → State) : Prop :=
  ∀ n, step { f n with pending := [a n] } = .next (f (n + 1))

/-- Weak fairness (70_reset_and_hazards.md R378): (a) of each port's internal steps, (b) of ticks, (c) of each
channel's lock-grant step. Byte arrivals, transmit-complete, the transport's answers and the host have none (d). -/
structure Fair (a : Nat → Action) (f : Nat → State) : Prop where
  internal : ∀ p n, (∀ m, n ≤ m → ∃ u, (f m).ports[p]? = some u ∧ sequencerEnabled (f m).params u) →
               ∃ m, n ≤ m ∧ ∃ k, a m = .sequencer p k
  ticks    : ∀ n, ∃ m, n ≤ m ∧ a m = .tick
  grants   : ∀ p c n, (∀ m, n ≤ m → ∃ u, (f m).ports[p]? = some u ∧ grantEnabled u c) →
               ∃ m, n ≤ m ∧ ∃ o, a m = .grant p c o

/-- The phase of channel `c` of port `p`. -/
def State.phaseAt (s : State) (p c : Nat) : Option Phase := (s.chanAt p c).map Channel.phase

/-- A tick of this port counts toward a bound of its transaction (70_reset_and_hazards.md R376): in TX_WAIT, in AWAITING,
and in RETRYABLE until the backoff has passed. In the other states of a transaction, and after the backoff, an internal
step is enabled, and ticks that are taken before it are counted by no timer (43_transaction_engine.md R263; log 23). -/
def countsTick (prm : Params) (u : Port) : Bool :=
  match u.ps.seq with
  | .idle => false
  | .sending => u.ps.txph == .wait
  | .awaiting => true
  | .validating => false
  | .success => false
  | .retryable => decide (u.ps.timer < prm.retryBackoffMs)
  | .fatal => false

/-- A tick counts for the command on channel `c` of port `p`: while it waits for the lock, and in its transaction. -/
def countsFor (s : State) (p c : Nat) : Bool :=
  match s.ports[p]?, s.phaseAt p c with
  | some _, some .waitLock => true
  | some u, some .active => countsTick s.params u
  | _, _ => false

/-- How many of the `k` steps from step `n` on are ticks taken in a place where `q` holds. -/
def ticksWhere (a : Nat → Action) (q : Nat → Bool) (n k : Nat) : Nat :=
  match k with
  | 0 => 0
  | k + 1 => ticksWhere a q n k + if a (n + k) = .tick ∧ q (n + k) = true then 1 else 0

/-- The bound of R376 on the ticks of a transaction, `txc` being the bound of TX_WAIT (0 without direction-enable). -/
def transactionTicks (prm : Params) (cfg : PortConfig) (txc : Nat) : Nat :=
  (cfg.maxRetries + 1) * (txc + cfg.respTimeoutMs) + cfg.maxRetries * prm.retryBackoffMs

/-- The agents' steps of one attempt without direction-enable that the slave leaves unanswered: the write, `resp` ticks,
the validation. -/
def silentAttempt (p len resp : Nat) : List Action :=
  .sequencer p len :: (List.replicate resp .tick ++ [.sequencer p 0])

/-- The steps of a transaction whose every attempt is left unanswered, with `m` retries, each after `back` ticks of
backoff: the attempts, the retry steps between them, and the FATAL step (43_transaction_engine.md R259). -/
def silentTransaction (p len resp back m : Nat) : List Action :=
  match m with
  | 0 => silentAttempt p len resp ++ [.sequencer p 0]
  | m + 1 =>
    silentAttempt p len resp ++ (List.replicate back .tick ++ [.sequencer p 0]) ++ silentTransaction p len resp back m

/-- The agents' steps of a one-attempt transaction without direction-enable that is answered by `resp`: the grant, the
write, the arrival of the bytes, their reading, the validation and the SUCCESS step. -/
def answeredTransaction (p c len : Nat) (resp : List Byte) : List Action :=
  [.grant p c false, .sequencer p len] ++ resp.map (Action.rx p) ++ List.replicate resp.length (.sequencer p 0) ++
    [.sequencer p 0, .sequencer p 0]

/-- `k` steps from `s` end in `t`. -/
def runsTo (k : Nat) (s t : State) : Prop := Host.Core.run Sys2Proof.core k s = .next t

end Sys2Proof.Machine
end

