-- ==== Sys2Proof/Certificates/Slice0/Obligations.lean ====
section
/-! DEFINITION. The statements about the block, for the provers. Each says which rule of spec/ it formalises. -/

open Sys2Proof Sys2Proof.Machine

/-! ## Encoding -/

/-- 30_encoding.md R110, R111: the eleven command words, written out from the tables, decode to their commands. -/
def Obligations.CommandWordsDecode : Prop :=
  decode 0x0001 = .command .rc ∧ decode 0x0003 = .command .rhr ∧ decode 0x0004 = .command .rir ∧
    decode 0x0005 = .command .wsc ∧ decode 0x0006 = .command .wsr ∧ decode 0x000F = .command .wmc ∧
    decode 0x0010 = .command .wmr ∧ decode 0x00F0 = .command .init ∧ decode 0x00F1 = .command .deinit ∧
    decode 0x00F2 = .command .crc ∧ decode 0x00F3 = .command .crcchk

/-- R100 to R102, R112: decoding and encoding agree on every one of the 65536 words: a word decodes to a command exactly
when it is that command's word; every other word is illegal, by its reserved bits if any is set, else by its OP. -/
def Obligations.DecodeEncodeAgree : Prop :=
  (∀ i : Instr, i.wellFormed = true ∧ decode (encode i) = .command i) ∧
    (∀ (w : Word) (i : Instr), decode w = .command i ↔ w = encode i) ∧
    (∀ w : Word, decode w = .illegal .reservedBits ↔ w.extractLsb' 8 8 ≠ 0) ∧
    (∀ w : Word, decode w = .illegal .reservedOp ↔
      w.extractLsb' 8 8 = 0 ∧ ∀ i : Instr, w.extractLsb' 0 8 ≠ i.op)

/-- 20_memory.md R80, R83: every register has the number of the table and is found under it, and the numbers of no
register are 9 to 15 and 141 to 255. -/
def Obligations.RegisterNumbersAgree : Prop :=
  (Reg.cmd.number = 0 ∧ Reg.csr.number = 1 ∧ Reg.slave.number = 2 ∧ Reg.addr.number = 3 ∧ Reg.qty.number = 4 ∧
    Reg.exc.number = 5 ∧ Reg.attempts.number = 6 ∧ Reg.crcr.number = 7 ∧ Reg.psr.number = 8 ∧
    ∀ i : Fin 125, (Reg.data i).number.toNat = 16 + i.val) ∧
    (∀ r : Reg, regOf r.number = some r) ∧
    (∀ n : Byte, regOf n = none ↔ (9 ≤ n.toNat ∧ n.toNat ≤ 15) ∨ 141 ≤ n.toNat)

/-- 30_encoding.md R122, R123: the eight exception codes map 1:1 to their statuses, status `0x80 | e`; every other code is
ERROR. Seven of the eight numbers are the spec's general knowledge, not its source's (R122; log 19, PRESUMED). -/
def Obligations.ExceptionCodesMapOneToOne : Prop :=
  (excStatus 0x01 = .excIllegalFunction ∧ excStatus 0x02 = .excIllegalDataAddress ∧
    excStatus 0x03 = .excIllegalDataValue ∧ excStatus 0x04 = .excSlaveDeviceFailure ∧ excStatus 0x05 = .excAcknowledge ∧
    excStatus 0x06 = .excSlaveBusy ∧ excStatus 0x0A = .excGatewayPathUnavailable ∧
    excStatus 0x0B = .excGatewayTargetNoResponse) ∧
    (∀ e : Byte, e ∈ ([0x01, 0x02, 0x03, 0x04, 0x05, 0x06, 0x0A, 0x0B] : List Byte) →
      (excStatus e).code = (0x80 : Byte) ||| e) ∧
    (∀ e : Byte, e ∉ ([0x01, 0x02, 0x03, 0x04, 0x05, 0x06, 0x0A, 0x0B] : List Byte) → excStatus e = .error) ∧
    (∀ a b : Status, a.code = b.code → a = b)

/-! ## A step runs the decoded command -/

/-- R85, R231: with a host write of a legal command word to the CMD register of a channel that is not BUSY as the next
step (by name or through BUS_MAP: 00_scope.md R16, R80), `step` is `exec` of the decoded command on that channel. Around
`exec` it only uses up the pending step and puts the channel in hand. `withFetchWord` places such a write. -/
def Obligations.StepRunsDecodedCommand : Prop :=
  (∀ (s : State) (rest : List Action) (r : RegName) (v : Word) (i : Instr) (u : Port) (ch : Channel),
    NextWrites s r v rest → r.reg = 0 → s.ports[r.port]? = some u → u.chans[r.chan]? = some ch →
    ch.phase = .free → decode v = .command i →
    step s = exec i (State.select { s with pending := rest } r.port r.chan false 0)) ∧
  (∀ (s : State) (nbits w p c : Nat) (i : Instr) (u : Port) (ch : Channel),
    s.config.legal = true → decodeTableWord nbits w = some i → firstFree s.ports 0 = (p, c) →
    s.ports[p]? = some u → u.chans[c]? = some ch → ch.phase = .free →
    step (s.withFetchWord nbits w) = exec i (s.select p c false 0))

/-- 43_transaction_engine.md R240: a grant step enabled on a waiting channel runs the command in its CMD; one that is
not enabled changes nothing. -/
def Obligations.GrantStepRunsWaitingCommand : Prop :=
  ∀ (s : State) (rest : List Action) (p c : Nat) (o : Bool) (u : Port) (ch : Channel),
    NextIs s (.grant p c o) rest → s.ports[p]? = some u → u.chans[c]? = some ch →
    (∀ i, ch.phase = .waitLock → u.ps.owner = none → decode ch.cmd = .command i →
      step s = exec i (State.select { s with pending := rest } p c o 0)) ∧
    ((ch.phase ≠ .waitLock ∨ u.ps.owner ≠ none) → step s = .next { s with pending := rest })

/-- R243, 30_encoding.md R113: a sequencer step of a port whose lock a running command holds is a step of the command
whose OP is latched, and without an owner there is none (R244). That the step belongs to the latched OP's command, and to
none without an owner, is the model's reading of these rules (log 14, DEDUCED); that the state is then unchanged is log
4 (DESIGN CHOICE). -/
def Obligations.SequencerStepRunsLatchedCommand : Prop :=
  ∀ (s : State) (rest : List Action) (p n : Nat) (u : Port),
    NextIs s (.sequencer p n) rest → s.ports[p]? = some u →
    (∀ c ch i, u.ps.owner = some c → u.chans[c]? = some ch → ch.phase = .active → u.ps.req.op = i.op →
      step s = exec i (State.select { s with pending := rest } p c false n)) ∧
    (u.ps.owner = none → step s = .next { s with pending := rest })

/-! ## Host accesses -/

/-- R233: an illegal command word written to CMD (by name or through BUS_MAP) completes at once with INVALID_PARAMETER.
Only the channel's record changes: CMD, DONE and STATUS are written, EXC and ATTEMPTS cleared; the port state, its other
channels, the line and the other ports are as before. (That a FREE channel does not hold the lock is 10_state.md R64 (a),
which StepKeepsInvariant keeps.) -/
def Obligations.IllegalWordCompletesAtOnce : Prop :=
  ∀ (s : State) (rest : List Action) (r : RegName) (v : Word) (u : Port) (ch : Channel),
    NextWrites s r v rest → r.reg = 0 → s.ports[r.port]? = some u → u.chans[r.chan]? = some ch →
    ch.phase = .free → u.ps.owner ≠ some r.chan → (∀ i, v ≠ encode i) →
    step s = .next (State.setPort { s with pending := rest } r.port
      (u.putChan r.chan { ch with cmd := v, done := true, status := .invalidParameter, exc := 0, attempts := 0,
                                  wait := 0 }))

/-- R232, R85: any host write to a channel that is BUSY, to CMD or to any other register, by name or through BUS_MAP, has
no effect at all. -/
def Obligations.BusyChannelIgnoresWrites : Prop :=
  ∀ (s : State) (rest : List Action) (r : RegName) (v : Word) (u : Port) (ch : Channel),
    NextWrites s r v rest → s.ports[r.port]? = some u → u.chans[r.chan]? = some ch → ch.phase ≠ .free →
    step s = .next { s with pending := rest }

/-- R85, R49 to R52: a host write, by name or through BUS_MAP (R16, R80), to a register other than CMD of a channel that
is not BUSY writes SLAVE (its bits 7:0 only), ADDR, QTY or the DATA word, and has no effect on a read-only or reserved
register; nothing else changes. -/
def Obligations.FreeChannelTakesOperands : Prop :=
  ∀ (s : State) (rest : List Action) (r : RegName) (v : Word) (u : Port) (ch : Channel),
    NextWrites s r v rest → r.reg ≠ 0 → s.ports[r.port]? = some u → u.chans[r.chan]? = some ch →
    ch.phase = .free →
    ∃ ch', step s = .next (State.setPort { s with pending := rest } r.port (u.putChan r.chan ch')) ∧
      (r.reg = 2 → ch' = { ch with slave := v.extractLsb' 0 8 }) ∧ (r.reg = 3 → ch' = { ch with addr := v }) ∧
      (r.reg = 4 → ch' = { ch with qty := v }) ∧
      (∀ i : Fin 125, r.reg.toNat = 16 + i.val → ch' = { ch with data := ch.data.set i v }) ∧
      (r.reg = 1 ∨ (5 ≤ r.reg.toNat ∧ r.reg.toNat ≤ 15) ∨ 141 ≤ r.reg.toNat → ch' = ch)

/-- R84, R83, R80: a host read, by name or through BUS_MAP (R16), returns the register's value, reserved bits and reserved
numbers reading 0, and leaves the block as it was (`hostIn`, the host's copy of the value, is the model's own: log 7). -/
def Obligations.HostReadReturnsRegister : Prop :=
  ∀ (s : State) (rest : List Action) (r : RegName) (u : Port) (ch : Channel),
    NextReads s r rest → s.ports[r.port]? = some u → u.chans[r.chan]? = some ch →
    ∃ v, step s = .next { s with pending := rest, hostIn := v } ∧
      (r.reg = 0 → v = ch.cmd) ∧ (r.reg = 1 → v = ch.csr) ∧ (r.reg = 2 → v = ch.slave.setWidth 16) ∧
      (r.reg = 3 → v = ch.addr) ∧ (r.reg = 4 → v = ch.qty) ∧ (r.reg = 5 → v = ch.exc.setWidth 16) ∧
      (r.reg = 6 → v = ch.attempts) ∧ (r.reg = 7 → v = ch.crcr) ∧ (r.reg = 8 → v = u.ps.psr r.chan) ∧
      (∀ i : Fin 125, r.reg.toNat = 16 + i.val → v = ch.data[i]) ∧
      ((9 ≤ r.reg.toNat ∧ r.reg.toNat ≤ 15) ∨ 141 ≤ r.reg.toNat → v = 0)

/-- 10_state.md R48, R57: the bits of CSR and of PSR, as channel `c` reads them, and their reset values; and the codes they
show: every status code of 30_encoding.md R120 and every sequencer code of 10_state.md R36. -/
def Obligations.CsrAndPsrBits : Prop :=
  (∀ ch : Channel, (ch.csr.getLsbD 0 = true ↔ ch.phase ≠ .free) ∧ ch.csr.getLsbD 1 = ch.done ∧
    ch.csr.extractLsb' 2 6 = 0 ∧ ch.csr.extractLsb' 8 8 = ch.status.code) ∧
  (∀ (ps : PortState) (c : Nat), (ps.psr c).getLsbD 0 = ps.init ∧ ((ps.psr c).getLsbD 1 = true ↔ ps.owner ≠ none) ∧
    ((ps.psr c).getLsbD 2 = true ↔ ps.owner = some c) ∧ (ps.psr c).getLsbD 3 = false ∧
    (ps.psr c).extractLsb' 4 3 = ps.seq.code ∧ (ps.psr c).getLsbD 7 = ps.de ∧ (ps.psr c).extractLsb' 8 8 = 0) ∧
  (Status.ok.code = 0x00 ∧ Status.error.code = 0x01 ∧ Status.invalidParameter.code = 0x02 ∧
    Status.notInitialized.code = 0x03 ∧ Status.alreadyInitialized.code = 0x04 ∧ Status.busy.code = 0x05 ∧
    Status.timeout.code = 0x06 ∧ Status.crcError.code = 0x07 ∧ Status.unexpectedResponse.code = 0x08 ∧
    Status.excIllegalFunction.code = 0x81 ∧ Status.excIllegalDataAddress.code = 0x82 ∧
    Status.excIllegalDataValue.code = 0x83 ∧ Status.excSlaveDeviceFailure.code = 0x84 ∧
    Status.excAcknowledge.code = 0x85 ∧ Status.excSlaveBusy.code = 0x86 ∧
    Status.excGatewayPathUnavailable.code = 0x8A ∧ Status.excGatewayTargetNoResponse.code = 0x8B) ∧
  (Seq.idle.code = 0 ∧ Seq.sending.code = 1 ∧ Seq.awaiting.code = 2 ∧ Seq.validating.code = 3 ∧ Seq.success.code = 4 ∧
    Seq.retryable.code = 5 ∧ Seq.fatal.code = 6) ∧
  Channel.reset.csr = 0 ∧ ∀ c : Nat, PortState.reset.psr c = 0

/-! ## Issue -/

/-- R237: a legal command that needs the port (a Modbus command with admitted operands, INIT, DEINIT) ends its issue
step in WAIT_LOCK with BUSY = 1 and WAIT = 0, whether or not the port is initialised. CMD holds its word, DONE, STATUS,
EXC and ATTEMPTS are cleared (R231); nothing else changes. -/
def Obligations.IssueEntersWaitLock : Prop :=
  ∀ (s : State) (u : Port) (ch : Channel) (i : Instr), InHand s u ch → ch.phase = .free →
    (i = .init ∨ i = .deinit ∨ (i.isModbus = true ∧ Admitted i ch)) →
    exec i s = .next (s.putPort (u.putChan s.sel.chan
      { ch with cmd := 0#8 ++ i.op, done := false, status := .ok, exc := 0, attempts := 0, phase := .waitLock, wait := 0 }))

/-- R234, R235: a Modbus command whose slave address or quantity is out of range completes in the issue step with
INVALID_PARAMETER: no port state changes and no I/O is made. (That a FREE channel does not hold the lock is 10_state.md
R64 (a), which StepKeepsInvariant keeps; so too in the two statements that follow.) -/
def Obligations.IssueRejectsOperands : Prop :=
  ∀ (s : State) (u : Port) (ch : Channel) (i : Instr), InHand s u ch → ch.phase = .free →
    u.ps.owner ≠ some s.sel.chan → i.isModbus = true → ¬ Admitted i ch →
    exec i s = .next (s.putPort (u.putChan s.sel.chan
      { ch with cmd := 0#8 ++ i.op, done := true, status := .invalidParameter, exc := 0, attempts := 0, wait := 0 }))

/-- 40_crc16.md R147: CRC writes CRCR with the CRC16 of the first QTY bytes of the byte view and completes OK, whatever
the port is doing; with QTY above 250 it completes with INVALID_PARAMETER and leaves CRCR. DATA, the operands and the
port state are never written. -/
def Obligations.CrcComputesBuffer : Prop :=
  ∀ (s : State) (u : Port) (ch : Channel), InHand s u ch → ch.phase = .free → u.ps.owner ≠ some s.sel.chan →
    (ch.qty.toNat ≤ 250 →
      exec .crc s = .next (s.putPort (u.putChan s.sel.chan
        { ch with cmd := 0x00F2, done := true, status := .ok, exc := 0, attempts := 0, wait := 0,
                  crcr := crc16 (dataBytes ch.data ch.qty.toNat) }))) ∧
    (250 < ch.qty.toNat →
      exec .crc s = .next (s.putPort (u.putChan s.sel.chan
        { ch with cmd := 0x00F2, done := true, status := .invalidParameter, exc := 0, attempts := 0, wait := 0 })))

/-- 40_crc16.md R149: CRCCHK writes CRCR with the CRC16 of all but the last two of the QTY bytes and completes with OK
when those two are its low and high byte, with CRC_ERROR when not; with QTY below 2 or above 250 it completes with
INVALID_PARAMETER and leaves CRCR. -/
def Obligations.CrcchkChecksBuffer : Prop :=
  ∀ (s : State) (u : Port) (ch : Channel), InHand s u ch → ch.phase = .free → u.ps.owner ≠ some s.sel.chan →
    (2 ≤ ch.qty.toNat → ch.qty.toNat ≤ 250 →
      exec .crcchk s = .next (s.putPort (u.putChan s.sel.chan
        { ch with cmd := 0x00F3, done := true, exc := 0, attempts := 0, wait := 0,
                  crcr := crc16 (dataBytes ch.data (ch.qty.toNat - 2)),
                  status :=
                    if dataByte ch.data (ch.qty.toNat - 2) =
                          (crc16 (dataBytes ch.data (ch.qty.toNat - 2))).extractLsb' 0 8 ∧
                        dataByte ch.data (ch.qty.toNat - 1) =
                          (crc16 (dataBytes ch.data (ch.qty.toNat - 2))).extractLsb' 8 8
                    then .ok else .crcError }))) ∧
    (ch.qty.toNat < 2 ∨ 250 < ch.qty.toNat →
      exec .crcchk s = .next (s.putPort (u.putChan s.sel.chan
        { ch with cmd := 0x00F3, done := true, status := .invalidParameter, exc := 0, attempts := 0, wait := 0 })))

/-! ## Lock grant -/

/-- 42_transport_port.md R212: INIT's grant step, whole: ALREADY_INITIALIZED without re-opening; OK with INIT = 1, an
empty line queue and DE = 0; ERROR if `open` fails, the port staying uninitialised. In each case the lock is free and
the sequencer IDLE afterwards (60_exceptions.md R330). The `configure` call is the model's observation (log 6). -/
def Obligations.InitGrantOpensPort : Prop :=
  ∀ (s : State) (u : Port) (ch : Channel), Grantable s u ch →
    (u.ps.init = true →
      exec .init s = .next (s.putPort
        { u.putChan s.sel.chan { ch with done := true, status := .alreadyInitialized, phase := .free, wait := 0 } with
          ps := { u.ps with owner := none, seq := .idle, txph := .start, de := false, timer := 0, timedOut := false } })) ∧
    (u.ps.init = false → s.sel.openOk = true →
      exec .init s = .next (s.putPort
        { u.putChan s.sel.chan { ch with done := true, status := .ok, phase := .free, wait := 0 } with
          ps := { u.ps with init := true, owner := none, seq := .idle, txph := .start, de := false, timer := 0,
                            timedOut := false }
          env := { lineRx := [], configured := u.env.configured ++ [lineParams u.cfg] } })) ∧
    (u.ps.init = false → s.sel.openOk = false →
      exec .init s = .next (s.putPort
        { u.putChan s.sel.chan { ch with done := true, status := .error, phase := .free, wait := 0 } with
          ps := { u.ps with owner := none, seq := .idle, txph := .start, de := false, timer := 0, timedOut := false }
          env := { u.env with configured := u.env.configured ++ [lineParams u.cfg] } }))

/-- 42_transport_port.md R214: DEINIT's grant step: OK with INIT = 0, an empty line queue and DE = 0 on an initialised
port; NOT_INITIALIZED on another. The operands and DATA of every channel are unchanged. REQ, the buffers and their
lengths, RETRIES_LEFT and LAST keep their values, as R214 and 60_exceptions.md R330 give it; that R215 does not ask for
their reset values is the model's reading (log 24, DEDUCED). -/
def Obligations.DeinitGrantClosesPort : Prop :=
  ∀ (s : State) (u : Port) (ch : Channel), Grantable s u ch →
    (u.ps.init = true →
      exec .deinit s = .next (s.putPort
        { u.putChan s.sel.chan { ch with done := true, status := .ok, phase := .free, wait := 0 } with
          ps := { u.ps with init := false, owner := none, seq := .idle, txph := .start, de := false, timer := 0,
                            timedOut := false }
          env := { u.env with lineRx := [] } })) ∧
    (u.ps.init = false →
      exec .deinit s = .next (s.putPort
        { u.putChan s.sel.chan { ch with done := true, status := .notInitialized, phase := .free, wait := 0 } with
          ps := { u.ps with owner := none, seq := .idle, txph := .start, de := false, timer := 0, timedOut := false } }))

/-- R241: a Modbus command granted the lock of an uninitialised port completes with NOT_INITIALIZED, the lock released
in the same step and no I/O performed. -/
def Obligations.GrantUninitialisedPort : Prop :=
  ∀ (s : State) (u : Port) (ch : Channel) (i : Instr), Grantable s u ch → i.isModbus = true → u.ps.init = false →
    exec i s = .next (s.putPort
      { u.putChan s.sel.chan { ch with done := true, status := .notInitialized, phase := .free, wait := 0 } with
        ps := { u.ps with owner := none, seq := .idle, txph := .start, de := false, timer := 0, timedOut := false } })

/-- R242, R240: on an initialised port the grant step gives the channel the lock, latches the request, builds the ADU
into TXBUF, loads the retry budget and starts the sequencer. -/
def Obligations.GrantLatchesAndBuilds : Prop :=
  ∀ (s : State) (u : Port) (ch : Channel) (i : Instr), Grantable s u ch → i.isModbus = true → u.ps.init = true →
    ∃ (req : Request) (ps' : PortState),
      exec i s = .next (s.putPort { u.putChan s.sel.chan { ch with phase := .active } with ps := ps' }) ∧
      req = { op := ch.cmd.extractLsb' 0 8, slave := ch.slave, addr := ch.addr, qty := ch.qty } ∧
      ps'.txbuf.take ps'.txlen = build req ch.data ∧ ps'.txlen = (build req ch.data).length ∧
      ps'.txbuf.drop ps'.txlen = u.ps.txbuf.drop ps'.txlen ∧
      ps' = { u.ps with owner := some s.sel.chan, req := req, txbuf := ps'.txbuf, txlen := ps'.txlen,
                        retriesLeft := u.cfg.maxRetries, last := .ok, seq := .sending, txph := .start }

/-! ## Codec -/

/-- R160 to R165: the request ADU of every function code: slave address, function code, big-endian fields, the data
bytes, then the CRC16 of all of them, low byte first. -/
def Obligations.BuildFrames : Prop :=
  ∀ (req : Request) (d : DataBuffer), ∃ pdu : List Byte,
    build req d = pdu ++ [(crc16 pdu).extractLsb' 0 8, (crc16 pdu).extractLsb' 8 8] ∧
    (req.op = 0x01 ∨ req.op = 0x03 ∨ req.op = 0x04 ∨ req.op = 0x06 →
      pdu = [req.slave, req.op, req.addr.extractLsb' 8 8, req.addr.extractLsb' 0 8, req.qty.extractLsb' 8 8,
             req.qty.extractLsb' 0 8]) ∧
    (req.op = 0x05 → pdu = [req.slave, req.op, req.addr.extractLsb' 8 8, req.addr.extractLsb' 0 8,
                            if req.qty = 0 then 0x00 else 0xFF, 0x00]) ∧
    (req.op = 0x0F →
      pdu = [req.slave, req.op, req.addr.extractLsb' 8 8, req.addr.extractLsb' 0 8, req.qty.extractLsb' 8 8,
             req.qty.extractLsb' 0 8, BitVec.ofNat 8 ((req.qty.toNat + 7) / 8)] ++
            (List.range ((req.qty.toNat + 7) / 8)).map (dataByte d)) ∧
    (req.op = 0x10 → req.qty.toNat ≤ 125 →
      pdu = [req.slave, req.op, req.addr.extractLsb' 8 8, req.addr.extractLsb' 0 8, req.qty.extractLsb' 8 8,
             req.qty.extractLsb' 0 8, BitVec.ofNat 8 (2 * req.qty.toNat)] ++
            ((d.toList.take req.qty.toNat).map fun w => [w.extractLsb' 8 8, w.extractLsb' 0 8]).flatten)

/-- R166: the request lengths, and that every request of an admitted command fits in 255 bytes. -/
def Obligations.RequestLengths : Prop :=
  ∀ (i : Instr) (ch : Channel), i.isModbus = true → Admitted i ch → decode ch.cmd = .command i →
    (i = .rc ∨ i = .rhr ∨ i = .rir ∨ i = .wsc ∨ i = .wsr → (build (latchRequest ch) ch.data).length = 8) ∧
    (i = .wmc → (build (latchRequest ch) ch.data).length = 9 + (ch.qty.toNat + 7) / 8 ∧
      10 ≤ (build (latchRequest ch) ch.data).length) ∧
    (i = .wmr → (build (latchRequest ch) ch.data).length = 9 + 2 * ch.qty.toNat ∧
      11 ≤ (build (latchRequest ch) ch.data).length) ∧
    (build (latchRequest ch) ch.data).length ≤ 255

/-- R170, R171: a frame is complete exactly when its last byte has arrived, not before: a read response by its
declared byte count, a write echo at 8 bytes, an exception response at 5, whatever the CRC; and what fills the receive
buffer is complete: a frame whose declared length passes the capacity is cut exactly there. -/
def Obligations.FrameEndsAtExpectedLength : Prop :=
  (∀ (rx : List Byte) (op : Byte) (cap k : Nat), rx.length ≤ cap → k ≤ rx.length →
    ((byteAt rx 1 &&& 0x80) = 0 → (op = 0x01 ∨ op = 0x03 ∨ op = 0x04) → 3 ≤ rx.length →
      rx.length = 5 + (byteAt rx 2).toNat → (frameComplete (rx.take k) op cap = true ↔ k = rx.length)) ∧
    ((byteAt rx 1 &&& 0x80) = 0 → (op = 0x05 ∨ op = 0x06 ∨ op = 0x0F ∨ op = 0x10) → rx.length = 8 →
      (frameComplete (rx.take k) op cap = true ↔ k = 8)) ∧
    ((byteAt rx 1 &&& 0x80) ≠ 0 → rx.length = 5 → (frameComplete (rx.take k) op cap = true ↔ k = 5))) ∧
  (∀ (rx : List Byte) (op : Byte), frameComplete rx op rx.length = true) ∧
  ∀ (rx : List Byte) (op : Byte) (cap k : Nat), cap ≤ rx.length → k ≤ cap → (byteAt rx 1 &&& 0x80) = 0 →
    (op = 0x01 ∨ op = 0x03 ∨ op = 0x04) → 3 ≤ cap → cap < 5 + (byteAt rx 2).toNat →
    (frameComplete (rx.take k) op cap = true ↔ k = cap)

/-- R172 to R181: Parse answers OK exactly when every check passes. -/
def Obligations.ParseAcceptsExactly : Prop :=
  ∀ (rx : List Byte) (req : Request), parse rx req = .ok ↔
    5 ≤ rx.length ∧ crcOk rx = true ∧ byteAt rx 0 = req.slave ∧ (byteAt rx 1 &&& 0x80) = 0 ∧
      (byteAt rx 1 &&& 0x7F) = req.op ∧
      (req.op = 0x01 → rx.length = 5 + (byteAt rx 2).toNat ∧ (byteAt rx 2).toNat = (req.qty.toNat + 7) / 8) ∧
      (req.op = 0x03 ∨ req.op = 0x04 → rx.length = 5 + (byteAt rx 2).toNat ∧ (byteAt rx 2).toNat = 2 * req.qty.toNat) ∧
      (req.op = 0x05 ∨ req.op = 0x06 ∨ req.op = 0x0F ∨ req.op = 0x10 → rx.length = 8)

/-- R173 to R180: the first failing check decides: a frame below 5 bytes is UNEXPECTED_RESPONSE, then a bad CRC is
CRC_ERROR, then another slave's frame is UNEXPECTED_RESPONSE, then the exception bit is EXCEPTION of the next byte,
whatever the function code and the length; then UNEXPECTED_RESPONSE for another function code, for a read whose declared
length is not the frame's, for a read whose byte count is not the request's, and for a write response that is not 8
bytes long, whose echoed fields are not compared. -/
def Obligations.ParseFirstFailureDecides : Prop :=
  ∀ (rx : List Byte) (req : Request),
    (rx.length < 5 → parse rx req = .unexpectedResponse) ∧
    (5 ≤ rx.length → crcOk rx = false → parse rx req = .crcError) ∧
    (5 ≤ rx.length → crcOk rx = true → byteAt rx 0 ≠ req.slave → parse rx req = .unexpectedResponse) ∧
    (5 ≤ rx.length → crcOk rx = true → byteAt rx 0 = req.slave → (byteAt rx 1 &&& 0x80) ≠ 0 →
      parse rx req = .exception (byteAt rx 2)) ∧
    (5 ≤ rx.length → crcOk rx = true → byteAt rx 0 = req.slave → (byteAt rx 1 &&& 0x80) = 0 →
      ((byteAt rx 1 &&& 0x7F) ≠ req.op → parse rx req = .unexpectedResponse) ∧
      ((byteAt rx 1 &&& 0x7F) = req.op →
        ((req.op = 0x01 ∨ req.op = 0x03 ∨ req.op = 0x04) → 5 + (byteAt rx 2).toNat ≠ rx.length →
          parse rx req = .unexpectedResponse) ∧
        ((req.op = 0x03 ∨ req.op = 0x04) → 5 + (byteAt rx 2).toNat = rx.length →
          (byteAt rx 2).toNat ≠ 2 * req.qty.toNat → parse rx req = .unexpectedResponse) ∧
        (req.op = 0x01 → 5 + (byteAt rx 2).toNat = rx.length → (byteAt rx 2).toNat ≠ (req.qty.toNat + 7) / 8 →
          parse rx req = .unexpectedResponse) ∧
        ((req.op = 0x05 ∨ req.op = 0x06 ∨ req.op = 0x0F ∨ req.op = 0x10) →
          (rx.length ≠ 8 → parse rx req = .unexpectedResponse) ∧ (rx.length = 8 → parse rx req = .ok)))) ∧
    (parse rx req = .crcError → crcOk rx = false)

/-- R167, R181: a read response that carries `nb` data bytes for an admitted read, built with its CRC, parses OK and its
payload is those bytes. -/
def Obligations.ReadResponseRoundTrip : Prop :=
  ∀ (req : Request) (d : List Byte), (req.op = 0x01 ∨ req.op = 0x03 ∨ req.op = 0x04) →
    d.length = readByteCount req → readByteCount req ≤ 250 →
    parse (appendCrc ([req.slave, req.op, BitVec.ofNat 8 (readByteCount req)] ++ d)) req = .ok ∧
      payload (appendCrc ([req.slave, req.op, BitVec.ofNat 8 (readByteCount req)] ++ d)) req.op = d

/-- R168, R180, R183: every 8-byte CRC-valid write response with the request's slave and function code is OK whatever
its echoed fields; the echo of a WRITE_SINGLE request is the request ADU itself. -/
def Obligations.WriteEchoAccepted : Prop :=
  (∀ (req : Request) (a f : Word), (req.op = 0x05 ∨ req.op = 0x06 ∨ req.op = 0x0F ∨ req.op = 0x10) →
    parse (appendCrc ([req.slave, req.op] ++ be16 a ++ be16 f)) req = .ok) ∧
  (∀ (req : Request) (d : DataBuffer), (req.op = 0x05 ∨ req.op = 0x06) → parse (build req d) req = .ok)

/-- R169, R176: the 5-byte exception response of the request's slave, with any function code bits and any code `e`,
parses to EXCEPTION(e). -/
def Obligations.ExceptionResponseParsed : Prop :=
  ∀ (req : Request) (fc e : Byte),
    parse (appendCrc [req.slave, fc ||| (0x80 : Byte), e]) req = .exception e

/-! ## CRC16 -/

/-- 40_crc16.md R140, R142 to R145: a sequence with its CRC appended passes the check, a change of any one byte of it, so
every single-bit flip, is detected, and the CRC of a sequence with its CRC is 0. -/
def Obligations.CrcDetectsAnyByteChange : Prop :=
  (∀ s : List Byte, crcOk (appendCrc s) = true) ∧
  (∀ (s : List Byte) (k : Nat) (b : Byte), k < (appendCrc s).length → b ≠ byteAt (appendCrc s) k →
    crcOk ((appendCrc s).set k b) = false) ∧
    ∀ s : List Byte, crc16 (appendCrc s) = 0

/-- R145 with R174: whatever the request, Parse of a CRC-valid sequence with one byte changed is CRC_ERROR: it is not
accepted and not taken for an exception. This speaks of Parse on the whole changed sequence; which bytes a receive phase
hands to Parse is R170, R171 (FrameEndsAtExpectedLength), and a changed byte 1 or 2 may end it elsewhere. -/
def Obligations.CorruptedByteIsNeverAccepted : Prop :=
  ∀ (rx : List Byte) (req : Request) (k : Nat) (b : Byte), 5 ≤ rx.length → crcOk rx = true → k < rx.length →
    b ≠ byteAt rx k → parse (rx.set k b) req = .crcError

/-! ## Sequencer steps -/

/-- R245, R246: the write step of a running command: the line queue is flushed, the accepted prefix of the ADU goes
out, ATTEMPTS counts; a short write is FATAL with ERROR and DE deasserted; a full one waits for transmit-complete with
DE asserted on a port with direction-enable, and else listens at once. An answer of the transport above TXLEN stands for
TXLEN, the largest that R206 admits (log 9, DESIGN CHOICE). -/
def Obligations.WriteStepTransmits : Prop :=
  ∀ (s : State) (u : Port) (ch : Channel) (i : Instr), Running s u ch → i.isModbus = true →
    u.ps.seq = .sending → u.ps.txph = .start →
    ∃ (ch' : Channel) (ps' : PortState),
      exec i s = .next (s.putPort { u.putChan s.sel.chan ch' with ps := ps', env := { u.env with lineRx := [] } }) ∧
      ch' = { ch with attempts := ch'.attempts } ∧ ch'.attempts.toNat = min (ch.attempts.toNat + 1) 0xFFFF ∧
      (s.sel.accepted < u.ps.txlen →
        ps' = { u.ps with txlog := u.ps.txlog ++ [(u.ps.txbuf.take u.ps.txlen).take s.sel.accepted], de := false,
                          last := .error, seq := .fatal }) ∧
      (u.ps.txlen ≤ s.sel.accepted → u.cfg.dePresent = true →
        ps' = { u.ps with txlog := u.ps.txlog ++ [u.ps.txbuf.take u.ps.txlen], de := true, txph := .wait,
                          timer := 0 }) ∧
      (u.ps.txlen ≤ s.sel.accepted → u.cfg.dePresent = false →
        ps' = { u.ps with txlog := u.ps.txlog ++ [u.ps.txbuf.take u.ps.txlen], seq := .awaiting, rxlen := 0,
                          timer := 0, timedOut := false })

/-- R251: the byte read step: the head of the line queue is appended to the bytes received, and the receive phase ends
exactly when the frame is complete. (RXLEN within the written bytes is kept by StepKeepsInvariant.) -/
def Obligations.ByteReadStepReceives : Prop :=
  ∀ (s : State) (u : Port) (ch : Channel) (i : Instr) (b : Byte) (rest : List Byte), Running s u ch →
    i.isModbus = true → u.ps.seq = .awaiting → u.env.lineRx = b :: rest → u.ps.rxlen ≤ u.ps.rxbuf.length →
    ∃ ps' : PortState,
      exec i s = .next (s.putPort { u with ps := ps', env := { u.env with lineRx := rest } }) ∧
      ps'.rxbuf.take ps'.rxlen = u.ps.rxbuf.take u.ps.rxlen ++ [b] ∧ ps'.rxlen = u.ps.rxlen + 1 ∧
      ps'.rxbuf.drop ps'.rxlen = u.ps.rxbuf.drop ps'.rxlen ∧
      ps'.seq = (if frameComplete (u.ps.rxbuf.take u.ps.rxlen ++ [b]) u.ps.req.op u.cfg.rxBufCap = true
                 then .validating else .awaiting) ∧
      ps' = { u.ps with rxbuf := ps'.rxbuf, rxlen := ps'.rxlen, seq := ps'.seq }

/-- R253, R254: the validation step: OK leads to SUCCESS; an exception to FATAL with EXC and the mapped status, no
retry; a timeout without a byte and the two Parse errors to RETRYABLE while budget remains, else to FATAL. -/
def Obligations.ValidationStepClassifies : Prop :=
  ∀ (s : State) (u : Port) (ch : Channel) (i : Instr), Running s u ch → i.isModbus = true → u.ps.seq = .validating →
    ∃ (r : ParseResult) (failed : Status),
      r = parse (u.ps.rxbuf.take u.ps.rxlen) u.ps.req ∧
      (u.ps.timedOut = true ∧ u.ps.rxlen = 0 → failed = .timeout) ∧
      (¬ (u.ps.timedOut = true ∧ u.ps.rxlen = 0) → r = .crcError → failed = .crcError) ∧
      (¬ (u.ps.timedOut = true ∧ u.ps.rxlen = 0) → r = .unexpectedResponse → failed = .unexpectedResponse) ∧
      (¬ (u.ps.timedOut = true ∧ u.ps.rxlen = 0) → r = .ok →
        exec i s = .next (s.putPort { u with ps := { u.ps with seq := .success } })) ∧
      (∀ e, ¬ (u.ps.timedOut = true ∧ u.ps.rxlen = 0) → r = .exception e →
        exec i s = .next (s.putPort { u.putChan s.sel.chan { ch with exc := e } with
                                      ps := { u.ps with last := excStatus e, seq := .fatal } })) ∧
      ((u.ps.timedOut = true ∧ u.ps.rxlen = 0) ∨ r = .crcError ∨ r = .unexpectedResponse →
        exec i s = .next (s.putPort { u with
          ps := if 0 < u.ps.retriesLeft then { u.ps with last := failed, seq := .retryable, timer := 0 }
                else { u.ps with last := failed, seq := .fatal } }))

/-- R258: the retry step, once the backoff has passed, takes one from the budget and starts the next attempt, the lock
held; before that it is not enabled and nothing changes. -/
def Obligations.RetryStepAfterBackoff : Prop :=
  ∀ (s : State) (u : Port) (ch : Channel) (i : Instr), Running s u ch → i.isModbus = true → u.ps.seq = .retryable →
    (s.params.retryBackoffMs ≤ u.ps.timer →
      exec i s = .next (s.putPort { u with ps := { u.ps with retriesLeft := u.ps.retriesLeft - 1, seq := .sending,
                                                             txph := .start } })) ∧
    (u.ps.timer < s.params.retryBackoffMs → exec i s = .next (s.putPort u))

/-- R256, 60_exceptions.md R330: the FATAL step completes the command with LAST and releases the lock; DATA is not
written. -/
def Obligations.FatalStepReportsLastStatus : Prop :=
  ∀ (s : State) (u : Port) (ch : Channel) (i : Instr), Running s u ch → i.isModbus = true → u.ps.seq = .fatal →
    exec i s = .next (s.putPort
      { u.putChan s.sel.chan { ch with done := true, status := u.ps.last, phase := .free, wait := 0 } with
        ps := { u.ps with owner := none, seq := .idle, txph := .start, de := false, timer := 0, timedOut := false } })

/-- 44_function_commands.md R284, R285, R283, R255: READ_HOLDING_REGISTERS and READ_INPUT_REGISTERS complete: with an
accepted response in RXBUF, DATA[j] for `j` below the quantity is the big-endian pair `rx[3+2j], rx[4+2j]`, every other
word keeps its value, the status is OK and the lock is free. -/
def Obligations.RegisterReadCompletes : Prop :=
  ∀ (s : State) (u : Port) (ch : Channel) (i : Instr), Running s u ch → u.ps.seq = .success →
    (i = .rhr ∨ i = .rir) → u.ps.req.op = i.op → parse (u.ps.rxbuf.take u.ps.rxlen) u.ps.req = .ok →
    ∃ d : DataBuffer,
      exec i s = .next (s.putPort
        { u.putChan s.sel.chan { ch with data := d, done := true, status := .ok, phase := .free, wait := 0 } with
          ps := { u.ps with owner := none, seq := .idle, txph := .start, de := false, timer := 0, timedOut := false } }) ∧
      ∀ j : Fin 125,
        (j.val < u.ps.req.qty.toNat →
          (d[j]).extractLsb' 8 8 = byteAt (u.ps.rxbuf.take u.ps.rxlen) (3 + 2 * j.val) ∧
            (d[j]).extractLsb' 0 8 = byteAt (u.ps.rxbuf.take u.ps.rxlen) (4 + 2 * j.val)) ∧
        (u.ps.req.qty.toNat ≤ j.val → d[j] = ch.data[j])

/-- R288, R283, R255, 10_state.md R53: READ_COILS completes: byte `k` of the byte view is `rx[3+k]` for `k` below the
byte count and keeps its value beyond it, so coil `j` lands in bit `j & 15` of `DATA[j >> 4]`. -/
def Obligations.CoilReadCompletes : Prop :=
  ∀ (s : State) (u : Port) (ch : Channel), Running s u ch → u.ps.seq = .success → u.ps.req.op = 0x01 →
    parse (u.ps.rxbuf.take u.ps.rxlen) u.ps.req = .ok →
    ∃ d : DataBuffer,
      exec .rc s = .next (s.putPort
        { u.putChan s.sel.chan { ch with data := d, done := true, status := .ok, phase := .free, wait := 0 } with
          ps := { u.ps with owner := none, seq := .idle, txph := .start, de := false, timer := 0, timedOut := false } }) ∧
      (∀ k : Nat, k < 250 → dataByte d k =
        if k < (u.ps.req.qty.toNat + 7) / 8 then byteAt (u.ps.rxbuf.take u.ps.rxlen) (3 + k) else dataByte ch.data k) ∧
      (∀ j : Nat, ∀ h : j / 16 < 125, j < u.ps.req.qty.toNat →
        (d[j / 16]).getLsbD (j % 16) = (byteAt (u.ps.rxbuf.take u.ps.rxlen) (3 + j / 8)).getLsbD (j % 8))

/-- R286, R287, R289, R290, R283, R255: the four write commands complete with OK, the lock released, and no DATA word
written. -/
def Obligations.WriteCompletes : Prop :=
  ∀ (s : State) (u : Port) (ch : Channel) (i : Instr), Running s u ch → u.ps.seq = .success →
    (i = .wsc ∨ i = .wsr ∨ i = .wmc ∨ i = .wmr) → u.ps.req.op = i.op →
    exec i s = .next (s.putPort
      { u.putChan s.sel.chan { ch with done := true, status := .ok, phase := .free, wait := 0 } with
        ps := { u.ps with owner := none, seq := .idle, txph := .start, de := false, timer := 0, timedOut := false } })

/-- The frame of every command, over all its atomic steps (issue, grant, every sequencer step). The other ports, the
other channels of the port, the configuration and the host's side are unchanged. Of the channel in hand: SLAVE, ADDR and
QTY never change; CMD only in the issue step; CRCR only by CRC and CRCCHK; DATA only in the SUCCESS step of a read; EXC
only in the issue step and the validation; ATTEMPTS only in the issue step and the write step; STATUS and DONE only in
the issue step and on completion. Of the port: INIT only by INIT and DEINIT; TXLOG grows by the accepted prefix of the
ADU, in the write step; REQ and TXBUF change only in the grant step, RXBUF only in the byte read step; the line queue is
as before in the issue step and in the steps after the receive phase. -/
def Obligations.CommandFrame : Prop :=
  ∀ (s t : State) (u : Port) (ch : Channel) (i : Instr), InHand s u ch → exec i s = .next t →
    t.params = s.params ∧ t.pending = s.pending ∧ t.drawIndex = s.drawIndex ∧ t.hostIn = s.hostIn ∧ t.sel = s.sel ∧
    (∀ q : Nat, q ≠ s.sel.port → t.ports[q]? = s.ports[q]?) ∧
    ∃ u' ch', InHand t u' ch' ∧ u'.cfg = u.cfg ∧ u'.chans.length = u.chans.length ∧
      (∀ j : Nat, j ≠ s.sel.chan → u'.chans[j]? = u.chans[j]?) ∧
      ch'.slave = ch.slave ∧ ch'.addr = ch.addr ∧ ch'.qty = ch.qty ∧ (ch.phase ≠ .free → ch'.cmd = ch.cmd) ∧
      (i ≠ .crc → i ≠ .crcchk → ch'.crcr = ch.crcr) ∧
      (ch'.data ≠ ch.data → ch.phase = .active ∧ u.ps.seq = .success ∧
        (u.ps.req.op = 0x01 ∨ u.ps.req.op = 0x03 ∨ u.ps.req.op = 0x04)) ∧
      (ch'.exc ≠ ch.exc → ch.phase = .free ∨ (ch.phase = .active ∧ u.ps.seq = .validating)) ∧
      (ch'.attempts ≠ ch.attempts →
        ch.phase = .free ∨ (ch.phase = .active ∧ u.ps.seq = .sending ∧ u.ps.txph = .start)) ∧
      (ch'.done ≠ ch.done ∨ ch'.status ≠ ch.status → ch.phase = .free ∨ ch'.phase = .free) ∧
      (i ≠ .init → i ≠ .deinit → u'.ps.init = u.ps.init ∧ u'.env.configured = u.env.configured) ∧
      (u'.ps.txlog ≠ u.ps.txlog →
        ch.phase = .active ∧ u.ps.seq = .sending ∧ u.ps.txph = .start ∧
          u'.ps.txlog = u.ps.txlog ++ [(u.ps.txbuf.take u.ps.txlen).take (min s.sel.accepted u.ps.txlen)]) ∧
      (u'.ps.req ≠ u.ps.req ∨ u'.ps.txbuf ≠ u.ps.txbuf ∨ u'.ps.txlen ≠ u.ps.txlen → ch.phase = .waitLock) ∧
      (u'.ps.rxbuf ≠ u.ps.rxbuf → ch.phase = .active ∧ u.ps.seq = .awaiting) ∧
      (u'.env.lineRx ≠ u.env.lineRx →
        (ch.phase = .waitLock ∧ (i = .init ∨ i = .deinit)) ∨
          (ch.phase = .active ∧ (u.ps.seq = .sending ∨ u.ps.seq = .awaiting)))

/-! ## Time and the line -/

/-- R263, R238, R239: one tick of the channels: a waiting one counts, and completes with BUSY when its wait reaches
LOCK_WAIT_MS; every other channel is as before. -/
def Obligations.TickCountsLockWaits : Prop :=
  ∀ (s : State) (rest : List Action) (p c : Nat) (u : Port) (ch : Channel), NextIs s .tick rest →
    s.ports[p]? = some u → u.chans[c]? = some ch →
    ∃ t ch', step s = .next t ∧ t.chanAt p c = some ch' ∧ t.params = s.params ∧ t.pending = rest ∧
      t.ports.length = s.ports.length ∧
      (ch.phase ≠ .waitLock → ch' = ch) ∧
      (ch.phase = .waitLock → s.params.lockWaitMs = none → ch' = { ch with wait := ch.wait + 1 }) ∧
      (∀ n, ch.phase = .waitLock → s.params.lockWaitMs = some n → ch.wait + 1 < n →
        ch' = { ch with wait := ch.wait + 1 }) ∧
      (∀ n, ch.phase = .waitLock → s.params.lockWaitMs = some n → n ≤ ch.wait + 1 →
        ch' = { ch with done := true, status := .busy, phase := .free, wait := 0 })

/-- R263, R248, R252, R258: one tick of the port state, in every state of the invariant (so no channel that waits holds
the lock): in TX_WAIT it counts and at TXC_TIMEOUT_MS ends the transmission; in AWAITING it counts and at RESP_TIMEOUT_MS
ends the receive phase as timed out; in RETRYABLE it counts; in every other state nothing happens. -/
def Obligations.TickDrivesTimers : Prop :=
  ∀ (s : State) (rest : List Action) (p : Nat) (u : Port), Inv s → NextIs s .tick rest → s.ports[p]? = some u →
    ∃ t u', step s = .next t ∧ t.ports[p]? = some u' ∧ u'.cfg = u.cfg ∧ u'.env = u.env ∧
      (u.ps.seq = .sending → u.ps.txph = .wait →
        ((∀ n, s.params.txcTimeoutMs = some n → u.ps.timer + 1 < n) →
          u'.ps = { u.ps with timer := u.ps.timer + 1 }) ∧
        (∀ n, s.params.txcTimeoutMs = some n → n ≤ u.ps.timer + 1 →
          u'.ps = { u.ps with de := false, seq := .awaiting, rxlen := 0, timer := 0, timedOut := false })) ∧
      (u.ps.seq = .awaiting →
        (u.ps.timer + 1 < u.cfg.respTimeoutMs → u'.ps = { u.ps with timer := u.ps.timer + 1 }) ∧
        (u.cfg.respTimeoutMs ≤ u.ps.timer + 1 →
          u'.ps = { u.ps with timer := u.ps.timer + 1, timedOut := true, seq := .validating })) ∧
      (u.ps.seq = .retryable → u'.ps = { u.ps with timer := u.ps.timer + 1 }) ∧
      (u.ps.seq = .idle ∨ (u.ps.seq = .sending ∧ u.ps.txph = .start) ∨ u.ps.seq = .validating ∨ u.ps.seq = .success ∨
        u.ps.seq = .fatal → u'.ps = u.ps)

/-- 42_transport_port.md R208, R209, 43_transaction_engine.md R248: the line's events. Transmit-complete ends TX_WAIT on a
port with direction-enable: DE is deasserted and the port listens; elsewhere it is not enabled, and a step of it changes
nothing (that is log 4, DESIGN CHOICE: R209 says only that it is not enabled). A byte that arrives on an open port is
appended to the line queue; on a closed one it is lost. -/
def Obligations.LineEvents : Prop :=
  (∀ (s : State) (rest : List Action) (p : Nat) (u : Port), NextIs s (.txc p) rest → s.ports[p]? = some u →
    (u.ps.seq = .sending → u.ps.txph = .wait → u.cfg.dePresent = true →
      step s = .next (State.setPort { s with pending := rest } p
        { u with ps := { u.ps with de := false, seq := .awaiting, rxlen := 0, timer := 0, timedOut := false } })) ∧
    (¬ (u.ps.seq = .sending ∧ u.ps.txph = .wait ∧ u.cfg.dePresent = true) →
      step s = .next (State.setPort { s with pending := rest } p u))) ∧
  (∀ (s : State) (rest : List Action) (p : Nat) (b : Byte) (u : Port), NextIs s (.rx p b) rest →
    s.ports[p]? = some u →
    (u.ps.init = true →
      step s = .next (State.setPort { s with pending := rest } p
        { u with env := { u.env with lineRx := u.env.lineRx ++ [b] } })) ∧
    (u.ps.init = false → step s = .next (State.setPort { s with pending := rest } p u)))

/-! ## Reset and configuration -/

/-- 70_reset_and_hazards.md R360: the reset state under any configuration. -/
def Obligations.ResetValues : Prop :=
  ∀ c : Config, (State.resetWith c).params = c.params ∧ (State.resetWith c).ports.length = c.ports.length ∧
    ∀ (p : Nat) (u : Port), (State.resetWith c).ports[p]? = some u →
      c.ports[p]? = some u.cfg ∧ u.chans.length = c.params.numChannels ∧ u.env.lineRx = [] ∧
      u.ps.init = false ∧ u.ps.owner = none ∧ u.ps.seq = .idle ∧ u.ps.txph = .start ∧
      u.ps.req = { op := 0, slave := 0, addr := 0, qty := 0 } ∧ u.ps.txlen = 0 ∧ u.ps.rxlen = 0 ∧
      u.ps.retriesLeft = 0 ∧ u.ps.last.code = 0 ∧ u.ps.timer = 0 ∧ u.ps.timedOut = false ∧ u.ps.de = false ∧
      u.ps.txlog = [] ∧
      ∀ (j : Nat) (ch : Channel), u.chans[j]? = some ch →
        ch.cmd = 0 ∧ ch.csr = 0 ∧ ch.slave = 0 ∧ ch.addr = 0 ∧ ch.qty = 0 ∧ (∀ k : Fin 125, ch.data[k] = 0) ∧
        ch.exc = 0 ∧ ch.attempts = 0 ∧ ch.crcr = 0 ∧ ch.phase = .free ∧ ch.wait = 0 ∧ u.ps.psr j = 0

/-- 10_state.md R31, 92_eei_decisions.md section 2 (BUS_MAP): which configurations are legal; an illegal one has no
initial state. That a state under an illegal one makes no step is the model's own (log 11, DEDUCED), and so is that a
BUS_MAP entry may name a port or channel that does not exist (log 11, DESIGN CHOICE: the spec is silent). -/
def Obligations.IllegalConfigurationRefused : Prop :=
  (∀ c : Config, c.legal = true ↔
    (∀ f ∈ c.ports, (f.dataBits = 7 ∨ f.dataBits = 8) ∧ (f.stopBits = 1 ∨ f.stopBits = 2) ∧ 1 ≤ f.baud ∧
      1 ≤ f.respTimeoutMs ∧ 255 ≤ f.rxBufCap ∧ 255 ≤ f.txBufCap) ∧
    1 ≤ c.ports.length ∧ 1 ≤ c.params.numChannels ∧ (∀ n, c.params.lockWaitMs = some n → 1 ≤ n) ∧
    (∀ n, c.params.txcTimeoutMs = some n → 1 ≤ n) ∧ (c.params.busMap.map Prod.fst).Nodup ∧
    (c.params.busMap.map Prod.snd).Nodup) ∧
  (∀ c : Config, c.legal = false → State.initial c = none) ∧
  (∀ c : Config, c.legal = true → State.initial c = some (State.resetWith c)) ∧
  (∀ s : State, s.config.legal = false → step s = .refused .illegalConfiguration)

/-- 10_state.md R32: no step writes the configuration. -/
def Obligations.ConfigurationNeverWritten : Prop :=
  ∀ s t : State, step s = .next t → t.config = s.config

/-! ## The whole machine -/

/-- The invariant holds after reset under every configuration. -/
def Obligations.InvariantAfterReset : Prop := ∀ c : Config, Inv (State.resetWith c)

/-- Every step of every agent keeps the invariant: the lock, the sequencer state and the phases of the channels agree
(10_state.md R64), direction-enable is asserted only in TX_WAIT (60_exceptions.md R347), no counter passes its bound
(R344), the transmit buffer holds the ADU of the latched request throughout a transaction (43_transaction_engine.md
R242), and ATTEMPTS counts its write steps within the budget (R259). -/
def Obligations.StepKeepsInvariant : Prop := ∀ s t : State, Inv s → step s = .next t → Inv t

/-- 10_state.md R64: the invariants (a) to (e) hold in every state of the invariant, and R58: BUSY is 1 exactly when
PHASE is not FREE. 43_transaction_engine.md R259, first half: the lock's holder has made at most `MAX_RETRIES + 1` write
steps. -/
def Obligations.InvariantGivesR64 : Prop :=
  ∀ (s : State) (u : Port), Inv s → u ∈ s.ports → R64 u ∧
    (∀ ch ∈ u.chans, (ch.csr.getLsbD 0 = true ↔ ch.phase ≠ .free)) ∧
    ∀ (c : Nat) (ch : Channel), u.ps.owner = some c → u.chans[c]? = some ch →
      ch.attempts.toNat ≤ u.cfg.maxRetries + 1

/-- R264: ports are independent. A step other than a tick changes no port but the one it is a step of, and what a step, a
tick among them, makes of a port depends on that port alone: in two states that agree on port `p`, on the parameters and
on the step taken next, it ends in the same port `p`. -/
def Obligations.PortsAreIndependent : Prop :=
  (∀ s t : State, step s = .next t → s.nextAction ≠ .tick →
    t.ports.length = s.ports.length ∧
      ∀ q : Nat, touchedPort s.params s.nextAction ≠ some q → t.ports[q]? = s.ports[q]?) ∧
  ∀ (s s' t t' : State) (p : Nat), step s = .next t → step s' = .next t' → s'.nextAction = s.nextAction →
    s'.params = s.params → s'.ports[p]? = s.ports[p]? → t'.ports[p]? = t.ports[p]?

/-- 60_exceptions.md R349: bytes go to the transport and are taken from the line only while a channel holds the lock. A
step that adds to a port's TXLOG is the write step of the lock's holder and adds a prefix of its ADU. A step that takes a
byte from the line in AWAITING is the byte read of the lock's holder and takes the first; every other step that removes
bytes empties the queue: the flush of the holder's write step (42_transport_port.md R205), and INIT and DEINIT on a free
lock (R212, R214). In each the holder is the same before and after; the lock is left only by the completion of its
holder. -/
def Obligations.TransmitOnlyUnderLock : Prop :=
  ∀ (s t : State) (p : Nat) (u u' : Port), Inv s → step s = .next t → s.ports[p]? = some u → t.ports[p]? = some u' →
    (u'.ps.txlog ≠ u.ps.txlog →
      ∃ c n, u.ps.owner = some c ∧ u'.ps.owner = some c ∧ u.ps.seq = .sending ∧ u.ps.txph = .start ∧
        u'.ps.txlog = u.ps.txlog ++ [(u.ps.txbuf.take u.ps.txlen).take n]) ∧
    (u.ps.seq = .awaiting → ¬ u.env.lineRx <+: u'.env.lineRx →
      ∃ c b, u.ps.owner = some c ∧ u'.ps.owner = some c ∧ u.env.lineRx = b :: u'.env.lineRx) ∧
    (u.ps.seq ≠ .awaiting → ¬ u.env.lineRx <+: u'.env.lineRx →
      u'.env.lineRx = [] ∧ u'.ps.owner = u.ps.owner ∧
        ((∃ c, u.ps.owner = some c ∧ u.ps.seq = .sending ∧ u.ps.txph = .start) ∨ u.ps.owner = none)) ∧
    (∀ c, u.ps.owner = some c → u'.ps.owner ≠ some c →
      u'.ps.owner = none ∧ ∃ ch', u'.chans[c]? = some ch' ∧ ch'.phase = .free ∧ ch'.done = true)

/-- 42_transport_port.md R213: only an INIT that `open` answers with success sets `INIT` to 1. -/
def Obligations.OnlyInitOpensPort : Prop :=
  ∀ (s t : State) (p : Nat) (u u' : Port), step s = .next t → s.ports[p]? = some u → t.ports[p]? = some u' →
    u.ps.init = false → u'.ps.init = true →
    ∃ c ch, s.nextAction = .grant p c true ∧ u.chans[c]? = some ch ∧ decode ch.cmd = .command .init

/-- 60_exceptions.md R331: DONE stays 1 and STATUS keeps its value until the next CMD write to the channel. -/
def Obligations.StatusStaysUntilNextCommand : Prop :=
  ∀ (s t : State) (p c : Nat) (ch ch' : Channel), Inv s → step s = .next t → s.chanAt p c = some ch →
    t.chanAt p c = some ch' → ch.done = true →
    (∀ v, s.nextAction ≠ .hostWrite { port := p, chan := c, reg := 0 } v) →
    (∀ a v, s.nextAction = .busWrite a v → resolve s.params a ≠ some { port := p, chan := c, reg := 0 }) →
    ch'.done = true ∧ ch'.status = ch.status ∧ ch'.csr = ch.csr

/-- 43_transaction_engine.md R261: the lock is released on every exit path: a step that completes a command that held
the lock leaves the lock free and the sequencer IDLE. -/
def Obligations.CompletionReleasesLock : Prop :=
  ∀ (s t : State) (p c : Nat) (u u' : Port) (ch ch' : Channel), Inv s → step s = .next t →
    s.ports[p]? = some u → t.ports[p]? = some u' → u.chans[c]? = some ch → u'.chans[c]? = some ch' →
    ch.phase = .active → ch'.phase = .free →
    ch'.done = true ∧ u'.ps.owner = none ∧ u'.ps.seq = .idle ∧ u'.ps.de = false

/-- 70_reset_and_hazards.md R379: in a quiescent state every step but a host access changes nothing of the block but a
line queue of an initialised port. -/
def Obligations.QuiescentBlockIsStill : Prop :=
  ∀ s t : State, Inv s → Quiescent s → step s = .next t →
    (∀ r v, s.nextAction ≠ .hostWrite r v) → (∀ a v, s.nextAction ≠ .busWrite a v) →
    t.ports.length = s.ports.length ∧
    ∀ (p : Nat) (u u' : Port), s.ports[p]? = some u → t.ports[p]? = some u' →
      u'.cfg = u.cfg ∧ u'.ps = u.ps ∧ u'.chans = u.chans ∧ u'.env.configured = u.env.configured ∧
        (u'.env.lineRx ≠ u.env.lineRx → u.ps.init = true)

/-- 43_transaction_engine.md R254, R257: an exception response ends the transaction after this attempt, whatever the
retry budget: from the validation of it, two sequencer steps complete the command with the mapped status, the raw code
in EXC, ATTEMPTS as it stood, and the lock free. -/
def Obligations.ExceptionIsNotRetried : Prop :=
  ∀ (s : State) (p c : Nat) (u : Port) (ch : Channel) (e : Byte) (rest : List Action), Inv s →
    NextIs s (.sequencer p 0) (.sequencer p 0 :: rest) → s.ports[p]? = some u → u.ps.owner = some c →
    u.chans[c]? = some ch → u.ps.seq = .validating → 0 < u.ps.rxlen →
    parse (u.ps.rxbuf.take u.ps.rxlen) u.ps.req = .exception e →
    ∃ t u' ch', runsTo 2 s t ∧ t.ports[p]? = some u' ∧ u'.chans[c]? = some ch' ∧
      ch' = { ch with done := true, status := excStatus e, exc := e, phase := .free, wait := 0 } ∧
      u'.ps.owner = none ∧ u'.ps.seq = .idle ∧ u'.ps.txlog = u.ps.txlog

/-- R259, second half: a transaction that no byte ever answers makes exactly `MAX_RETRIES + 1` write steps of the same
ADU and completes with TIMEOUT: with the full backoff between the attempts, on a port without direction-enable, from the
start of the first attempt. -/
def Obligations.SilentSlaveEndsInTimeout : Prop :=
  ∀ (s : State) (p c : Nat) (u : Port) (ch : Channel), Inv s → s.config.legal = true → s.ports[p]? = some u →
    u.ps.owner = some c → u.chans[c]? = some ch → u.ps.seq = .sending → u.ps.txph = .start →
    u.ps.retriesLeft = u.cfg.maxRetries → u.cfg.dePresent = false →
    s.pending = silentTransaction p u.ps.txlen u.cfg.respTimeoutMs s.params.retryBackoffMs u.cfg.maxRetries →
    ∃ t u' ch', runsTo s.pending.length s t ∧ t.pending = [] ∧ t.ports[p]? = some u' ∧ u'.chans[c]? = some ch' ∧
      ch'.phase = .free ∧ ch'.done = true ∧ ch'.status = .timeout ∧ ch'.exc = 0 ∧ ch'.data = ch.data ∧
      ch'.attempts.toNat = min (u.cfg.maxRetries + 1) 0xFFFF ∧
      u'.ps.txlog = u.ps.txlog ++ List.replicate (u.cfg.maxRetries + 1) (build u.ps.req ch.data) ∧
      u'.ps.owner = none ∧ u'.ps.seq = .idle ∧ u'.ps.retriesLeft = 0

/-- R284, R282: a whole READ_HOLDING_REGISTERS, from the host's operand writes to its completion: on an initialised
idle port without direction-enable, answered by a response that carries the register values `vs`, it sends exactly the
request of the operands, once, and ends with CSR = 0x0002, `DATA[j] = vs[j]`, every other word kept, and the lock
free. -/
def Obligations.AnsweredRegisterRead : Prop :=
  ∀ (s : State) (p c : Nat) (u : Port) (ch : Channel) (sl a : Word) (vs : List Word), Inv s →
    s.config.legal = true → s.ports[p]? = some u → u.chans[c]? = some ch → ch.phase = .free → u.ps.owner = none →
    u.ps.init = true → u.cfg.dePresent = false → 1 ≤ sl.toNat → sl.toNat ≤ 247 → 1 ≤ vs.length → vs.length ≤ 125 →
    s.pending = programActions p c [.modbus .rhr sl a (BitVec.ofNat 16 vs.length)] ++
      answeredTransaction p c 8 (appendCrc ([sl.setWidth 8, 0x03, BitVec.ofNat 8 (2 * vs.length)] ++ vs.flatMap be16)) →
    ∃ t u' ch', runsTo s.pending.length s t ∧ t.pending = [] ∧ t.ports[p]? = some u' ∧ u'.chans[c]? = some ch' ∧
      ch'.csr = 0x0002 ∧ ch'.attempts = 1 ∧ ch'.exc = 0 ∧
      (∀ j : Fin 125, ch'.data[j] = (vs[j.val]?).getD ch.data[j]) ∧
      u'.ps.txlog = u.ps.txlog ++
        [appendCrc ([sl.setWidth 8, 0x03] ++ be16 a ++ be16 (BitVec.ofNat 16 vs.length))] ∧
      u'.ps.owner = none ∧ u'.ps.seq = .idle ∧ u'.env.lineRx = []

/-- 20_memory.md R91, 44_function_commands.md R283, 41_adu_codec.md R165: register words are sent and received in the
same order: what WRITE_MULTIPLE_REGISTERS sends of a buffer, taken as the payload of a register read, puts the same
words back; and coil bytes sent are coil bytes received. -/
def Obligations.PayloadOrderAgrees : Prop :=
  ∀ (d e : DataBuffer) (q : Nat), q ≤ 125 →
    (∀ j : Fin 125, (storeRegisters e q (dataWordsBe d q))[j] = if j.val < q then d[j] else e[j]) ∧
    (∀ n k : Nat, n ≤ 250 → k < 250 → dataByte (storeBytes e n (dataBytes d n)) k =
      if k < n then dataByte d k else dataByte e k)

/-- 70_reset_and_hazards.md R376, 60_exceptions.md R344: the bounds in ticks, in every run and under every schedule,
over any stretch of `k` steps. A command waits for the lock at most `LOCK_WAIT_MS` ticks; a port is in TX_WAIT at most
`TXC_TIMEOUT_MS` ticks an attempt, never without direction-enable, and in AWAITING at most `RESP_TIMEOUT_MS`; and a
transaction lasts at most R376's total of the ticks its timers count, which is every tick of a schedule that takes the
port's enabled internal steps before the next tick. (That the total is of these ticks is log 23, DEDUCED: a tick is
enabled at any time, R263, and one taken before an enabled internal step is counted by no timer.) -/
def Obligations.TicksWithinBounds : Prop :=
  ∀ (a : Nat → Action) (f : Nat → State), IsRun a f → Inv (f 0) →
    ∀ (n k p c : Nat) (u : Port), (f n).ports[p]? = some u →
      (∀ lockWait, (f n).params.lockWaitMs = some lockWait →
        (∀ j, j < k → (f (n + j)).phaseAt p c = some .waitLock) → ticksWhere a (fun _ => true) n k ≤ lockWait) ∧
      (u.ps.seq = .sending → u.ps.txph = .wait → u.cfg.dePresent = true) ∧
      (∀ txc, (f n).params.txcTimeoutMs = some txc →
        (∀ j, j < k → ∃ v, (f (n + j)).ports[p]? = some v ∧ v.ps.seq = .sending ∧ v.ps.txph = .wait) →
        ticksWhere a (fun _ => true) n k ≤ txc) ∧
      ((∀ j, j < k → ∃ v, (f (n + j)).ports[p]? = some v ∧ v.ps.seq = .awaiting) →
        ticksWhere a (fun _ => true) n k ≤ u.cfg.respTimeoutMs) ∧
      (∀ txc, (u.cfg.dePresent = false ∨ (f n).params.txcTimeoutMs = some txc) →
        (∀ j, j < k → (f (n + j)).phaseAt p c = some .active) →
        ticksWhere a (fun m => countsFor (f m) p c) n k ≤ transactionTicks (f n).params u.cfg txc ∧
        ((∀ j v, j < k → a (n + j) = .tick → (f (n + j)).ports[p]? = some v →
            ¬ sequencerEnabled (f (n + j)).params v) →
          ticksWhere a (fun _ => true) n k ≤ transactionTicks (f n).params u.cfg txc))

/-- 70_reset_and_hazards.md R378: under the spec's fairness, with the lock wait and the transmit-complete wait bounded,
every accepted command completes, whatever the schedule and the environment, and within the bounds of R376: a channel
that is BUSY at some point of a run stays BUSY up to a later point at which it is not BUSY and DONE, and the ticks counted
for its command up to there are at most `LOCK_WAIT_MS` and R376's bound for a transaction. (Which ticks count: log 23,
DEDUCED.) -/
def Obligations.EveryCommandCompletes : Prop :=
  ∀ (a : Nat → Action) (f : Nat → State) (lockWait txc : Nat), IsRun a f → Fair a f → Inv (f 0) →
    (f 0).params.lockWaitMs = some lockWait → (f 0).params.txcTimeoutMs = some txc →
    ∀ (n p c : Nat) (u : Port) (ch : Channel), (f n).ports[p]? = some u → u.chans[c]? = some ch → ch.phase ≠ .free →
      ∃ k ch', (∀ j, j < k → (f (n + j)).phaseAt p c ≠ some .free) ∧ (f (n + k)).chanAt p c = some ch' ∧
        ch'.phase = .free ∧ ch'.done = true ∧
        ticksWhere a (fun m => countsFor (f m) p c) n k ≤ lockWait + transactionTicks (f n).params u.cfg txc
end

