-- ==== Sys2Proof/Laws/State.lean ====
section
/-! SUPPORT. The fields of every update of the state, one lemma a field, so that no proof unfolds a record update. -/

namespace Sys2Proof.Machine

section
variable (s : State) (u : Port) (ps : PortState) (ch : Channel)

/-! ### State -/

@[simp] theorem setPort_params (p : Nat) : (s.setPort p u).params = s.params := rfl
@[simp] theorem setPort_ports (p : Nat) : (s.setPort p u).ports = s.ports.set p u := rfl
@[simp] theorem setPort_pending (p : Nat) : (s.setPort p u).pending = s.pending := rfl
@[simp] theorem setPort_drawIndex (p : Nat) : (s.setPort p u).drawIndex = s.drawIndex := rfl
@[simp] theorem setPort_sel (p : Nat) : (s.setPort p u).sel = s.sel := rfl
@[simp] theorem setPort_hostIn (p : Nat) : (s.setPort p u).hostIn = s.hostIn := rfl
@[simp] theorem select_params (p c : Nat) (o : Bool) (n : Nat) : (s.select p c o n).params = s.params := rfl
@[simp] theorem select_ports (p c : Nat) (o : Bool) (n : Nat) : (s.select p c o n).ports = s.ports := rfl
@[simp] theorem select_pending (p c : Nat) (o : Bool) (n : Nat) : (s.select p c o n).pending = s.pending := rfl
@[simp] theorem select_drawIndex (p c : Nat) (o : Bool) (n : Nat) : (s.select p c o n).drawIndex = s.drawIndex := rfl
@[simp] theorem select_sel (p c : Nat) (o : Bool) (n : Nat) : (s.select p c o n).sel = { port := p, chan := c, openOk := o, accepted := n } := rfl
@[simp] theorem select_hostIn (p c : Nat) (o : Bool) (n : Nat) : (s.select p c o n).hostIn = s.hostIn := rfl
@[simp] theorem putPort_params  : (s.putPort u).params = s.params := rfl
@[simp] theorem putPort_ports  : (s.putPort u).ports = s.ports.set s.sel.port u := rfl
@[simp] theorem putPort_pending  : (s.putPort u).pending = s.pending := rfl
@[simp] theorem putPort_drawIndex  : (s.putPort u).drawIndex = s.drawIndex := rfl
@[simp] theorem putPort_sel  : (s.putPort u).sel = s.sel := rfl
@[simp] theorem putPort_hostIn  : (s.putPort u).hostIn = s.hostIn := rfl
@[simp] theorem tickStep_params  : (tickStep s).params = s.params := rfl
@[simp] theorem tickStep_ports  : (tickStep s).ports = s.ports.map (tickPort s.params) := rfl
@[simp] theorem tickStep_pending  : (tickStep s).pending = s.pending := rfl
@[simp] theorem tickStep_drawIndex  : (tickStep s).drawIndex = s.drawIndex := rfl
@[simp] theorem tickStep_sel  : (tickStep s).sel = s.sel := rfl
@[simp] theorem tickStep_hostIn  : (tickStep s).hostIn = s.hostIn := rfl
@[simp] theorem withFetchWord_params (nbits w : Nat) : (s.withFetchWord nbits w).params = s.params := rfl
@[simp] theorem withFetchWord_ports (nbits w : Nat) : (s.withFetchWord nbits w).ports = s.ports := rfl
@[simp] theorem withFetchWord_pending (nbits w : Nat) : (s.withFetchWord nbits w).pending = commandWrite s nbits w :: s.pending := rfl
@[simp] theorem withFetchWord_drawIndex (nbits w : Nat) : (s.withFetchWord nbits w).drawIndex = s.drawIndex := rfl
@[simp] theorem withFetchWord_sel (nbits w : Nat) : (s.withFetchWord nbits w).sel = s.sel := rfl
@[simp] theorem withFetchWord_hostIn (nbits w : Nat) : (s.withFetchWord nbits w).hostIn = s.hostIn := rfl

/-! ### Port -/

@[simp] theorem modChan_cfg (c : Nat) (f : Channel → Channel) : (u.modChan c f).cfg = u.cfg := rfl
@[simp] theorem modChan_ps (c : Nat) (f : Channel → Channel) : (u.modChan c f).ps = u.ps := rfl
@[simp] theorem modChan_chans (c : Nat) (f : Channel → Channel) : (u.modChan c f).chans = u.chans.modify c f := rfl
@[simp] theorem modChan_env (c : Nat) (f : Channel → Channel) : (u.modChan c f).env = u.env := rfl
@[simp] theorem putChan_cfg (c : Nat) : (u.putChan c ch).cfg = u.cfg := rfl
@[simp] theorem putChan_ps (c : Nat) : (u.putChan c ch).ps = u.ps := rfl
@[simp] theorem putChan_chans (c : Nat) : (u.putChan c ch).chans = u.chans.set c ch := rfl
@[simp] theorem putChan_env (c : Nat) : (u.putChan c ch).env = u.env := rfl
@[simp] theorem modPs_cfg (f : PortState → PortState) : (u.modPs f).cfg = u.cfg := rfl
@[simp] theorem modPs_ps (f : PortState → PortState) : (u.modPs f).ps = f u.ps := rfl
@[simp] theorem modPs_chans (f : PortState → PortState) : (u.modPs f).chans = u.chans := rfl
@[simp] theorem modPs_env (f : PortState → PortState) : (u.modPs f).env = u.env := rfl
@[simp] theorem setLine_cfg (q : List Byte) : (u.setLine q).cfg = u.cfg := rfl
@[simp] theorem setLine_ps (q : List Byte) : (u.setLine q).ps = u.ps := rfl
@[simp] theorem setLine_chans (q : List Byte) : (u.setLine q).chans = u.chans := rfl
@[simp] theorem setLine_env (q : List Byte) : (u.setLine q).env = { u.env with lineRx := q } := rfl
@[simp] theorem complete_cfg (c : Nat) (st : Status) : (complete u c st).cfg = u.cfg := rfl
@[simp] theorem complete_ps (c : Nat) (st : Status) : (complete u c st).ps = if u.ps.owner = some c then releaseLock u.ps else u.ps := rfl
@[simp] theorem complete_chans (c : Nat) (st : Status) : (complete u c st).chans = u.chans.modify c (completeChannel st) := rfl
@[simp] theorem complete_env (c : Nat) (st : Status) : (complete u c st).env = u.env := rfl
@[simp] theorem acquireLock_cfg (c : Nat) : (acquireLock u c).cfg = u.cfg := rfl
@[simp] theorem acquireLock_ps (c : Nat) : (acquireLock u c).ps = { u.ps with owner := some c } := rfl
@[simp] theorem acquireLock_chans (c : Nat) : (acquireLock u c).chans = u.chans.modify c (fun ch => { ch with phase := .active }) := rfl
@[simp] theorem acquireLock_env (c : Nat) : (acquireLock u c).env = u.env := rfl
@[simp] theorem callConfigure_cfg  : (callConfigure u).cfg = u.cfg := rfl
@[simp] theorem callConfigure_ps  : (callConfigure u).ps = u.ps := rfl
@[simp] theorem callConfigure_chans  : (callConfigure u).chans = u.chans := rfl
@[simp] theorem callConfigure_env  : (callConfigure u).env = { u.env with configured := u.env.configured ++ [lineParams u.cfg] } := rfl
@[simp] theorem tickPort_cfg (prm : Params) : (tickPort prm u).cfg = u.cfg := rfl
@[simp] theorem tickPort_ps (prm : Params) : (tickPort prm u).ps = tickPs prm u.cfg u.ps := rfl
@[simp] theorem tickPort_chans (prm : Params) : (tickPort prm u).chans = u.chans.map (tickChannel prm) := rfl
@[simp] theorem tickPort_env (prm : Params) : (tickPort prm u).env = u.env := rfl

/-! ### Port state -/

@[simp] theorem releaseLock_init  : (releaseLock ps).init = ps.init := rfl
@[simp] theorem releaseLock_owner  : (releaseLock ps).owner = none := rfl
@[simp] theorem releaseLock_seq  : (releaseLock ps).seq = .idle := rfl
@[simp] theorem releaseLock_txph  : (releaseLock ps).txph = .start := rfl
@[simp] theorem releaseLock_req  : (releaseLock ps).req = ps.req := rfl
@[simp] theorem releaseLock_txbuf  : (releaseLock ps).txbuf = ps.txbuf := rfl
@[simp] theorem releaseLock_txlen  : (releaseLock ps).txlen = ps.txlen := rfl
@[simp] theorem releaseLock_rxbuf  : (releaseLock ps).rxbuf = ps.rxbuf := rfl
@[simp] theorem releaseLock_rxlen  : (releaseLock ps).rxlen = ps.rxlen := rfl
@[simp] theorem releaseLock_retriesLeft  : (releaseLock ps).retriesLeft = ps.retriesLeft := rfl
@[simp] theorem releaseLock_last  : (releaseLock ps).last = ps.last := rfl
@[simp] theorem releaseLock_timer  : (releaseLock ps).timer = 0 := rfl
@[simp] theorem releaseLock_timedOut  : (releaseLock ps).timedOut = false := rfl
@[simp] theorem releaseLock_de  : (releaseLock ps).de = false := rfl
@[simp] theorem releaseLock_txlog  : (releaseLock ps).txlog = ps.txlog := rfl
@[simp] theorem enterAwaiting_init  : (enterAwaiting ps).init = ps.init := rfl
@[simp] theorem enterAwaiting_owner  : (enterAwaiting ps).owner = ps.owner := rfl
@[simp] theorem enterAwaiting_seq  : (enterAwaiting ps).seq = .awaiting := rfl
@[simp] theorem enterAwaiting_txph  : (enterAwaiting ps).txph = ps.txph := rfl
@[simp] theorem enterAwaiting_req  : (enterAwaiting ps).req = ps.req := rfl
@[simp] theorem enterAwaiting_txbuf  : (enterAwaiting ps).txbuf = ps.txbuf := rfl
@[simp] theorem enterAwaiting_txlen  : (enterAwaiting ps).txlen = ps.txlen := rfl
@[simp] theorem enterAwaiting_rxbuf  : (enterAwaiting ps).rxbuf = ps.rxbuf := rfl
@[simp] theorem enterAwaiting_rxlen  : (enterAwaiting ps).rxlen = 0 := rfl
@[simp] theorem enterAwaiting_retriesLeft  : (enterAwaiting ps).retriesLeft = ps.retriesLeft := rfl
@[simp] theorem enterAwaiting_last  : (enterAwaiting ps).last = ps.last := rfl
@[simp] theorem enterAwaiting_timer  : (enterAwaiting ps).timer = 0 := rfl
@[simp] theorem enterAwaiting_timedOut  : (enterAwaiting ps).timedOut = false := rfl
@[simp] theorem enterAwaiting_de  : (enterAwaiting ps).de = ps.de := rfl
@[simp] theorem enterAwaiting_txlog  : (enterAwaiting ps).txlog = ps.txlog := rfl
@[simp] theorem enterRetryable_init  : (enterRetryable ps).init = ps.init := rfl
@[simp] theorem enterRetryable_owner  : (enterRetryable ps).owner = ps.owner := rfl
@[simp] theorem enterRetryable_seq  : (enterRetryable ps).seq = .retryable := rfl
@[simp] theorem enterRetryable_txph  : (enterRetryable ps).txph = ps.txph := rfl
@[simp] theorem enterRetryable_req  : (enterRetryable ps).req = ps.req := rfl
@[simp] theorem enterRetryable_txbuf  : (enterRetryable ps).txbuf = ps.txbuf := rfl
@[simp] theorem enterRetryable_txlen  : (enterRetryable ps).txlen = ps.txlen := rfl
@[simp] theorem enterRetryable_rxbuf  : (enterRetryable ps).rxbuf = ps.rxbuf := rfl
@[simp] theorem enterRetryable_rxlen  : (enterRetryable ps).rxlen = ps.rxlen := rfl
@[simp] theorem enterRetryable_retriesLeft  : (enterRetryable ps).retriesLeft = ps.retriesLeft := rfl
@[simp] theorem enterRetryable_last  : (enterRetryable ps).last = ps.last := rfl
@[simp] theorem enterRetryable_timer  : (enterRetryable ps).timer = 0 := rfl
@[simp] theorem enterRetryable_timedOut  : (enterRetryable ps).timedOut = ps.timedOut := rfl
@[simp] theorem enterRetryable_de  : (enterRetryable ps).de = ps.de := rfl
@[simp] theorem enterRetryable_txlog  : (enterRetryable ps).txlog = ps.txlog := rfl
@[simp] theorem endTransmit_init  : (endTransmit ps).init = ps.init := rfl
@[simp] theorem endTransmit_owner  : (endTransmit ps).owner = ps.owner := rfl
@[simp] theorem endTransmit_seq  : (endTransmit ps).seq = .awaiting := rfl
@[simp] theorem endTransmit_txph  : (endTransmit ps).txph = ps.txph := rfl
@[simp] theorem endTransmit_req  : (endTransmit ps).req = ps.req := rfl
@[simp] theorem endTransmit_txbuf  : (endTransmit ps).txbuf = ps.txbuf := rfl
@[simp] theorem endTransmit_txlen  : (endTransmit ps).txlen = ps.txlen := rfl
@[simp] theorem endTransmit_rxbuf  : (endTransmit ps).rxbuf = ps.rxbuf := rfl
@[simp] theorem endTransmit_rxlen  : (endTransmit ps).rxlen = 0 := rfl
@[simp] theorem endTransmit_retriesLeft  : (endTransmit ps).retriesLeft = ps.retriesLeft := rfl
@[simp] theorem endTransmit_last  : (endTransmit ps).last = ps.last := rfl
@[simp] theorem endTransmit_timer  : (endTransmit ps).timer = 0 := rfl
@[simp] theorem endTransmit_timedOut  : (endTransmit ps).timedOut = false := rfl
@[simp] theorem endTransmit_de  : (endTransmit ps).de = false := rfl
@[simp] theorem endTransmit_txlog  : (endTransmit ps).txlog = ps.txlog := rfl

/-! ### Channel -/

@[simp] theorem completeChannel_cmd (st : Status) : (completeChannel st ch).cmd = ch.cmd := rfl
@[simp] theorem completeChannel_done (st : Status) : (completeChannel st ch).done = true := rfl
@[simp] theorem completeChannel_status (st : Status) : (completeChannel st ch).status = st := rfl
@[simp] theorem completeChannel_slave (st : Status) : (completeChannel st ch).slave = ch.slave := rfl
@[simp] theorem completeChannel_addr (st : Status) : (completeChannel st ch).addr = ch.addr := rfl
@[simp] theorem completeChannel_qty (st : Status) : (completeChannel st ch).qty = ch.qty := rfl
@[simp] theorem completeChannel_data (st : Status) : (completeChannel st ch).data = ch.data := rfl
@[simp] theorem completeChannel_exc (st : Status) : (completeChannel st ch).exc = ch.exc := rfl
@[simp] theorem completeChannel_attempts (st : Status) : (completeChannel st ch).attempts = ch.attempts := rfl
@[simp] theorem completeChannel_crcr (st : Status) : (completeChannel st ch).crcr = ch.crcr := rfl
@[simp] theorem completeChannel_phase (st : Status) : (completeChannel st ch).phase = .free := rfl
@[simp] theorem completeChannel_wait (st : Status) : (completeChannel st ch).wait = 0 := rfl
@[simp] theorem acceptCommand_cmd (w : Word) : (acceptCommand w ch).cmd = w := rfl
@[simp] theorem acceptCommand_done (w : Word) : (acceptCommand w ch).done = false := rfl
@[simp] theorem acceptCommand_status (w : Word) : (acceptCommand w ch).status = .ok := rfl
@[simp] theorem acceptCommand_slave (w : Word) : (acceptCommand w ch).slave = ch.slave := rfl
@[simp] theorem acceptCommand_addr (w : Word) : (acceptCommand w ch).addr = ch.addr := rfl
@[simp] theorem acceptCommand_qty (w : Word) : (acceptCommand w ch).qty = ch.qty := rfl
@[simp] theorem acceptCommand_data (w : Word) : (acceptCommand w ch).data = ch.data := rfl
@[simp] theorem acceptCommand_exc (w : Word) : (acceptCommand w ch).exc = 0 := rfl
@[simp] theorem acceptCommand_attempts (w : Word) : (acceptCommand w ch).attempts = 0 := rfl
@[simp] theorem acceptCommand_crcr (w : Word) : (acceptCommand w ch).crcr = ch.crcr := rfl
@[simp] theorem acceptCommand_phase (w : Word) : (acceptCommand w ch).phase = ch.phase := rfl
@[simp] theorem acceptCommand_wait (w : Word) : (acceptCommand w ch).wait = ch.wait := rfl
@[simp] theorem enterWaitLock_cmd (w : Word) : (enterWaitLock w ch).cmd = w := rfl
@[simp] theorem enterWaitLock_done (w : Word) : (enterWaitLock w ch).done = false := rfl
@[simp] theorem enterWaitLock_status (w : Word) : (enterWaitLock w ch).status = .ok := rfl
@[simp] theorem enterWaitLock_slave (w : Word) : (enterWaitLock w ch).slave = ch.slave := rfl
@[simp] theorem enterWaitLock_addr (w : Word) : (enterWaitLock w ch).addr = ch.addr := rfl
@[simp] theorem enterWaitLock_qty (w : Word) : (enterWaitLock w ch).qty = ch.qty := rfl
@[simp] theorem enterWaitLock_data (w : Word) : (enterWaitLock w ch).data = ch.data := rfl
@[simp] theorem enterWaitLock_exc (w : Word) : (enterWaitLock w ch).exc = 0 := rfl
@[simp] theorem enterWaitLock_attempts (w : Word) : (enterWaitLock w ch).attempts = 0 := rfl
@[simp] theorem enterWaitLock_crcr (w : Word) : (enterWaitLock w ch).crcr = ch.crcr := rfl
@[simp] theorem enterWaitLock_phase (w : Word) : (enterWaitLock w ch).phase = .waitLock := rfl
@[simp] theorem enterWaitLock_wait (w : Word) : (enterWaitLock w ch).wait = 0 := rfl
@[simp] theorem countAttempt_cmd  : (countAttempt ch).cmd = ch.cmd := rfl
@[simp] theorem countAttempt_done  : (countAttempt ch).done = ch.done := rfl
@[simp] theorem countAttempt_status  : (countAttempt ch).status = ch.status := rfl
@[simp] theorem countAttempt_slave  : (countAttempt ch).slave = ch.slave := rfl
@[simp] theorem countAttempt_addr  : (countAttempt ch).addr = ch.addr := rfl
@[simp] theorem countAttempt_qty  : (countAttempt ch).qty = ch.qty := rfl
@[simp] theorem countAttempt_data  : (countAttempt ch).data = ch.data := rfl
@[simp] theorem countAttempt_exc  : (countAttempt ch).exc = ch.exc := rfl
@[simp] theorem countAttempt_attempts  : (countAttempt ch).attempts = if ch.attempts = 0xFFFF then 0xFFFF else ch.attempts + 1 := rfl
@[simp] theorem countAttempt_crcr  : (countAttempt ch).crcr = ch.crcr := rfl
@[simp] theorem countAttempt_phase  : (countAttempt ch).phase = ch.phase := rfl
@[simp] theorem countAttempt_wait  : (countAttempt ch).wait = ch.wait := rfl

end

end Sys2Proof.Machine
end

