-- ==== Sys2Proof/Laws/Bytes.lean ====
section
/-! SUPPORT. Byte order and byte sequences: the halves of a word, buffers, and the lengths of what the codec builds. -/

namespace Sys2Proof.Machine

@[simp] theorem hi8_join16 (h l : Byte) : hi8 (join16 h l) = h := by
  unfold hi8 join16
  ext i hi
  have h1 : ¬ (8 + i < 8) := by omega
  have h2 : 8 + i < 16 := by omega
  simp [BitVec.getElem_extractLsb', hi, h1, h2]

@[simp] theorem lo8_join16 (h l : Byte) : lo8 (join16 h l) = l := by
  unfold lo8 join16
  ext i hi
  have h2 : i < 16 := by omega
  simp [BitVec.getElem_extractLsb', hi, h2]

@[simp] theorem join16_hi8_lo8 (v : Word) : join16 (hi8 v) (lo8 v) = v := by
  unfold hi8 lo8 join16
  ext i hi
  by_cases h : i < 8
  · simp [h, hi]
  · have h2 : 8 + (i - 8) = i := by omega
    have h3 : i - 8 < 8 := by omega
    simp [h, hi, h2, h3]

/-- A word is its two halves. -/
theorem word_ext_halves {v w : Word} (hh : hi8 v = hi8 w) (hl : lo8 v = lo8 w) : v = w := by
  rw [← join16_hi8_lo8 v, hh, hl, join16_hi8_lo8]

@[simp] theorem be16_length (v : Word) : (be16 v).length = 2 := rfl

@[simp] theorem le16_length (v : Word) : (le16 v).length = 2 := rfl

@[simp] theorem appendCrc_length (s : List Byte) : (appendCrc s).length = s.length + 2 := by simp [appendCrc]

@[simp] theorem dataBytes_length (d : DataBuffer) (n : Nat) : (dataBytes d n).length = n := by simp [dataBytes]

@[simp] theorem dataWordsBe_length (d : DataBuffer) (n : Nat) : (dataWordsBe d n).length = 2 * n := by
  simp [dataWordsBe]; omega

theorem bufWrite_length (buf a : List Byte) (k : Nat) (hk : k ≤ buf.length) :
    (bufWrite buf k a).length = max buf.length (k + a.length) := by
  simp [bufWrite]; omega

/-- After a write at or below the end of the written bytes, the buffer up to the end of the write is what stood below
the write followed by what was written. -/
theorem take_bufWrite (buf a : List Byte) (k : Nat) (hk : k ≤ buf.length) :
    (bufWrite buf k a).take (k + a.length) = buf.take k ++ a := by
  have h : (buf.take k ++ a).length = k + a.length := by simp; omega
  rw [bufWrite, ← h, List.take_left']
  rfl

theorem byteAt_append_left (s t : List Byte) (i : Nat) (h : i < s.length) : byteAt (s ++ t) i = byteAt s i := by
  simp [byteAt, List.getElem?_append_left h]

theorem byteAt_append_right (s t : List Byte) (i : Nat) (h : s.length ≤ i) :
    byteAt (s ++ t) i = byteAt t (i - s.length) := by
  simp [byteAt, List.getElem?_append_right h]

end Sys2Proof.Machine
end

