-- ==== Sys2Proof/Laws/Ops.lean ====
section
/-! SUPPORT. What each shared operation can do, said once: the command in hand, the change of one channel or one port,
`complete`, and one step of a command (`exec`). -/

namespace Sys2Proof.Machine

/-! ### One channel, one port -/

theorem modify_eq_set {l : List α} {c : Nat} {x : α} (h : l[c]? = some x) (f : α → α) :
    l.modify c f = l.set c (f x) := by
  apply List.ext_getElem?
  intro j
  rw [List.getElem?_modify, List.getElem?_set]
  by_cases hj : c = j
  · subst hj
    obtain ⟨hlt, rfl⟩ := List.getElem?_eq_some_iff.mp h
    simp [hlt]
  · simp [hj]

/-- Changing channel `c`, whose record is `ch`, puts the changed record in its place. -/
theorem modChan_eq_putChan {u : Port} {c : Nat} {ch : Channel} (h : u.chans[c]? = some ch) (f : Channel → Channel) :
    u.modChan c f = u.putChan c (f ch) := by
  simp only [Port.modChan, Port.putChan, modify_eq_set h]

theorem putChan_get {u : Port} {c : Nat} {ch : Channel} (h : u.chans[c]? = some ch) (ch' : Channel) :
    (u.putChan c ch').chans[c]? = some ch' := by
  have hlt : c < u.chans.length := (List.getElem?_eq_some_iff.mp h).1
  simp [hlt]

theorem putChan_get_other {u : Port} {c j : Nat} (hj : c ≠ j) (ch' : Channel) :
    (u.putChan c ch').chans[j]? = u.chans[j]? := by simp [hj]

@[simp] theorem putChan_putChan (u : Port) (c : Nat) (a b : Channel) : (u.putChan c a).putChan c b = u.putChan c b := by
  simp [Port.putChan]

theorem setPort_get {s : State} {p : Nat} {u : Port} (h : s.ports[p]? = some u) (u' : Port) :
    (s.setPort p u').ports[p]? = some u' := by
  have hlt : p < s.ports.length := (List.getElem?_eq_some_iff.mp h).1
  simp [hlt]

theorem setPort_get_other {s : State} {p q : Nat} (hq : p ≠ q) (u' : Port) :
    (s.setPort p u').ports[q]? = s.ports[q]? := by simp [hq]

/-! ### Completion -/

/-- A command that does not hold the lock leaves the port state alone when it completes (60_exceptions.md R330). -/
theorem complete_not_owner {u : Port} {c : Nat} {ch : Channel} (h : u.chans[c]? = some ch)
    (ho : u.ps.owner ≠ some c) (st : Status) : complete u c st = u.putChan c (completeChannel st ch) := by
  simp only [complete, Port.putChan, modify_eq_set h, if_neg ho]

/-- A command that holds the lock releases it when it completes (R330). -/
theorem complete_owner {u : Port} {c : Nat} {ch : Channel} (h : u.chans[c]? = some ch)
    (ho : u.ps.owner = some c) (st : Status) :
    complete u c st = (u.putChan c (completeChannel st ch)).modPs releaseLock := by
  simp only [complete, Port.putChan, Port.modPs, modify_eq_set h, if_pos ho]

/-! ### One step of a command -/

/-- A step of a command on an existing channel answers a next state: its port replaced. -/
theorem onSelected_inHand {s : State} {u : Port} {ch : Channel} (h : InHand s u ch) (f : Port → Channel → Port) :
    onSelected s f = .next (s.putPort (f u ch)) := by
  simp only [onSelected, h.1, h.2, State.putPort]

theorem onSelected_next {s t : State} {f : Port → Channel → Port} (h : onSelected s f = .next t) :
    ∃ u ch, InHand s u ch ∧ t = s.putPort (f u ch) := by
  unfold onSelected at h
  split at h
  · cases h
  · rename_i u hu
    split at h
    · cases h
    · rename_i ch hch
      cases h
      exact ⟨u, ch, ⟨hu, hch⟩, rfl⟩

/-- What the issue step of command `i` does to the port (43_transaction_engine.md R231). -/
def issueEffect (i : Instr) (u : Port) (c : Nat) (ch : Channel) : Port :=
  match i with
  | .rc | .rhr | .rir | .wsc | .wsr | .wmc | .wmr => issueModbus i u c ch
  | .init | .deinit => u.modChan c (enterWaitLock (encode i))
  | .crc => issueCrc u c ch
  | .crcchk => issueCrcchk u c ch

/-- What the lock-grant step of command `i` does to the port (R240). -/
def grantEffect (i : Instr) (openOk : Bool) (u : Port) (c : Nat) (ch : Channel) : Port :=
  match i with
  | .rc | .rhr | .rir | .wsc | .wsr | .wmc | .wmr => grantModbus u c ch
  | .init => grantInit openOk u c
  | .deinit => grantDeinit u c
  | .crc | .crcchk => u

/-- What one step of command `i` on the channel in hand does to its port. -/
def portEffect (i : Instr) (prm : Params) (sel : Selection) (u : Port) (ch : Channel) : Port :=
  match ch.phase with
  | .free => issueEffect i u sel.chan ch
  | .waitLock => if u.ps.owner = none then grantEffect i sel.openOk u sel.chan ch else u
  | .active =>
    if i.isModbus = true ∧ u.ps.owner = some sel.chan then sequencerStep prm sel.accepted u sel.chan else u

/-- `exec` is `portEffect` applied to the channel in hand, for every command. -/
theorem exec_eq (i : Instr) (s : State) : exec i s = onSelected s (portEffect i s.params s.sel) := by
  have hf : ∀ f g : Port → Channel → Port, (∀ u ch, f u ch = g u ch) → onSelected s f = onSelected s g := by
    intro f g h
    have : f = g := by funext u ch; exact h u ch
    rw [this]
  cases i <;>
    exact hf _ _ (fun u ch => by cases hp : ch.phase <;> simp [portEffect, issueEffect, grantEffect, Instr.isModbus, hp])

theorem exec_inHand {s : State} {u : Port} {ch : Channel} (i : Instr) (h : InHand s u ch) :
    exec i s = .next (s.putPort (portEffect i s.params s.sel u ch)) := by
  rw [exec_eq, onSelected_inHand h]

/-- If a step of a command answers a next state, it changed the port in hand, by `portEffect`, and nothing else. -/
theorem exec_next {i : Instr} {s t : State} (h : exec i s = .next t) :
    ∃ u ch, InHand s u ch ∧ t = s.putPort (portEffect i s.params s.sel u ch) := by
  rw [exec_eq] at h
  exact onSelected_next h

end Sys2Proof.Machine
end

