-- ==== Sys2Proof/Laws/Codec.lean ====
section
/-! SUPPORT. What the decoder and the codec answer, one lemma a case. -/

namespace Sys2Proof.Machine

theorem decode_encode (i : Instr) : decode (encode i) = .command i := by cases i <;> decide

/-- A word that decodes to a command has RSVD = 0 and that command's OP. -/
theorem decode_command {w : Word} {i : Instr} (h : decode w = .command i) :
    hi8 w = 0 ∧ commandOf (lo8 w) = some i := by
  unfold decode at h
  split at h
  · cases h
  · split at h
    · cases h; exact ⟨by simpa using ‹¬ hi8 w ≠ 0›, ‹_›⟩
    · cases h

theorem commandOf_op (i : Instr) : commandOf i.op = some i := by cases i <;> decide

theorem op_of_commandOf {op : Byte} {i : Instr} (h : commandOf op = some i) : op = i.op := by
  unfold commandOf at h
  by_cases h1 : op = 0x01
  · rw [if_pos h1] at h; cases h; exact h1
  rw [if_neg h1] at h
  by_cases h2 : op = 0x03
  · rw [if_pos h2] at h; cases h; exact h2
  rw [if_neg h2] at h
  by_cases h3 : op = 0x04
  · rw [if_pos h3] at h; cases h; exact h3
  rw [if_neg h3] at h
  by_cases h4 : op = 0x05
  · rw [if_pos h4] at h; cases h; exact h4
  rw [if_neg h4] at h
  by_cases h5 : op = 0x06
  · rw [if_pos h5] at h; cases h; exact h5
  rw [if_neg h5] at h
  by_cases h6 : op = 0x0F
  · rw [if_pos h6] at h; cases h; exact h6
  rw [if_neg h6] at h
  by_cases h7 : op = 0x10
  · rw [if_pos h7] at h; cases h; exact h7
  rw [if_neg h7] at h
  by_cases h8 : op = 0xF0
  · rw [if_pos h8] at h; cases h; exact h8
  rw [if_neg h8] at h
  by_cases h9 : op = 0xF1
  · rw [if_pos h9] at h; cases h; exact h9
  rw [if_neg h9] at h
  by_cases h10 : op = 0xF2
  · rw [if_pos h10] at h; cases h; exact h10
  rw [if_neg h10] at h
  by_cases h11 : op = 0xF3
  · rw [if_pos h11] at h; cases h; exact h11
  rw [if_neg h11] at h
  cases h

/-! ### Build -/

theorem requestBody_read {req : Request} (d : DataBuffer) (h : isRead req.op = true) :
    requestBody req d = be16 req.addr ++ be16 req.qty := by
  simp only [requestBody, h, if_true]

theorem requestBody_wsc {req : Request} (d : DataBuffer) (h : req.op = 0x05) :
    requestBody req d = be16 req.addr ++ be16 (coilValue req.qty) := by
  unfold requestBody; rw [h]; rfl

theorem requestBody_wsr {req : Request} (d : DataBuffer) (h : req.op = 0x06) :
    requestBody req d = be16 req.addr ++ be16 req.qty := by
  unfold requestBody; rw [h]; rfl

theorem requestBody_wmc {req : Request} (d : DataBuffer) (h : req.op = 0x0F) :
    requestBody req d = be16 req.addr ++ be16 req.qty ++ [BitVec.ofNat 8 (ceilDiv req.qty.toNat 8)] ++
      dataBytes d (ceilDiv req.qty.toNat 8) := by
  unfold requestBody; rw [h]; rfl

theorem requestBody_wmr {req : Request} (d : DataBuffer) (h : req.op = 0x10) :
    requestBody req d = be16 req.addr ++ be16 req.qty ++ [BitVec.ofNat 8 (2 * req.qty.toNat)] ++
      dataWordsBe d req.qty.toNat := by
  unfold requestBody; rw [h]; rfl

theorem build_length (req : Request) (d : DataBuffer) : (build req d).length = (requestBody req d).length + 4 := by
  simp [build]

/-! ### Receive -/

theorem readBytePs_frame (cap : Nat) (b : Byte) (ps : PortState) (h : ps.rxlen ≤ ps.rxbuf.length) :
    rxFrame (readBytePs cap b ps) = rxFrame ps ++ [b] := by
  have hb : (bufWrite ps.rxbuf ps.rxlen [b]).take (ps.rxlen + 1) = ps.rxbuf.take ps.rxlen ++ [b] := by
    simpa using take_bufWrite ps.rxbuf [b] ps.rxlen h
  unfold readBytePs
  dsimp only
  split <;> simpa [rxFrame] using hb

theorem rxFrame_length {ps : PortState} (h : ps.rxlen ≤ ps.rxbuf.length) : (rxFrame ps).length = ps.rxlen := by
  simp [rxFrame, h]

/-- A frame that is complete below the cap has its expected length (41_adu_codec.md R171). -/
theorem frameComplete_eq (rx : List Byte) (op : Byte) (cap : Nat) :
    frameComplete rx op cap = true ↔ rx.length = cap ∨ ∃ n, expectedLen rx op = some n ∧ n ≤ rx.length := by
  unfold frameComplete
  cases expectedLen rx op <;> simp

end Sys2Proof.Machine
end

