-- ==== Sys2Proof/Laws/InvCheck.lean ====
section
/-! SUPPORT. The invariant as a check that can be evaluated on one concrete state, for the witnesses of the tests. -/

namespace Sys2Proof.Machine

/-- `ChannelInv`, evaluated. -/
def channelCheck (prm : Params) (ch : Channel) : Bool :=
  match ch.phase with
  | .free => ch.wait == 0
  | .active => !ch.done && ch.status == .ok
  | .waitLock =>
    !ch.done && ch.status == .ok && !reached prm.lockWaitMs ch.wait && ch.attempts == 0 && ch.exc == 0 &&
      (match decode ch.cmd with
        | .command i => i != .crc && i != .crcchk && argsOk i ch
        | .illegal _ => false)

/-- `TransactionInv`, evaluated. -/
def transactionCheck (u : Port) (ch : Channel) : Bool :=
  (match decode ch.cmd with
    | .command i => i.isModbus && argsOk i ch
    | .illegal _ => false) &&
  u.ps.req == latchRequest ch && txFrame u.ps == build u.ps.req ch.data && decide (u.ps.retriesLeft ≤ u.cfg.maxRetries) &&
  ch.attempts.toNat ==
    min (u.cfg.maxRetries - u.ps.retriesLeft + (if u.ps.seq = .sending ∧ u.ps.txph = .start then 0 else 1)) 0xFFFF &&
  (u.ps.seq == .fatal || ch.exc == 0)

/-- What the sequencer state says of the rest of the port state, evaluated. -/
def sequencerCheck (prm : Params) (u : Port) : Bool :=
  match u.ps.seq with
  | .idle => u.ps.owner == none && !u.ps.de
  | .sending =>
    u.ps.owner != none && u.ps.init &&
      (match u.ps.txph with
        | .start => !u.ps.de
        | .wait => u.cfg.dePresent && u.ps.de && !reached prm.txcTimeoutMs u.ps.timer)
  | .awaiting =>
    u.ps.owner != none && u.ps.init && !u.ps.de && decide (u.ps.rxlen < u.cfg.rxBufCap) && !u.ps.timedOut &&
      decide (u.ps.timer < u.cfg.respTimeoutMs)
  | .validating =>
    u.ps.owner != none && u.ps.init && !u.ps.de &&
      (u.ps.timedOut || frameComplete (rxFrame u.ps) u.ps.req.op u.cfg.rxBufCap)
  | .success => u.ps.owner != none && u.ps.init && !u.ps.de && parse (rxFrame u.ps) u.ps.req == .ok
  | .retryable =>
    u.ps.owner != none && u.ps.init && !u.ps.de && decide (0 < u.ps.retriesLeft) && u.ps.last.retried
  | .fatal => u.ps.owner != none && u.ps.init && !u.ps.de && u.ps.last != .ok && u.ps.last != .busy

/-- The lock agrees with the phases of the channels, evaluated; the owner's transaction is checked as well. -/
def ownerCheck (u : Port) : Bool :=
  (match u.ps.owner with
    | none => true
    | some c => decide (c < u.chans.length)) &&
  (List.range u.chans.length).all fun c =>
    match u.chans[c]? with
    | none => true
    | some ch =>
      decide (ch.phase = .active) == decide (u.ps.owner = some c) && (u.ps.owner != some c || transactionCheck u ch)

/-- `PortInv`, evaluated. -/
def portCheck (prm : Params) (u : Port) : Bool :=
  u.chans.length == prm.numChannels && u.chans.all (channelCheck prm) && ownerCheck u && sequencerCheck prm u &&
    (u.ps.init || u.env.lineRx == []) && decide (u.ps.rxlen ≤ u.ps.rxbuf.length) &&
    decide (u.ps.rxbuf.length ≤ u.cfg.rxBufCap) && decide (u.ps.txlen ≤ u.ps.txbuf.length) &&
    decide (u.ps.txbuf.length ≤ u.cfg.txBufCap)

theorem channelInv_of_check {prm : Params} {ch : Channel} (h : channelCheck prm ch = true) : ChannelInv prm ch := by
  unfold channelCheck at h
  cases hp : ch.phase with
  | free =>
    rw [hp] at h
    exact ⟨by simp [hp], by simp [hp], by simp [hp], by simp [hp], fun _ => by simpa using h⟩
  | active =>
    rw [hp] at h
    exact ⟨fun _ => by simpa using h, by simp [hp], by simp [hp], by simp [hp], by simp [hp]⟩
  | waitLock =>
    rw [hp] at h
    simp only [Bool.and_eq_true] at h
    obtain ⟨⟨⟨⟨⟨h1, h2⟩, h3⟩, h4⟩, h5⟩, h6⟩ := h
    refine ⟨fun _ => by simpa using And.intro h1 h2, fun _ => ?_, fun _ => by simpa using h3,
      fun _ => by simpa using And.intro h4 h5, by simp [hp]⟩
    cases hd : decode ch.cmd with
    | illegal w => simp [hd] at h6
    | command i => exact ⟨i, rfl, by simpa [hd, and_assoc] using h6⟩

theorem transactionInv_of_check {u : Port} {ch : Channel} (h : transactionCheck u ch = true) : TransactionInv u ch := by
  unfold transactionCheck at h
  simp only [Bool.and_eq_true] at h
  obtain ⟨⟨⟨⟨⟨h1, h2⟩, h3⟩, h4⟩, h5⟩, h6⟩ := h
  refine ⟨?_, by simpa using h2, by simpa using h3, by simpa using h4, by simpa using h5, fun hs => ?_⟩
  · cases hd : decode ch.cmd with
    | illegal w => simp [hd] at h1
    | command i => exact ⟨i, rfl, by simpa [hd] using h1⟩
  · simpa [hs] using h6

theorem owner_of_check {u : Port} (h : ownerCheck u = true) :
    (∀ c, u.ps.owner = some c ↔ ∃ ch, u.chans[c]? = some ch ∧ ch.phase = .active) ∧
      ∀ c ch, u.ps.owner = some c → u.chans[c]? = some ch → TransactionInv u ch := by
  unfold ownerCheck at h
  rw [Bool.and_eq_true, List.all_eq_true] at h
  obtain ⟨hb, hall⟩ := h
  have key : ∀ (c : Nat) (ch : Channel), u.chans[c]? = some ch →
      (ch.phase = .active ↔ u.ps.owner = some c) ∧ (u.ps.owner = some c → TransactionInv u ch) := by
    intro c ch hc
    have hlt := (List.getElem?_eq_some_iff.mp hc).1
    have := hall c (List.mem_range.mpr hlt)
    simp only [hc, Bool.and_eq_true] at this
    refine ⟨by simpa using this.1, fun ho => transactionInv_of_check ?_⟩
    simpa [ho] using this.2
  refine ⟨fun c => ⟨fun ho => ?_, fun ⟨ch, hc, ha⟩ => (key c ch hc).1.mp ha⟩, fun c ch ho hc => (key c ch hc).2 ho⟩
  rw [ho] at hb
  have hlt : c < u.chans.length := by simpa using hb
  exact ⟨u.chans[c], List.getElem?_eq_getElem hlt, (key c _ (List.getElem?_eq_getElem hlt)).1.mpr ho⟩

theorem portInv_of_check {prm : Params} {u : Port} (h : portCheck prm u = true) : PortInv prm u := by
  unfold portCheck at h
  simp only [Bool.and_eq_true] at h
  obtain ⟨⟨⟨⟨⟨⟨⟨⟨h1, h2⟩, h3⟩, h4⟩, h5⟩, h6⟩, h7⟩, h8⟩, h9⟩ := h
  obtain ⟨ho, ht⟩ := owner_of_check h3
  have hch : ∀ ch ∈ u.chans, ChannelInv prm ch := fun ch hm => channelInv_of_check (List.all_eq_true.mp h2 ch hm)
  have hline : u.ps.init = false → u.env.lineRx = [] := fun hi => by simpa [hi] using h5
  have hrx : u.ps.rxlen ≤ u.ps.rxbuf.length ∧ u.ps.rxbuf.length ≤ u.cfg.rxBufCap :=
    ⟨by simpa using h6, by simpa using h7⟩
  have htx : u.ps.txlen ≤ u.ps.txbuf.length ∧ u.ps.txbuf.length ≤ u.cfg.txBufCap :=
    ⟨by simpa using h8, by simpa using h9⟩
  refine { chanCount := by simpa using h1, channels := hch, ownerIff := ho, transaction := ht, closedLine := hline,
           rxFits := hrx, txFits := htx, idleUnowned := ?_, deWaiting := ?_, waitingDe := ?_, busyInit := ?_,
           awaitingRoom := ?_, respTimer := ?_, txcTimer := ?_, validatingOn := ?_, successOk := ?_, retryBudget := ?_,
           fatalStatus := ?_ }
  all_goals
    clear ho ht hch hline hrx htx h1 h2 h3 h5 h6 h7 h8 h9
    unfold sequencerCheck at h4
    cases hs : u.ps.seq <;> cases hp : u.ps.txph <;> simp_all

/-- A state whose every port passes the check satisfies the invariant. -/
theorem inv_of_check {s : State} (h : (s.ports.all (portCheck s.params)) = true) : Inv s :=
  fun u hu => portInv_of_check (List.all_eq_true.mp h u hu)

end Sys2Proof.Machine
end

