-- ==== Sys2Proof/Laws/Invariant.lean ====
section
/-! SUPPORT. What keeps the invariant of one port: a change of one channel that does not hold the lock, a change while the
lock is held, and a port left idle. -/

namespace Sys2Proof.Machine

/-- What a legal configuration gives one port (10_state.md R31). -/
structure CfgOk (prm : Params) (cfg : PortConfig) : Prop where
  resp : 1 ≤ cfg.respTimeoutMs
  rx : 255 ≤ cfg.rxBufCap
  tx : 255 ≤ cfg.txBufCap
  lock : reached prm.lockWaitMs 0 = false
  txc : reached prm.txcTimeoutMs 0 = false

theorem cfgOk_of_legal {s : State} (hl : s.config.legal = true) {u : Port} (hu : u ∈ s.ports) :
    CfgOk s.params u.cfg := by
  simp only [Config.legal, State.config, Bool.and_eq_true, List.all_eq_true, List.mem_map,
    forall_exists_index, and_imp, forall_apply_eq_imp_iff₂] at hl
  obtain ⟨⟨⟨⟨⟨h1, -⟩, -⟩, h4⟩, h5⟩, -⟩ := hl
  have := h1 u hu
  simp only [PortConfig.legal, Bool.and_eq_true, decide_eq_true_eq] at this
  refine ⟨by omega, by omega, by omega, ?_, ?_⟩
  · unfold reached; unfold boundLegal at h4
    split at h4 <;> simp_all; omega
  · unfold reached; unfold boundLegal at h5
    split at h5 <;> simp_all; omega

variable {prm : Params} {u : Port}

/-- Writing back the channel that is there changes nothing. -/
theorem set_self {l : List α} {c : Nat} {x : α} (h : l[c]? = some x) : l.set c x = l := by
  obtain ⟨hlt, rfl⟩ := List.getElem?_eq_some_iff.mp h
  simp

/-- Changing the channel just written is writing the changed one. -/
theorem modify_set (l : List α) (c : Nat) (a : α) (f : α → α) : (l.set c a).modify c f = l.set c (f a) := by
  apply List.ext_getElem?
  intro j
  rw [List.getElem?_modify, List.getElem?_set, List.getElem?_set]
  by_cases h : c = j
  · subst h; by_cases hl : c < l.length <;> simp [hl]
  · simp [h]

/-- A channel that is not ACTIVE does not hold the lock (10_state.md R64 (a)). -/
theorem not_owner_of_not_active (h : PortInv prm u) {c : Nat} {ch : Channel} (hc : u.chans[c]? = some ch)
    (hp : ch.phase ≠ .active) : u.ps.owner ≠ some c := by
  intro ho
  obtain ⟨x, hx, ha⟩ := (h.ownerIff c).1 ho
  rw [hc] at hx; cases hx; exact hp ha

theorem channelInv_free (ch : Channel) (hf : ch.phase = .free) (hw : ch.wait = 0) : ChannelInv prm ch :=
  ⟨fun h => absurd hf h, by simp [hf], by simp [hf], by simp [hf], fun _ => hw⟩

theorem owner_iff_putChan (h : PortInv prm u) {c : Nat} {ch ch' : Channel} (hc : u.chans[c]? = some ch)
    (hp : ch'.phase = .active ↔ ch.phase = .active) (j : Nat) :
    u.ps.owner = some j ↔ ∃ x, (u.putChan c ch').chans[j]? = some x ∧ x.phase = .active := by
  rw [h.ownerIff j]
  by_cases hj : c = j
  · subst hj
    rw [putChan_get hc]; simp [hc, hp]
  · rw [putChan_get_other hj]

/-- Replacing the record of one channel, its being ACTIVE or not unchanged, keeps the invariant. -/
theorem inv_putChan (h : PortInv prm u) {c : Nat} {ch ch' : Channel} (hc : u.chans[c]? = some ch)
    (hci : ChannelInv prm ch') (hp : ch'.phase = .active ↔ ch.phase = .active)
    (ht : u.ps.owner = some c → TransactionInv u ch') : PortInv prm (u.putChan c ch') where
  chanCount := by simpa using h.chanCount
  channels := by
    intro x hx
    rcases List.mem_or_eq_of_mem_set hx with hx | rfl
    · exact h.channels x hx
    · exact hci
  ownerIff := owner_iff_putChan h hc hp
  idleUnowned := h.idleUnowned
  deWaiting := h.deWaiting
  waitingDe := h.waitingDe
  busyInit := h.busyInit
  closedLine := h.closedLine
  rxFits := h.rxFits
  txFits := h.txFits
  awaitingRoom := h.awaitingRoom
  respTimer := h.respTimer
  txcTimer := h.txcTimer
  validatingOn := h.validatingOn
  successOk := h.successOk
  retryBudget := h.retryBudget
  fatalStatus := h.fatalStatus
  transaction := by
    intro j x ho hx
    have ho' : u.ps.owner = some j := ho
    have key : TransactionInv u x := by
      by_cases hj : c = j
      · subst hj
        rw [putChan_get hc] at hx; cases hx
        exact ht ho'
      · rw [putChan_get_other hj] at hx
        exact h.transaction j x ho' hx
    exact ⟨key.command, key.latched, key.built, key.budget, key.attempts, key.noExc⟩

/-- A port left idle and unowned, with channel `c` freed, keeps the invariant: every completion ends so. -/
theorem inv_idle (h : PortInv prm u) {c : Nat} {ch : Channel} (hc : u.chans[c]? = some ch)
    (ho : u.ps.owner = none ∨ u.ps.owner = some c) {v : Port} {ch' : Channel}
    (hf : ch'.phase = .free) (hw : ch'.wait = 0)
    (hcfg : v.cfg = u.cfg) (hch : v.chans = u.chans.set c ch') (h1 : v.ps.owner = none) (h2 : v.ps.seq = .idle)
    (h3 : v.ps.de = false) (hrl : v.ps.rxlen = u.ps.rxlen) (hrb : v.ps.rxbuf = u.ps.rxbuf)
    (htl : v.ps.txlen = u.ps.txlen) (htb : v.ps.txbuf = u.ps.txbuf) (hl : v.ps.init = false → v.env.lineRx = []) :
    PortInv prm v where
  chanCount := by simpa [hch] using h.chanCount
  channels := by
    intro x hx
    rw [hch] at hx
    rcases List.mem_or_eq_of_mem_set hx with hx | rfl
    · exact h.channels x hx
    · exact channelInv_free _ hf hw
  ownerIff := by
    intro j
    rw [h1, hch]
    simp only [reduceCtorEq, false_iff, not_exists, not_and]
    intro x hx ha
    by_cases hj : c = j
    · subst hj
      have hlt : c < u.chans.length := (List.getElem?_eq_some_iff.mp hc).1
      simp [hlt] at hx; subst hx; rw [hf] at ha; cases ha
    · simp [hj] at hx
      have := (h.ownerIff j).2 ⟨x, hx, ha⟩
      rcases ho with ho | ho <;> rw [ho] at this <;> simp at this
      exact hj this
  idleUnowned := by simp [h1, h2]
  deWaiting := by simp [h3]
  waitingDe := by simp [h2]
  busyInit := by simp [h2]
  closedLine := hl
  rxFits := by rw [hrl, hrb, hcfg]; exact h.rxFits
  txFits := by rw [htl, htb, hcfg]; exact h.txFits
  awaitingRoom := by simp [h2]
  respTimer := by simp [h2]
  txcTimer := by simp [h2]
  validatingOn := by simp [h2]
  successOk := by simp [h2]
  retryBudget := by simp [h2]
  fatalStatus := by simp [h2]
  transaction := by simp [h1]

/-- A change of the port state and of the owner's record while the lock is held keeps the invariant, when it keeps what
the new sequencer state asks for. -/
theorem inv_running (h : PortInv prm u) {c : Nat} {ch ch' : Channel} (hc : u.chans[c]? = some ch)
    (ho : u.ps.owner = some c) (ha : ch.phase = .active) {v : Port}
    (hcfg : v.cfg = u.cfg) (hch : v.chans = u.chans.set c ch') (ha' : ch'.phase = .active)
    (hres : ch'.done = ch.done ∧ ch'.status = ch.status)
    (h1 : v.ps.owner = u.ps.owner) (h2 : v.ps.seq ≠ .idle) (hinit : v.ps.init = u.ps.init)
    (hde : v.ps.de = true → v.ps.seq = .sending ∧ v.ps.txph = .wait)
    (hwd : v.ps.seq = .sending → v.ps.txph = .wait → v.cfg.dePresent = true ∧ v.ps.de = true)
    (hrx : v.ps.rxlen ≤ v.ps.rxbuf.length ∧ v.ps.rxbuf.length ≤ u.cfg.rxBufCap)
    (htl : v.ps.txlen = u.ps.txlen) (htb : v.ps.txbuf = u.ps.txbuf)
    (haw : v.ps.seq = .awaiting → v.ps.rxlen < u.cfg.rxBufCap ∧ v.ps.timedOut = false)
    (hrt : v.ps.seq = .awaiting → v.ps.timer < u.cfg.respTimeoutMs)
    (htt : v.ps.seq = .sending → v.ps.txph = .wait → reached prm.txcTimeoutMs v.ps.timer = false)
    (hva : v.ps.seq = .validating →
      v.ps.timedOut = true ∨ frameComplete (rxFrame v.ps) v.ps.req.op u.cfg.rxBufCap = true)
    (hsu : v.ps.seq = .success → parse (rxFrame v.ps) v.ps.req = .ok)
    (hre : v.ps.seq = .retryable → 0 < v.ps.retriesLeft ∧ v.ps.last.retried = true)
    (hfa : v.ps.seq = .fatal → v.ps.last ≠ .ok ∧ v.ps.last ≠ .busy)
    (htr : TransactionInv u ch → TransactionInv v ch') : PortInv prm v where
  chanCount := by simpa [hch] using h.chanCount
  channels := by
    intro x hx
    rw [hch] at hx
    rcases List.mem_or_eq_of_mem_set hx with hx | rfl
    · exact h.channels x hx
    · have := (h.channels ch (List.mem_of_getElem? hc)).noResultYet (by simp [ha])
      refine ⟨fun _ => by rw [hres.1, hres.2]; exact this, ?_, ?_, ?_, ?_⟩ <;> simp [ha']
  ownerIff := by
    intro j
    rw [h1, hch]
    exact owner_iff_putChan h hc (by simp [ha, ha']) j
  idleUnowned := by simp [h1, h2, ho]
  deWaiting := hde
  waitingDe := hwd
  busyInit := by
    intro _; rw [hinit]; apply h.busyInit
    intro hi; rw [h.idleUnowned.1 hi] at ho; cases ho
  closedLine := by
    intro hi; rw [hinit] at hi
    have := h.busyInit (by intro hi; rw [h.idleUnowned.1 hi] at ho; cases ho)
    rw [this] at hi; cases hi
  rxFits := by rw [hcfg]; exact hrx
  txFits := by rw [htl, htb, hcfg]; exact h.txFits
  awaitingRoom := by rw [hcfg]; exact haw
  respTimer := by rw [hcfg]; exact hrt
  txcTimer := htt
  validatingOn := by rw [hcfg]; exact hva
  successOk := hsu
  retryBudget := hre
  fatalStatus := hfa
  transaction := by
    intro j x hj hx
    rw [h1, ho] at hj; cases hj
    rw [hch] at hx
    have hlt : c < u.chans.length := (List.getElem?_eq_some_iff.mp hc).1
    simp [hlt] at hx; subst hx
    exact htr (h.transaction c ch ho hc)

end Sys2Proof.Machine
end

