-- ==== Sys2Proof/Laws/PerInstr.lean ====
section
/-! SUPPORT. The family `OpCode`: what is said of every command as syntax. -/

namespace Sys2Proof.Laws.OpCode

open Sys2Proof Sys2Proof.Machine

/-- The command's OP names it and no other command (30_encoding.md R102, R110, R111); its word is the OP with RSVD = 0
(R100); the seven Modbus commands are exactly those whose OP is a read or a write of the codec (R110), with the function
code's bit 7 clear (R114). -/
def Statement (i : Instr) : Prop :=
  commandOf i.op = some i ∧ hi8 (encode i) = 0 ∧ lo8 (encode i) = i.op ∧
    (isRead i.op || isWrite i.op) = i.isModbus ∧ (i.isModbus = true → isExceptionFc i.op = false)

theorem rc : Statement .rc := by unfold Statement; decide
theorem rhr : Statement .rhr := by unfold Statement; decide
theorem rir : Statement .rir := by unfold Statement; decide
theorem wsc : Statement .wsc := by unfold Statement; decide
theorem wsr : Statement .wsr := by unfold Statement; decide
theorem wmc : Statement .wmc := by unfold Statement; decide
theorem wmr : Statement .wmr := by unfold Statement; decide
theorem init : Statement .init := by unfold Statement; decide
theorem deinit : Statement .deinit := by unfold Statement; decide
theorem crc : Statement .crc := by unfold Statement; decide
theorem crcchk : Statement .crcchk := by unfold Statement; decide

end Sys2Proof.Laws.OpCode
end

