-- ==== Sys2Proof/Laws/Step.lean ====
section
/-! SUPPORT. What one step of the machine can do, said once: the step of one agent changes at most one port, by one of
the moves of `PortMove`, and a tick changes every port. Every invariant is derived from this. -/

namespace Sys2Proof.Machine

/-- Everything one agent's step can do to a port, with the conditions under which it does it. -/
inductive PortMove (prm : Params) (u : Port) : Port → Prop where
  | stay : PortMove prm u u
  | operand (c : Nat) (ch : Channel) (n : Byte) (v : Word) (hch : u.chans[c]? = some ch) :
      PortMove prm u (u.putChan c (writeReg ch n v))
  | illegal (c : Nat) (ch : Channel) (w : Word) (why : Illegal) (hch : u.chans[c]? = some ch)
      (hfree : ch.phase = .free) (hw : decode w = .illegal why) :
      PortMove prm u (issueRejected w u c .invalidParameter)
  | issue (c : Nat) (ch : Channel) (i : Instr) (hch : u.chans[c]? = some ch) (hfree : ch.phase = .free) :
      PortMove prm u (issueEffect i u c ch)
  | grant (c : Nat) (ch : Channel) (i : Instr) (openOk : Bool) (hch : u.chans[c]? = some ch)
      (hwait : ch.phase = .waitLock) (hlock : u.ps.owner = none) (hcmd : decode ch.cmd = .command i) :
      PortMove prm u (grantEffect i openOk u c ch)
  | sequencer (c : Nat) (ch : Channel) (i : Instr) (n : Nat) (hch : u.chans[c]? = some ch)
      (hact : ch.phase = .active) (hown : u.ps.owner = some c) (hop : commandOf u.ps.req.op = some i)
      (hmod : i.isModbus = true) : PortMove prm u (sequencerStep prm n u c)
  | rx (b : Byte) : PortMove prm u (rxPort b u)
  | txc : PortMove prm u (txcPort u)

@[simp] theorem afterChoice_params (s : State) : s.afterChoice.params = s.params := by
  unfold State.afterChoice; split <;> rfl

@[simp] theorem afterChoice_ports (s : State) : s.afterChoice.ports = s.ports := by
  unfold State.afterChoice; split <;> rfl

theorem nextAction_pending {s : State} {a : Action} {rest : List Action} (h : s.pending = a :: rest) :
    s.nextAction = a ∧ s.afterChoice = { s with pending := rest } := by
  simp [State.nextAction, State.afterChoice, h]

/-- A step that answers a next state ran under a legal configuration, and is the step of the agent chosen. -/
theorem step_next {s t : State} (h : step s = .next t) :
    s.config.legal = true ∧ actionStep s.nextAction s.afterChoice = .next t := by
  unfold step at h
  split at h
  · exact ⟨‹_›, h⟩
  · cases h

/-- With `a` pending first under a legal configuration, the machine takes `a`. -/
theorem step_pending {s : State} {a : Action} {rest : List Action} (hl : s.config.legal = true)
    (h : s.pending = a :: rest) : step s = actionStep a { s with pending := rest } := by
  obtain ⟨ha, hs⟩ := nextAction_pending h
  simp only [step, hl, if_true, legalStep, ha, hs]

/-- `BUS_MAP` is a map, so the register at a mapped address is the one it names (00_scope.md R16). -/
theorem resolve_of_mem {prm : Params} (hd : (prm.busMap.map Prod.fst).Nodup) {b : Nat} {r : RegName}
    (h : (b, r) ∈ prm.busMap) : resolve prm b = some r := by
  unfold resolve
  generalize prm.busMap = l at hd h
  induction l with
  | nil => cases h
  | cons x l ih =>
    obtain ⟨a, q⟩ := x
    simp only [List.map_cons, List.nodup_cons, List.mem_map, not_exists, not_and] at hd
    rcases List.mem_cons.1 h with h | h
    · cases h; simp
    · have hne : b ≠ a := fun e => hd.1 (b, r) h e
      rw [List.lookup_cons, beq_eq_false_iff_ne.2 hne]
      exact ih hd.2 h

/-- A legal configuration maps each bus address to one register. -/
theorem busMap_nodup {s : State} (hl : s.config.legal = true) : (s.params.busMap.map Prod.fst).Nodup := by
  simp only [Config.legal, State.config, Params.busMapInjective, Bool.and_eq_true] at hl
  exact of_decide_eq_true hl.2.1

/-- A read that is next, by name or through `BUS_MAP`, is the host read of the register. -/
theorem step_nextReads {s : State} {r : RegName} {rest : List Action} (h : NextReads s r rest) :
    step s = hostReadStep { s with pending := rest } r := by
  rcases h with ⟨hl, hp⟩ | ⟨b, hb, hl, hp⟩ <;> rw [step_pending hl hp] <;> simp only [actionStep]
  rw [resolve_of_mem (busMap_nodup hl) hb]

/-- A write that is next, by name or through `BUS_MAP`, is the host write of the register. -/
theorem step_nextWrites {s : State} {r : RegName} {v : Word} {rest : List Action} (h : NextWrites s r v rest) :
    step s = hostWriteStep { s with pending := rest } r v := by
  rcases h with ⟨hl, hp⟩ | ⟨b, hb, hl, hp⟩ <;> rw [step_pending hl hp] <;> simp only [actionStep]
  rw [resolve_of_mem (busMap_nodup hl) hb]

theorem withChan_next {s t : State} {p c : Nat} {k : Port → Channel → Host.Outcome State Fault Refusal}
    (h : s.withChan p c k = .next t) :
    ∃ u ch, s.ports[p]? = some u ∧ u.chans[c]? = some ch ∧ k u ch = .next t := by
  unfold State.withChan at h
  split at h
  · cases h
  · split at h
    · cases h
    · exact ⟨_, _, ‹_›, ‹_›, h⟩

theorem withPort_next {s t : State} {p : Nat} {k : Port → Host.Outcome State Fault Refusal}
    (h : s.withPort p k = .next t) : ∃ u, s.ports[p]? = some u ∧ k u = .next t := by
  unfold State.withPort at h
  split at h
  · cases h
  · exact ⟨_, ‹_›, h⟩

/-- `t` is `s` with at most one port changed, by a move. -/
def OnePortMoved (s t : State) : Prop :=
  t.params = s.params ∧ t.pending = s.pending ∧ t.drawIndex = s.drawIndex ∧
    (t.ports = s.ports ∨ ∃ p u u', s.ports[p]? = some u ∧ PortMove s.params u u' ∧ t.ports = s.ports.set p u')

theorem onePortMoved_refl (s : State) : OnePortMoved s s := ⟨rfl, rfl, rfl, .inl rfl⟩

theorem onePortMoved_setPort {s : State} {p : Nat} {u u' : Port} (hu : s.ports[p]? = some u)
    (hm : PortMove s.params u u') : OnePortMoved s (s.setPort p u') :=
  ⟨rfl, rfl, rfl, .inr ⟨p, u, u', hu, hm, rfl⟩⟩

theorem exec_moves {i : Instr} {s t : State} {p c : Nat} {o : Bool} {n : Nat} {u : Port} {ch : Channel}
    (hu : s.ports[p]? = some u) (hc : u.chans[c]? = some ch)
    (hm : PortMove s.params u (portEffect i s.params (s.select p c o n).sel u ch))
    (h : exec i (s.select p c o n) = .next t) : OnePortMoved s t := by
  have hin : InHand (s.select p c o n) u ch := ⟨hu, hc⟩
  rw [exec_inHand i hin] at h
  cases h
  exact ⟨rfl, rfl, rfl, .inr ⟨p, u, _, hu, hm, rfl⟩⟩

theorem issueStep_moves {s t : State} {p c : Nat} {u : Port} {ch : Channel} {v : Word}
    (hu : s.ports[p]? = some u) (hc : u.chans[c]? = some ch) (h : issueStep s p c u ch v = .next t) :
    OnePortMoved s t := by
  unfold issueStep at h
  split at h
  · cases h; exact onePortMoved_refl s
  · rename_i hb
    have hfree : ch.phase = .free := by simpa [Channel.busy] using hb
    split at h
    · rename_i why hw
      cases h
      exact onePortMoved_setPort hu (.illegal c ch v why hc hfree hw)
    · rename_i i hi
      refine exec_moves hu hc ?_ h
      simp only [portEffect, hfree, select_sel]
      exact .issue c ch i hc hfree

theorem hostWriteStep_moves {s t : State} {r : RegName} {v : Word} (h : hostWriteStep s r v = .next t) :
    OnePortMoved s t := by
  obtain ⟨u, ch, hu, hc, hk⟩ := withChan_next h
  split at hk
  · exact issueStep_moves hu hc hk
  · cases hk
    rw [modChan_eq_putChan hc]
    exact onePortMoved_setPort hu (.operand r.chan ch r.reg v hc)

theorem hostReadStep_moves {s t : State} {r : RegName} (h : hostReadStep s r = .next t) : OnePortMoved s t := by
  obtain ⟨u, ch, hu, hc, hk⟩ := withChan_next h
  cases hk
  exact ⟨rfl, rfl, rfl, .inl rfl⟩

theorem grantStep_moves {s t : State} {p c : Nat} {o : Bool} (h : grantStep s p c o = .next t) :
    OnePortMoved s t := by
  obtain ⟨u, ch, hu, hc, hk⟩ := withChan_next h
  split at hk
  · rename_i hen
    split at hk
    · rename_i i hi
      refine exec_moves hu hc ?_ hk
      simp only [portEffect, hen.1, hen.2, if_true, select_sel]
      exact .grant c ch i o hc hen.1 hen.2 hi
    · cases hk; exact onePortMoved_refl s
  · cases hk; exact onePortMoved_refl s

theorem portStep_moves {s t : State} {p n : Nat} (h : portStep s p n = .next t) : OnePortMoved s t := by
  obtain ⟨u, hu, hk⟩ := withPort_next h
  split at hk
  · cases hk; exact onePortMoved_refl s
  · rename_i c hown
    obtain ⟨u', ch, hu', hc, hk⟩ := withChan_next hk
    obtain rfl : u = u' := by simpa [hu] using hu'
    split at hk
    · rename_i hact
      split at hk
      · rename_i i hi
        refine exec_moves hu hc ?_ hk
        simp only [portEffect, hact, hown, select_sel, and_true]
        split
        · exact .sequencer c ch i n hc hact hown hi ‹_›
        · exact .stay
      · cases hk; exact onePortMoved_refl s
    · cases hk; exact onePortMoved_refl s

/-- One agent's step: a tick, or a move of at most one port. -/
theorem actionStep_moves {a : Action} {s t : State} (h : actionStep a s = .next t) :
    (a = .tick ∧ t = tickStep s) ∨ OnePortMoved s t := by
  cases a with
  | hostRead r => exact .inr (hostReadStep_moves h)
  | hostWrite r v => exact .inr (hostWriteStep_moves h)
  | busRead b =>
    simp only [actionStep] at h
    split at h
    · exact .inr (hostReadStep_moves h)
    · cases h
  | busWrite b v =>
    simp only [actionStep] at h
    split at h
    · exact .inr (hostWriteStep_moves h)
    · cases h
  | grant p c o => exact .inr (grantStep_moves h)
  | sequencer p n => exact .inr (portStep_moves h)
  | tick => cases h; exact .inl ⟨rfl, rfl⟩
  | rx p b =>
    obtain ⟨u, hu, hk⟩ := withPort_next h
    cases hk
    exact .inr (onePortMoved_setPort hu (.rx b))
  | txc p =>
    obtain ⟨u, hu, hk⟩ := withPort_next h
    cases hk
    exact .inr (onePortMoved_setPort hu .txc)

/-- EVERYTHING A STEP CAN DO to the ports: under a legal configuration either every port ticks, or at most one port
makes one move. The parameters never change. -/
theorem step_ports {s t : State} (h : step s = .next t) :
    s.config.legal = true ∧ t.params = s.params ∧
      (t.ports = s.ports.map (tickPort s.params) ∨ t.ports = s.ports ∨
        ∃ p u u', s.ports[p]? = some u ∧ PortMove s.params u u' ∧ t.ports = s.ports.set p u') := by
  obtain ⟨hl, ha⟩ := step_next h
  refine ⟨hl, ?_⟩
  rcases actionStep_moves ha with ⟨-, rfl⟩ | ⟨hp, -, -, hports⟩
  · simp
  · simp only [afterChoice_params, afterChoice_ports] at hp hports
    exact ⟨hp, .inr hports⟩

/-- A property of ports that every move and every tick keeps is kept by every step. -/
theorem step_keeps_ports {P : Params → Port → Prop} {s t : State} (h : step s = .next t)
    (hs : ∀ u ∈ s.ports, P s.params u)
    (htick : ∀ u ∈ s.ports, P s.params u → P s.params (tickPort s.params u))
    (hmove : ∀ u ∈ s.ports, ∀ u', P s.params u → PortMove s.params u u' → P s.params u') :
    ∀ u ∈ t.ports, P t.params u := by
  obtain ⟨-, hp, hports⟩ := step_ports h
  rw [hp]
  intro v hv
  rcases hports with ht | ht | ⟨p, u, u', hu, hm, ht⟩
  · rw [ht] at hv
    obtain ⟨u, hu, rfl⟩ := List.mem_map.mp hv
    exact htick u hu (hs u hu)
  · rw [ht] at hv; exact hs v hv
  · rw [ht] at hv
    rcases List.mem_or_eq_of_mem_set hv with hv | rfl
    · exact hs v hv
    · have hmem := List.mem_of_getElem? hu
      exact hmove u hmem _ (hs u hmem) hm

end Sys2Proof.Machine
end

