-- ==== Sys2Proof/Laws/Ticks.lean ====
section
/-! SUPPORT. What a step does to one named port, and to the counters of waits: the lemmas the claims about ticks cite
(70_reset_and_hazards.md R376, R378). -/

namespace Sys2Proof.Machine

variable {prm : Params} {u : Port}

/-! ### One port over one step -/

/-- One step of a run, seen from port `p`: the parameters stay, and the port ticks or makes one move. -/
theorem step_port {s t : State} {a : Action} (h : step { s with pending := [a] } = .next t) {p : Nat} {u : Port}
    (hu : s.ports[p]? = some u) : t.params = s.params ∧ ∃ u', t.ports[p]? = some u' ∧
      ((a = .tick ∧ u' = tickPort s.params u) ∨ (a ≠ .tick ∧ PortMove s.params u u')) := by
  obtain ⟨hl, ha⟩ := step_next h
  have hn := nextAction_pending (s := { s with pending := [a] }) (a := a) (rest := []) rfl
  rw [hn.1, hn.2] at ha
  by_cases hat : a = .tick
  · subst hat
    cases ha
    exact ⟨rfl, tickPort s.params u, by simp [hu], .inl ⟨rfl, rfl⟩⟩
  · rcases actionStep_moves ha with ⟨h1, -⟩ | ⟨hp, -, -, hports⟩
    · exact absurd h1 hat
    · refine ⟨hp, ?_⟩
      rcases hports with hports | ⟨q, v, v', hv, hm, hports⟩
      · exact ⟨u, by rw [hports]; exact hu, .inr ⟨hat, .stay⟩⟩
      · by_cases hq : q = p
        · subst hq
          have : v = u := by
            have hv' : s.ports[q]? = some v := hv
            rw [hu] at hv'; cases hv'; rfl
          subst this
          exact ⟨v', by rw [hports]; exact setPort_get hu v', .inr ⟨hat, hm⟩⟩
        · exact ⟨u, by rw [hports]; simpa [hq] using hu, .inr ⟨hat, .stay⟩⟩

theorem chanAt_of_port {s : State} {p : Nat} (h : s.ports[p]? = some u) (c : Nat) : s.chanAt p c = u.chans[c]? := by
  simp [State.chanAt, h]

/-- The issue step of a command leaves the port state and the configuration alone, for a channel without the lock. -/
theorem issueEffect_ps {c : Nat} {ch : Channel} (hno : u.ps.owner ≠ some c) (i : Instr) :
    (issueEffect i u c ch).ps = u.ps ∧ (issueEffect i u c ch).cfg = u.cfg := by
  cases i <;> simp only [issueEffect] <;> (try unfold issueModbus) <;> (try unfold issueCrc) <;>
    (try unfold issueCrcchk) <;> (try dsimp only) <;> (try split) <;> simp [issueRejected, issueComputed, complete, hno]

/-- A byte read step changes the sequencer state to VALIDATING or not at all, and no counter of the transaction. -/
theorem readBytePs_fields (cap : Nat) (b : Byte) (ps : PortState) :
    ((readBytePs cap b ps).seq = ps.seq ∨ (readBytePs cap b ps).seq = .validating) ∧
      (readBytePs cap b ps).timer = ps.timer ∧ (readBytePs cap b ps).retriesLeft = ps.retriesLeft := by
  unfold readBytePs
  dsimp only
  split <;> simp

/-! ### Counting ticks -/

variable {a : Nat → Action}

@[simp] theorem ticksWhere_zero (q : Nat → Bool) (n : Nat) : ticksWhere a q n 0 = 0 := rfl

theorem ticksWhere_succ (q : Nat → Bool) (n k : Nat) :
    ticksWhere a q n (k + 1) = ticksWhere a q n k + if a (n + k) = .tick ∧ q (n + k) = true then 1 else 0 := rfl

/-- Only what `q` says at the ticks matters. -/
theorem ticksWhere_congr (q r : Nat → Bool) (n k : Nat)
    (h : ∀ j, j < k → a (n + j) = .tick → q (n + j) = r (n + j)) :
    ticksWhere a q n k = ticksWhere a r n k := by
  induction k with
  | zero => rfl
  | succ k ih =>
    simp only [ticksWhere]
    rw [ih (fun j hj => h j (by omega))]
    by_cases ht : a (n + k) = .tick
    · rw [h k (by omega) ht]
    · simp [ht]

/-- A counter that every tick of a stretch raises, and that stays below `N` on it, bounds the ticks of the stretch. -/
theorem ticksWhere_le_of_counter (g : Nat → Nat) (n N k : Nat) (hlt : ∀ j, j < k → g (n + j) < N)
    (hstep : ∀ j, j + 1 < k → g (n + j) + (if a (n + j) = .tick then 1 else 0) ≤ g (n + (j + 1))) :
    ticksWhere a (fun _ => true) n k ≤ N := by
  have : ∀ k', k' + 1 ≤ k → ticksWhere a (fun _ => true) n k' ≤ g (n + k') := by
    intro k'
    induction k' with
    | zero => intro _; exact Nat.zero_le _
    | succ k' ih =>
      intro hk
      have h1 := ih (by omega)
      have h2 := hstep k' (by omega)
      simp only [ticksWhere, and_true]
      omega
  cases k with
  | zero => exact Nat.zero_le _
  | succ k =>
    have h1 := this k (by omega)
    have h2 := hlt k (by omega)
    simp only [ticksWhere, and_true]
    split <;> omega

/-! ### The timers of a wait -/

/-- No step but a tick changes the timer of TX_WAIT or AWAITING while the port stays there. -/
theorem move_timer (h : PortInv prm u) {u' : Port} (hm : PortMove prm u u') :
    (u.ps.seq = .awaiting → u'.ps.seq = .awaiting → u'.ps.timer = u.ps.timer) ∧
    (u.ps.seq = .sending → u.ps.txph = .wait → u'.ps.seq = .sending → u'.ps.txph = .wait →
      u'.ps.timer = u.ps.timer) := by
  by_cases hb : u.ps.owner = none
  · have := h.idleUnowned.2 hb
    simp [this]
  have hps : ∀ v : Port, v.ps = u.ps → (u.ps.seq = .awaiting → v.ps.seq = .awaiting → v.ps.timer = u.ps.timer) ∧
      (u.ps.seq = .sending → u.ps.txph = .wait → v.ps.seq = .sending → v.ps.txph = .wait →
        v.ps.timer = u.ps.timer) := by
    intro v h1; simp [h1]
  cases hm with
  | stay => exact hps _ rfl
  | operand => exact hps _ rfl
  | illegal c ch w why hc hf hw =>
    have hno := not_owner_of_not_active h hc (by simp [hf])
    exact hps _ (by simp [issueRejected, complete, hno])
  | issue c ch i hc hf =>
    have hno := not_owner_of_not_active h hc (by simp [hf])
    exact hps _ (issueEffect_ps hno i).1
  | grant c ch i o hc hw hl hd => exact absurd hl hb
  | rx b => unfold rxPort; split <;> exact hps _ rfl
  | txc =>
    unfold txcPort; split
    · rename_i hc
      simp [hc.1, endTransmit, enterAwaiting]
    · exact hps _ rfl
  | sequencer c ch i n hc ha ho hop hmod =>
    unfold sequencerStep
    cases hs : u.ps.seq with
    | sending =>
      cases hp : u.ps.txph with
      | wait => exact ⟨by simp, fun _ _ _ _ => rfl⟩
      | start => simp
    | awaiting =>
      dsimp only
      unfold byteReadStep; split
      · simp
      · refine ⟨fun _ _ => ?_, by simp⟩
        exact (readBytePs_fields u.cfg.rxBufCap _ u.ps).2.1
    | _ => simp

/-- A tick raises it by one, or ends the wait. -/
theorem tick_timer :
    (u.ps.seq = .awaiting → (tickPort prm u).ps.seq = .awaiting → (tickPort prm u).ps.timer = u.ps.timer + 1) ∧
    (u.ps.seq = .sending → u.ps.txph = .wait → (tickPort prm u).ps.seq = .sending →
      (tickPort prm u).ps.txph = .wait → (tickPort prm u).ps.timer = u.ps.timer + 1) := by
  constructor
  · intro hs
    simp only [tickPort, tickPs, hs]
    split <;> simp
  · intro hs hp
    simp only [tickPort, tickPs, hs, hp]
    split <;> simp [endTransmit, enterAwaiting]

/-- No step but a tick changes WAIT of a channel that keeps waiting. -/
theorem move_wait {u' : Port} (hm : PortMove prm u u') {c : Nat} {x y : Channel}
    (hx : u.chans[c]? = some x) (hy : u'.chans[c]? = some y) (hw : x.phase = .waitLock) (hw' : y.phase = .waitLock) :
    y.wait = x.wait := by
  have put : ∀ (v : Port) (d : Nat) (z z' : Channel), u.chans[d]? = some z → v.chans = u.chans.set d z' →
      (z.phase ≠ .waitLock ∨ z'.wait = z.wait ∨ z'.phase ≠ .waitLock) → v.chans[c]? = some y →
      y.wait = x.wait := by
    intro v d z z' hz hv hor hvy
    rw [hv, List.getElem?_set] at hvy
    split at hvy
    · rename_i hd; subst hd
      rw [hx] at hz; cases hz
      split at hvy
      · cases hvy
        rcases hor with h | h | h
        · exact absurd hw h
        · exact h
        · exact absurd hw' h
      · cases hvy
    · rw [hx] at hvy; cases hvy; rfl
  have same : ∀ v : Port, v.chans = u.chans → v.chans[c]? = some y → y.wait = x.wait := by
    intro v hv hvy; rw [hv, hx] at hvy; cases hvy; rfl
  cases hm with
  | stay => exact same _ rfl hy
  | operand d z n v hz =>
    refine put _ d z _ hz rfl ?_ hy
    unfold writeReg
    split
    · exact .inr (.inl rfl)
    · split <;> exact .inr (.inl rfl)
  | illegal d z w why hz hf hw =>
    refine put _ d z (completeChannel .invalidParameter (acceptCommand w z)) hz ?_ (.inl (by simp [hf])) hy
    simp [issueRejected, complete, Port.modChan, modify_eq_set hz, modify_set]
  | issue d z i hz hf =>
    have : ∃ z', (issueEffect i u d z).chans = u.chans.set d z' := by
      cases i <;> simp only [issueEffect] <;> (try unfold issueModbus) <;> (try unfold issueCrc) <;>
        (try unfold issueCrcchk) <;> (try dsimp only) <;> (try split) <;>
        (simp only [issueRejected, issueComputed, complete, Port.modChan, modify_eq_set hz, modify_set]; exact ⟨_, rfl⟩)
    obtain ⟨z', hz'⟩ := this
    exact put _ d z z' hz hz' (.inl (by simp [hf])) hy
  | grant d z i o hz hwz hl hd =>
    have : (grantEffect i o u d z).chans = u.chans ∨
        ∃ z', (grantEffect i o u d z).chans = u.chans.set d z' ∧ z'.phase ≠ .waitLock := by
      cases i <;> simp only [grantEffect, grantModbus, grantInit, grantDeinit] <;>
        first
        | exact .inl rfl
        | exact .inl trivial
        | (right
           (repeat' split) <;>
            (simp only [complete, acquireLock, latchAndBuild, Port.modPs, modify_eq_set hz, setInit, callConfigure,
              Port.setLine, modify_set]
             exact ⟨_, rfl, by simp⟩))
    rcases this with h1 | ⟨z', h1, h2⟩
    · exact same _ h1 hy
    · exact put _ d z z' hz h1 (.inr (.inr h2)) hy
  | rx b => unfold rxPort at hy; split at hy <;> exact same _ rfl hy
  | txc => unfold txcPort at hy; split at hy <;> exact same _ rfl hy
  | sequencer d z i n hz ha ho hop hmod =>
    have : ∃ z', (sequencerStep prm n u d).chans = u.chans.set d z' := by
      have hself : u.chans = u.chans.set d z := (set_self hz).symm
      unfold sequencerStep
      cases u.ps.seq with
      | idle => exact ⟨z, hself⟩
      | sending =>
        cases u.ps.txph with
        | start => exact ⟨countAttempt z, by simp [writeStep, Port.modChan, modify_eq_set hz]⟩
        | wait => exact ⟨z, hself⟩
      | awaiting => dsimp only; unfold byteReadStep; split <;> exact ⟨z, hself⟩
      | validating =>
        dsimp only; unfold validateStep; split
        · exact ⟨z, hself⟩
        · split
          · exact ⟨z, hself⟩
          · exact ⟨_, by simp only [Port.modChan, modPs_chans, modify_eq_set hz]; rfl⟩
          · exact ⟨z, hself⟩
          · exact ⟨z, hself⟩
      | success => exact ⟨_, by simp only [successStep, complete, Port.modChan, modify_eq_set hz, modify_set]; rfl⟩
      | retryable => dsimp only; unfold retryStep; split <;> exact ⟨z, hself⟩
      | fatal => exact ⟨_, by simp only [fatalStep, complete, modify_eq_set hz]; rfl⟩
    obtain ⟨z', hz'⟩ := this
    exact put _ d z z' hz hz' (.inl (by simp [ha])) hy

/-! ### The ticks left to a transaction -/

/-- How many ticks can still count for the transaction of port `u`, `txc` being the bound of TX_WAIT. -/
def ticksLeft (prm : Params) (txc : Nat) (u : Port) : Nat :=
  let R := u.cfg.respTimeoutMs
  let g := prm.retryBackoffMs + (txc + R)
  match u.ps.seq with
  | .idle => 0
  | .sending => (match u.ps.txph with | .start => txc + R | .wait => (txc - u.ps.timer) + R) + u.ps.retriesLeft * g
  | .awaiting => (R - u.ps.timer) + u.ps.retriesLeft * g
  | .validating => u.ps.retriesLeft * g
  | .success => 0
  | .retryable => (prm.retryBackoffMs - u.ps.timer) + (txc + R) + (u.ps.retriesLeft - 1) * g
  | .fatal => 0

/-- `T` bounds TX_WAIT on this port. -/
def TxcBound (prm : Params) (T : Nat) (u : Port) : Prop := u.cfg.dePresent = false ∨ prm.txcTimeoutMs = some T

/-- A tick that counts takes one away; a tick never adds. -/
theorem ticksLeft_tick (h : PortInv prm u) {T : Nat} (hd : TxcBound prm T u) :
    ticksLeft prm T (tickPort prm u) + (if countsTick prm u = true then 1 else 0) ≤ ticksLeft prm T u := by
  cases hs : u.ps.seq with
  | idle | validating | success | fatal => simp [ticksLeft, tickPort, tickPs, hs, countsTick]
  | sending =>
    cases hp : u.ps.txph with
    | start => simp [ticksLeft, tickPort, tickPs, hs, hp, countsTick]
    | wait =>
      have hw := h.waitingDe hs hp
      have ht := h.txcTimer hs hp
      have hT : prm.txcTimeoutMs = some T := by
        rcases hd with hd | hd
        · rw [hw.1] at hd; cases hd
        · exact hd
      rw [hT] at ht
      simp [reached] at ht
      simp only [ticksLeft, tickPort, tickPs, hs, hp, countsTick, hT, reached]
      by_cases hr : T ≤ u.ps.timer + 1
      · simp [hr, endTransmit, enterAwaiting]; omega
      · simp [hr]; omega
  | awaiting =>
    have ht := h.respTimer hs
    simp only [ticksLeft, tickPort, tickPs, hs, countsTick]
    by_cases hr : u.cfg.respTimeoutMs ≤ u.ps.timer + 1
    · simp [hr]; omega
    · simp [hr]; omega
  | retryable =>
    simp only [ticksLeft, tickPort, tickPs, hs, countsTick]
    by_cases hr : u.ps.timer < prm.retryBackoffMs
    · simp [hr]; omega
    · simp [hr]; omega

/-- No other step of a port that is held adds to it, and none changes the configuration. -/
theorem ticksLeft_move (h : PortInv prm u) {T : Nat} (hb : u.ps.owner ≠ none) {u' : Port}
    (hm : PortMove prm u u') : ticksLeft prm T u' ≤ ticksLeft prm T u ∧ u'.cfg = u.cfg := by
  have hps : ∀ v : Port, v.ps = u.ps → v.cfg = u.cfg → ticksLeft prm T v ≤ ticksLeft prm T u ∧ v.cfg = u.cfg := by
    intro v h1 h2; simp [ticksLeft, h1, h2]
  cases hm with
  | stay => exact hps _ rfl rfl
  | operand => exact hps _ rfl rfl
  | illegal c ch w why hc hf hw =>
    have hno := not_owner_of_not_active h hc (by simp [hf])
    exact hps _ (by simp [issueRejected, complete, hno]) rfl
  | issue c ch i hc hf =>
    have hno := not_owner_of_not_active h hc (by simp [hf])
    exact hps _ (issueEffect_ps hno i).1 (issueEffect_ps hno i).2
  | grant c ch i o hc hw hl hd => exact absurd hl hb
  | rx b => unfold rxPort; split <;> exact hps _ rfl rfl
  | txc =>
    unfold txcPort; split
    · rename_i hc
      refine ⟨?_, rfl⟩
      simp [ticksLeft, hc.1, hc.2.1, endTransmit, enterAwaiting]
    · exact hps _ rfl rfl
  | sequencer c ch i n hc ha ho hop hmod =>
    unfold sequencerStep
    cases hs : u.ps.seq with
    | idle => exact hps _ rfl rfl
    | sending =>
      cases hp : u.ps.txph with
      | wait => exact hps _ rfl rfl
      | start =>
        refine ⟨?_, rfl⟩
        simp only [writeStep, ticksLeft, hs, hp, modChan_ps, modPs_ps, setLine_ps, writePs, modChan_cfg, modPs_cfg,
          setLine_cfg, beginTransmit, enterAwaiting]
        repeat' split
        all_goals simp_all
    | awaiting =>
      dsimp only
      unfold byteReadStep; split
      · exact hps _ rfl rfl
      · refine ⟨?_, rfl⟩
        have hk : ∀ v : Port, (v.ps.seq = .awaiting ∨ v.ps.seq = .validating) → v.ps.timer = u.ps.timer →
            v.ps.retriesLeft = u.ps.retriesLeft → v.cfg = u.cfg → ticksLeft prm T v ≤ ticksLeft prm T u := by
          intro v h1 h2 h3 h4
          rcases h1 with h1 | h1 <;> simp [ticksLeft, h1, hs, h2, h3, h4]
        apply hk
        · rcases (readBytePs_fields u.cfg.rxBufCap _ u.ps).1 with h | h
          · exact .inl (h.trans hs)
          · exact .inr h
        · exact (readBytePs_fields u.cfg.rxBufCap _ u.ps).2.1
        · exact (readBytePs_fields u.cfg.rxBufCap _ u.ps).2.2
        · rfl
    | validating =>
      dsimp only
      unfold validateStep
      have hf : ∀ st, ticksLeft prm T (u.modPs (failAttempt st)) ≤ ticksLeft prm T u := by
        intro st
        by_cases hr : 0 < u.ps.retriesLeft
        · have e : failAttempt st u.ps = { u.ps with last := st, seq := .retryable, timer := 0 } := by
            simp [failAttempt, hr, enterRetryable]
          obtain ⟨r, hr⟩ : ∃ r, u.ps.retriesLeft = r + 1 := ⟨u.ps.retriesLeft - 1, by omega⟩
          simp only [ticksLeft, modPs_ps, e, hs, modPs_cfg, hr, Nat.add_mul]
          simp; omega
        · have e : failAttempt st u.ps = { u.ps with last := st, seq := .fatal } := by
            simp [failAttempt, hr]
          simp [ticksLeft, e]
      split
      · exact ⟨hf _, rfl⟩
      · split
        · exact ⟨by simp [ticksLeft], rfl⟩
        · exact ⟨by simp [ticksLeft], rfl⟩
        · exact ⟨hf _, rfl⟩
        · exact ⟨hf _, rfl⟩
    | success => exact ⟨by simp [ticksLeft, successStep, complete, ho, releaseLock], rfl⟩
    | fatal => exact ⟨by simp [ticksLeft, fatalStep, complete, ho, releaseLock], rfl⟩
    | retryable =>
      dsimp only
      unfold retryStep; split
      · refine ⟨?_, rfl⟩
        simp [ticksLeft, hs]
      · exact hps _ rfl rfl

/-- At no point more is left than R376's bound. -/
theorem ticksLeft_le (h : PortInv prm u) {T : Nat} (hb : u.ps.owner ≠ none) :
    ticksLeft prm T u ≤ transactionTicks prm u.cfg T := by
  have hr : u.ps.retriesLeft ≤ u.cfg.maxRetries := by
    cases ho : u.ps.owner with
    | none => exact absurd ho hb
    | some c =>
      obtain ⟨ch, hc, -⟩ := (h.ownerIff c).1 ho
      exact (h.transaction c ch ho hc).budget
  have key : ∀ g, g = prm.retryBackoffMs + (T + u.cfg.respTimeoutMs) →
      transactionTicks prm u.cfg T = T + u.cfg.respTimeoutMs + u.cfg.maxRetries * g := by
    rintro g rfl
    unfold transactionTicks; ring
  simp only [ticksLeft]
  generalize hg : prm.retryBackoffMs + (T + u.cfg.respTimeoutMs) = g
  rw [key g hg.symm]
  have hm : u.ps.retriesLeft * g ≤ u.cfg.maxRetries * g := Nat.mul_le_mul_right _ hr
  cases hs : u.ps.seq with
  | idle | success | fatal => simp
  | sending => cases hp : u.ps.txph <;> dsimp only <;> omega
  | awaiting => dsimp only; omega
  | validating => dsimp only; omega
  | retryable =>
    dsimp only
    have := h.retryBudget hs
    have h2 : (u.ps.retriesLeft - 1 + 1) * g = u.ps.retriesLeft * g := by
      congr 1; omega
    rw [Nat.add_mul, Nat.one_mul] at h2
    omega

/-- On a held port a tick counts, or an internal step is enabled. -/
theorem countsTick_or_enabled (h : PortInv prm u) (hb : u.ps.owner ≠ none) :
    countsTick prm u = true ∨ sequencerEnabled prm u := by
  unfold countsTick sequencerEnabled
  cases hs : u.ps.seq with
  | idle => exact absurd (h.idleUnowned.1 hs) hb
  | sending => cases u.ps.txph <;> simp
  | awaiting | validating | success | fatal => simp
  | retryable => dsimp only; by_cases hr : u.ps.timer < prm.retryBackoffMs <;> simp [hr]; omega

end Sys2Proof.Machine
end

