-- ==== Sys2Proof/Tests/Slice0.lean ====
section
/-! SUPPORT. Tests. Expected values are those of spec/95_test_vectors.md or written out from the rules named; `witness_…`
theorems show, for each statement with hypotheses, a concrete state and operands that meet all of them together. -/

namespace Sys2Proof.Tests

open Sys2Proof Sys2Proof.Machine

/-! ### Small states -/

/-- The port record of the common test configuration, with or without direction-enable. -/
def cfgOf (de : Bool) : PortConfig :=
  { dePresent := de, baud := 9600, dataBits := 8, stopBits := 1, parity := .none, respTimeoutMs := 100, maxRetries := 2,
    rxBufCap := 256, txBufCap := 256, txPin := 0, rxPin := 1 }

def prmOf (lockWait : Option Nat) : Params :=
  { numChannels := 2, retryBackoffMs := 10, pollSliceMs := 1, lockWaitMs := lockWait, txcTimeoutMs := some 5,
    busMap := [] }

/-- One port, command in hand on its channel 0, the transport accepting 8 bytes and `open` answering success. -/
def mk (u : Port) (pending : List Action) : State :=
  { params := prmOf (some 50), ports := [u], pending := pending, drawIndex := 0,
    sel := { port := 0, chan := 0, openOk := true, accepted := 8 }, hostIn := 0 }

/-- The operands of a line, in a channel after reset. -/
def ops (sl : Byte) (a q : Word) : Channel := { Channel.reset with slave := sl, addr := a, qty := q }

/-- A port whose lock is free. -/
def idle (de init : Bool) (ch : Channel) : Port :=
  { cfg := cfgOf de, ps := { PortState.reset with init := init }, chans := [ch, Channel.reset],
    env := { lineRx := [], configured := [] } }

/-- A channel that waits for the lock with command `i`. -/
def waiting (i : Instr) (sl : Byte) (a q : Word) : Channel := enterWaitLock (encode i) (ops sl a q)

/-- A port in the transaction of channel 0, right after the lock grant. -/
def busy (de : Bool) (i : Instr) (sl : Byte) (a q : Word) : Port :=
  grantModbus (idle de true (waiting i sl a q)) 0 (waiting i sl a q)

/-- The same transaction after its first write step, with the port state changed by `f`. -/
def after (de : Bool) (i : Instr) (sl : Byte) (a q : Word) (f : PortState → PortState) : Port :=
  ((busy de i sl a q).modPs f).modChan 0 countAttempt

/-- `RHR 1, 0, 1` after its first write step. -/
def rhrAfter (f : PortState → PortState) : Port := after false .rhr 1 0 1 f

def withResponse (rx : List Byte) (sq : Seq) (ps : PortState) : PortState :=
  { ps with rxbuf := rx, rxlen := rx.length, seq := sq }

/-- A part of channel 0 of port 0 after a step. -/
def chanView (f : Port → Channel → α) (o : Host.Outcome State Fault Refusal) : Option α :=
  match o with
  | .next t => (t.ports[0]?).bind fun u => (u.chans[0]?).map (f u)
  | .fault _ => none
  | .refused _ => none

def csrAfter (o : Host.Outcome State Fault Refusal) : Option Word := chanView (fun _ ch => ch.csr) o

/-! ### WellFormed, Decode -/

theorem test_wellformed_refuses_local_in_modbus_line : (Line.modbus .crc 1 0 1).wellFormed = false := by decide
theorem test_wellformed_refuses_data_past_buffer : (Line.data 124 [0, 0]).wellFormed = false := by decide
theorem test_wellformed_admits_last_word : (Line.data 124 [0]).wellFormed = true := by decide

theorem test_wellformed_admits_every_command : ∀ i ∈ Instr.all, i.wellFormed = true := by decide

/-- 30_encoding.md R100, R110, R111: RSVD 00000000, then OP bit by bit. -/
theorem test_decode_read_words :
    decode 0b0000000000000001 = .command .rc ∧ decode 0b0000000000000011 = .command .rhr ∧
      decode 0b0000000000000100 = .command .rir := by decide
theorem test_decode_write_words :
    decode 0b0000000000000101 = .command .wsc ∧ decode 0b0000000000000110 = .command .wsr ∧
      decode 0b0000000000001111 = .command .wmc ∧ decode 0b0000000000010000 = .command .wmr := by decide
theorem test_decode_local_words :
    decode 0b0000000011110000 = .command .init ∧ decode 0b0000000011110001 = .command .deinit ∧
      decode 0b0000000011110010 = .command .crc ∧ decode 0b0000000011110011 = .command .crcchk := by decide
/-- R101, R112 and the rows 0x0002, 0x0103, 0x00FF of 95_test_vectors.md 2.6. -/
theorem test_decode_illegal_words :
    decode 0x0103 = .illegal .reservedBits ∧ decode 0x0002 = .illegal .reservedOp ∧
      decode 0x00FF = .illegal .reservedOp ∧ decode 0x0000 = .illegal .reservedOp ∧
      decode 0x8000 = .illegal .reservedBits := by decide

theorem test_table_word_above_16_bits_is_none : decodeTableWord 24 0x010003 = none := by decide
/-- A placed INIT word is the next step: CSR 0x0001 (rule R237). -/
theorem test_placed_word_runs : csrAfter (step (State.reset.withFetchWord 16 0x00F0)) = some 0x0001 := by decide +kernel

/-! ### CRC16 (95_test_vectors.md 1.2, 2.1) -/

theorem test_crc16_vectors :
    crc16 [] = 0xFFFF ∧ crc16 [0x00] = 0x40BF ∧ crc16 [0xFF] = 0x00FF ∧ crc16 [0x01] = 0x807E ∧
      crc16 [0x31, 0x32, 0x33, 0x34, 0x35, 0x36, 0x37, 0x38, 0x39] = 0x4B37 ∧ crc16 [0xFF, 0xFF] = 0x0000 ∧
      crc16 [0x01, 0x03, 0, 0, 0, 0x0A] = 0xCDC5 := by decide +kernel
theorem test_crc_bit_flips_detected :
    ∀ k : Fin 64, crcOk ([0x01, 0x03, 0x00, 0x0A, 0x00, 0x01, 0xA4, 0x08].modify (k.val / 8)
      (fun b => b ^^^ (1#8 <<< (k.val % 8)))) = false := by decide +kernel

/-! ### Codec (95_test_vectors.md 2.3 to 2.5) -/

/-- What the grant step of a line builds from DATA words `d`. -/
def builtBy (i : Instr) (sl : Byte) (a q : Word) (d : List Word) : List Byte :=
  build { op := i.op, slave := sl, addr := a, qty := q } (Vector.ofFn fun k => (d[k.val]?).getD 0)

theorem test_build_reads :
    builtBy .rhr 1 0 10 [] = [0x01, 0x03, 0x00, 0x00, 0x00, 0x0A, 0xC5, 0xCD] ∧
      builtBy .rir 1 8 1 [] = [0x01, 0x04, 0x00, 0x08, 0x00, 0x01, 0xB0, 0x08] ∧
      builtBy .rc 0x11 0x13 37 [] = [0x11, 0x01, 0x00, 0x13, 0x00, 0x25, 0x0E, 0x84] := by decide +kernel
theorem test_build_writes :
    builtBy .wsr 5 0x10 0x1234 [] = [0x05, 0x06, 0x00, 0x10, 0x12, 0x34, 0x84, 0xFC] ∧
      builtBy .wsc 0x11 0xAC 1 [] = [0x11, 0x05, 0x00, 0xAC, 0xFF, 0x00, 0x4E, 0x8B] ∧
      builtBy .wsc 1 0 0 [] = [0x01, 0x05, 0x00, 0x00, 0x00, 0x00, 0xCD, 0xCA] ∧
      builtBy .wmr 1 1 2 [0x0A28, 0x1194] =
        [0x01, 0x10, 0x00, 0x01, 0x00, 0x02, 0x04, 0x0A, 0x28, 0x11, 0x94, 0xBC, 0x4C] ∧
      builtBy .wmc 0x11 0x13 10 [0x01CD] =
        [0x11, 0x0F, 0x00, 0x13, 0x00, 0x0A, 0x02, 0xCD, 0x01, 0xBF, 0x0B] := by decide +kernel
theorem test_expected_length :
    expectedLen [0x01] 0x03 = none ∧ expectedLen [0x01, 0x03] 0x03 = none ∧
      expectedLen [0x01, 0x03, 0x02] 0x03 = some 7 ∧ expectedLen [0x01, 0x83] 0x03 = some 5 ∧
      expectedLen [0x01, 0x04, 0x02, 0x12] 0x03 = some 7 ∧ expectedLen [0x01, 0x10, 0x00] 0x10 = some 8 := by decide

def rhrReq (q : Word) : Request := { op := 0x03, slave := 1, addr := 0, qty := q }

theorem test_parse_read_vectors :
    parse [0x01, 0x03, 0x02, 0x12, 0x34, 0xB5, 0x33] (rhrReq 1) = .ok ∧
      parse [0x01, 0x03, 0x02, 0x12, 0x34, 0xB5, 0x34] (rhrReq 1) = .crcError ∧
      parse [0x02, 0x03, 0x02, 0x12, 0x34, 0xF1, 0x33] (rhrReq 1) = .unexpectedResponse ∧
      parse [0x02, 0x83, 0x02, 0x30, 0xF1] (rhrReq 1) = .unexpectedResponse ∧
      parse [0x01, 0x81, 0x01, 0x81, 0x90] (rhrReq 1) = .exception 0x01 ∧
      parse [0x01, 0x04, 0x02, 0x12, 0x34, 0xB4, 0x47] (rhrReq 1) = .unexpectedResponse ∧
      parse [0x01, 0x03, 0x02, 0x00, 0xF0, 0xB8] (rhrReq 1) = .unexpectedResponse ∧
      parse [0x01, 0x03, 0x04, 0x00, 0x03, 0x00, 0x04, 0x0B, 0xF0] (rhrReq 1) = .unexpectedResponse ∧
      parse [0x01, 0x03] (rhrReq 1) = .unexpectedResponse := by decide +kernel
theorem test_parse_coil_and_write_vectors :
    parse [0x11, 0x01, 0x05, 0xCD, 0x6B, 0xB2, 0x0E, 0x1B, 0x45, 0xE6] { op := 0x01, slave := 0x11, addr := 0x13, qty := 37 } = .ok ∧
      parse [0x01, 0x01, 0x01, 0x00, 0x51, 0x88] { op := 0x01, slave := 1, addr := 0, qty := 9 } = .unexpectedResponse ∧
      parse [0x01, 0x06, 0x00, 0x01, 0x00, 0x04, 0xD9, 0xC9] { op := 0x06, slave := 1, addr := 1, qty := 3 } = .ok ∧
      parse [0x01, 0x10, 0x00, 0x01, 0x00, 0x1C, 0x90] { op := 0x10, slave := 1, addr := 1, qty := 2 } = .unexpectedResponse ∧
      parse [0x01, 0x90, 0x0B, 0x0D, 0xC7] { op := 0x10, slave := 1, addr := 1, qty := 2 } = .exception 0x0B := by
  decide +kernel

/-! ### One step of each command -/

def wordsAfter (n : Nat) (o : Host.Outcome State Fault Refusal) : Option (Word × List Word) :=
  chanView (fun _ ch => (ch.csr, ch.data.toList.take n)) o

/-- A transaction in SUCCESS with response `rx`, the first DATA words being `d`. -/
def answered (i : Instr) (sl : Byte) (a q : Word) (rx : List Byte) (d : List Word) : State :=
  mk ((after false i sl a q (withResponse rx .success)).modChan 0
    fun ch => { ch with data := Vector.ofFn fun k => (d[k.val]?).getD 0 }) []

/-- The CSR of channel 0 after the step, and the ADU in the transmit buffer. -/
def grantView (o : Host.Outcome State Fault Refusal) : Option (Word × List Byte × Word) :=
  chanView (fun u ch => (ch.csr, txFrame u.ps, u.ps.psr 0)) o

def grantIn (i : Instr) (sl : Byte) (a q : Word) (d : List Word) : State :=
  mk (idle false true { waiting i sl a q with data := Vector.ofFn fun k => (d[k.val]?).getD 0 }) []

theorem test_rhr_payload :
    wordsAfter 3 (exec .rhr (answered .rhr 1 1 2 [0x01, 0x03, 0x04, 0, 3, 0, 4, 0x0B, 0xF0] [0xAAAA, 0xBBBB, 0xCCCC])) =
      some (0x0002, [0x0003, 0x0004, 0xCCCC]) := by decide +kernel
theorem test_rhr_grant : grantView (exec .rhr (grantIn .rhr 1 0 1 [])) =
    some (0x0001, [0x01, 0x03, 0x00, 0x00, 0x00, 0x01, 0x84, 0x0A], 0x0017) := by decide +kernel
theorem test_rir_payload :
    wordsAfter 1 (exec .rir (answered .rir 1 8 1 [0x01, 0x04, 0x02, 0x00, 0x0A, 0x39, 0x37] [])) =
      some (0x0002, [0x000A]) := by decide +kernel
theorem test_rc_payload :
    wordsAfter 3 (exec .rc (answered .rc 0x11 0x13 37 [0x11, 0x01, 0x05, 0xCD, 0x6B, 0xB2, 0x0E, 0x1B, 0x45, 0xE6]
      [0xAAAA, 0xBBBB, 0xCCCC])) = some (0x0002, [0x6BCD, 0x0EB2, 0xCC1B]) := by decide +kernel
theorem test_rc_one_coil :
    wordsAfter 1 (exec .rc (answered .rc 1 0 1 [0x01, 0x01, 0x01, 0x01, 0x90, 0x48] [0xFFFF])) =
      some (0x0002, [0xFF01]) := by decide +kernel
theorem test_wsc_grant : grantView (exec .wsc (grantIn .wsc 0x11 0xAC 0xFF00 [])) =
    some (0x0001, [0x11, 0x05, 0x00, 0xAC, 0xFF, 0x00, 0x4E, 0x8B], 0x0017) := by decide +kernel
theorem test_wsr_grant : grantView (exec .wsr (grantIn .wsr 1 1 3 [])) =
    some (0x0001, [0x01, 0x06, 0x00, 0x01, 0x00, 0x03, 0x98, 0x0B], 0x0017) := by decide +kernel
theorem test_wmc_grant : grantView (exec .wmc (grantIn .wmc 0x11 0x13 10 [0x01CD])) =
    some (0x0001, [0x11, 0x0F, 0x00, 0x13, 0x00, 0x0A, 0x02, 0xCD, 0x01, 0xBF, 0x0B], 0x0017) := by decide +kernel
theorem test_wmr_done_keeps_data :
    wordsAfter 2 (exec .wmr (answered .wmr 1 1 2 [0x01, 0x10, 0, 1, 0, 2, 0x10, 0x08] [0x0A28, 0x1194])) =
      some (0x0002, [0x0A28, 0x1194]) := by decide +kernel
theorem test_init_opens : chanView (fun u ch => (ch.csr, u.ps.psr 0)) (exec .init (mk (idle false false (waiting .init 0 0 0)) [])) =
    some (0x0002, 0x0001) := by decide +kernel
theorem test_init_again : chanView (fun u ch => (ch.csr, u.ps.psr 0)) (exec .init (mk (idle false true (waiting .init 0 0 0)) [])) =
    some (0x0402, 0x0001) := by decide +kernel
theorem test_deinit_closes : chanView (fun u ch => (ch.csr, u.ps.psr 0)) (exec .deinit (mk (idle false true (waiting .deinit 0 0 0)) [])) =
    some (0x0002, 0x0000) := by decide +kernel
theorem test_deinit_closed : csrAfter (exec .deinit (mk (idle false false (waiting .deinit 0 0 0)) [])) = some 0x0302 := by
  decide +kernel

/-- Channel 0 free with QTY `q` and the first DATA words `d`. -/
def buffer (q : Word) (d : List Word) : State :=
  mk (idle false false { ops 0 0 q with data := Vector.ofFn fun k => (d[k.val]?).getD 0 }) []

def crcView (o : Host.Outcome State Fault Refusal) : Option (Word × Word) := chanView (fun _ ch => (ch.csr, ch.crcr)) o

theorem test_crc_six_bytes : crcView (exec .crc (buffer 6 [0x0301, 0x0000, 0x0A00])) = some (0x0002, 0xCDC5) := by
  decide +kernel
theorem test_crc_bounds : crcView (exec .crc (buffer 0 [])) = some (0x0002, 0xFFFF) ∧
    crcView (exec .crc (buffer 251 [])) = some (0x0202, 0x0000) := by decide +kernel
theorem test_crcchk_frames :
    crcView (exec .crcchk (buffer 8 [0x0301, 0x0000, 0x0A00, 0xCDC5])) = some (0x0002, 0xCDC5) ∧
      crcView (exec .crcchk (buffer 8 [0x0301, 0x0000, 0x0A00, 0xCDC4])) = some (0x0702, 0xCDC5) := by decide +kernel
theorem test_crcchk_bounds : crcView (exec .crcchk (buffer 2 [0xFFFF])) = some (0x0002, 0xFFFF) ∧
    crcView (exec .crcchk (buffer 1 [])) = some (0x0202, 0x0000) := by decide +kernel

/-- 95_test_vectors.md 2.6, the rows at the bounds. -/
theorem test_issue_checks :
    [(Instr.rhr, (1 : Byte), (1 : Word)), (.rhr, 0, 1), (.rhr, 247, 1), (.rhr, 248, 1), (.rir, 1, 125), (.rir, 1, 126),
      (.wmr, 1, 123), (.wmr, 1, 124), (.rc, 1, 2000), (.rc, 1, 2001), (.wmc, 1, 1968), (.wmc, 1, 1969), (.wmc, 1, 0),
      (.wsc, 1, 0), (.wsr, 1, 0xFFFF), (.init, 0, 0)].map
        (fun x => csrAfter (exec x.1 (mk (idle false false (ops x.2.1 0 x.2.2)) []))) =
    [some 0x0001, some 0x0202, some 0x0001, some 0x0202, some 0x0001, some 0x0202, some 0x0001, some 0x0202,
      some 0x0001, some 0x0202, some 0x0001, some 0x0202, some 0x0202, some 0x0001, some 0x0001, some 0x0001] := by
  decide +kernel

/-- 95_test_vectors.md 2.8: the PSR of both channels along a transaction with direction-enable, and after a short
write. -/
theorem test_psr_table :
    (busy true .rhr 1 0 1).ps.psr 0 = 0x0017 ∧ (busy true .rhr 1 0 1).ps.psr 1 = 0x0013 ∧
      (writeStep 8 (busy true .rhr 1 0 1) 0).ps.psr 0 = 0x0097 ∧
      (txcPort (writeStep 8 (busy true .rhr 1 0 1) 0)).ps.psr 1 = 0x0023 ∧
      (writeStep 5 (busy true .rhr 1 0 1) 0).ps.psr 0 = 0x0067 := by decide +kernel

/-- 95_test_vectors.md 2.9, the row with `LOCK_WAIT_MS = 50`: the 50th tick completes the waiting command with BUSY. -/
theorem test_lock_wait_ends :
    (tickChannel (prmOf (some 50)) { waiting .wsr 1 1 3 with wait := 49 }).csr = 0x0502 ∧
      (tickChannel (prmOf (some 50)) { waiting .wsr 1 1 3 with wait := 48 }).csr = 0x0001 := by decide

/-- 30_encoding.md R124 with the register numbers of 20_memory.md R80 (95_test_vectors.md, P1). -/
theorem test_program_line :
    programActions 0 0 [.modbus .rhr 1 1 2, .rd (.data 1)] =
      [.hostWrite ⟨0, 0, 2⟩ 1, .hostWrite ⟨0, 0, 3⟩ 1, .hostWrite ⟨0, 0, 4⟩ 2, .hostWrite ⟨0, 0, 0⟩ 0x0003,
        .hostRead ⟨0, 0, 17⟩] := by decide

def faultOf (o : Host.Outcome State Fault Refusal) : Option Fault :=
  match o with
  | .next _ => none
  | .fault f => some f
  | .refused _ => none

theorem test_missing_agents_fault :
    faultOf (step (mk (idle false true (ops 1 0 1)) [.hostRead ⟨0, 1, 255⟩])) = none ∧
      faultOf (step (mk (idle false true (ops 1 0 1)) [.hostRead ⟨1, 0, 0⟩])) = some .noSuchPort ∧
      faultOf (step (mk (idle false true (ops 1 0 1)) [.hostRead ⟨0, 2, 0⟩])) = some .noSuchChannel ∧
      faultOf (step (mk (idle false true (ops 1 0 1)) [.busRead 0])) = some .unmappedBusAddress := by decide +kernel

/-! ### Witnesses: hypotheses met together -/

/-- With `a` pending on a legal port, `a` is the next step. -/
theorem nextIs_mk (u : Port) (a : Action) (rest : List Action) (h : u.cfg = cfgOf true ∨ u.cfg = cfgOf false) :
    NextIs (mk u (a :: rest)) a rest := by
  refine ⟨?_, rfl⟩
  rcases h with h | h <;> simp [State.config, mk, h] <;> decide

/-- The same with three registers on the bus: CMD, ADDR and DATA[124] of channel 0. -/
def busMk (u : Port) (pending : List Action) : State :=
  { mk u pending with
    params := { prmOf (some 50) with busMap := [(100, ⟨0, 0, 0⟩), (101, ⟨0, 0, 3⟩), (102, ⟨0, 0, 140⟩)] } }

theorem nextWrites_mk (u : Port) (r : RegName) (v : Word) (h : u.cfg = cfgOf true ∨ u.cfg = cfgOf false) :
    NextWrites (mk u [.hostWrite r v]) r v [] := .inl (nextIs_mk _ _ _ h)

theorem bus_legal (u : Port) (l : List Action) (h : u.cfg = cfgOf true ∨ u.cfg = cfgOf false) :
    (busMk u l).config.legal = true := by
  rcases h with h | h <;> simp [State.config, busMk, mk, h] <;> decide

/-- 20_memory.md R80: a write at a bus address is next, on a free channel (CMD, ADDR, DATA[124]) and on a busy one. -/
theorem witness_BusWrites (u : Port) (v : Word) (h : u.cfg = cfgOf true ∨ u.cfg = cfgOf false) :
    NextWrites (busMk u [.busWrite 100 v]) ⟨0, 0, 0⟩ v [] ∧ NextWrites (busMk u [.busWrite 101 v]) ⟨0, 0, 3⟩ v [] ∧
      NextWrites (busMk u [.busWrite 102 v]) ⟨0, 0, 140⟩ v [] ∧ NextReads (busMk u [.busRead 100]) ⟨0, 0, 0⟩ [] ∧
      NextReads (busMk u [.busRead 102]) ⟨0, 0, 140⟩ [] := by
  refine ⟨.inr ⟨100, ?_, bus_legal _ _ h, rfl⟩, .inr ⟨101, ?_, bus_legal _ _ h, rfl⟩, .inr ⟨102, ?_, bus_legal _ _ h, rfl⟩,
    .inr ⟨100, ?_, bus_legal _ _ h, rfl⟩, .inr ⟨102, ?_, bus_legal _ _ h, rfl⟩⟩ <;> simp [busMk]

theorem test_bus_write_reaches_register :
    chanView (fun _ ch => (ch.addr, ch.csr)) (step (busMk (idle false true (ops 1 0 1)) [.busWrite 101 0xABCD])) =
        some (0xABCD, 0) ∧
      csrAfter (step (busMk (idle false true (ops 1 0 1)) [.busWrite 100 0x0003])) = some 0x0001 ∧
      csrAfter (step (busMk (idle false true (ops 1 0 1)) [.busWrite 100 0x0002])) = some 0x0202 := by decide +kernel

theorem inHand_mk {u : Port} {ch : Channel} (l : List Action) (h : u.chans[0]? = some ch) : InHand (mk u l) u ch :=
  ⟨rfl, h⟩

theorem witness_StepRunsDecodedCommand :
    (∀ i ∈ Instr.all, NextWrites (mk (idle false true (ops 1 0 1)) [.hostWrite ⟨0, 0, 0⟩ (encode i)]) ⟨0, 0, 0⟩
      (encode i) [] ∧ (ops 1 0 1).phase = .free ∧ decode (encode i) = .command i) ∧
    State.reset.config.legal = true ∧ decodeTableWord 16 0x0003 = some .rhr ∧ firstFree State.reset.ports 0 = (0, 0) ∧
      (State.reset.ports[0]?).map (fun u => (u.chans[0]?).map Channel.phase) = some (some .free) :=
  ⟨fun i _ => ⟨nextWrites_mk _ _ _ (.inr rfl), rfl, decode_encode i⟩, by decide, by decide, by decide, by decide⟩

theorem witness_GrantStepRunsWaitingCommand :
    NextIs (mk (idle false true (waiting .wsr 1 1 3)) [.grant 0 0 true]) (.grant 0 0 true) [] ∧
      (waiting .wsr 1 1 3).phase = .waitLock ∧ (idle false true (waiting .wsr 1 1 3)).ps.owner = none ∧
      decode (waiting .wsr 1 1 3).cmd = .command .wsr ∧
    NextIs (mk (busy false .rhr 1 0 1) [.grant 0 1 true]) (.grant 0 1 true) [] ∧
      (busy false .rhr 1 0 1).chans[1]? = some Channel.reset ∧ (busy false .rhr 1 0 1).ps.owner ≠ none :=
  ⟨nextIs_mk _ _ _ (.inr rfl), rfl, rfl, by decide, nextIs_mk _ _ _ (.inr rfl), rfl, by decide⟩

theorem witness_SequencerStepRunsLatchedCommand :
    (∀ i ∈ Instr.all, i.isModbus = true →
      NextIs (mk (busy false i 1 0 1) [.sequencer 0 8]) (.sequencer 0 8) [] ∧
        (busy false i 1 0 1).ps.owner = some 0 ∧ (busy false i 1 0 1).ps.req.op = i.op ∧
        ((busy false i 1 0 1).chans[0]?).map Channel.phase = some .active) ∧
    NextIs (mk (idle false true (ops 1 0 1)) [.sequencer 0 8]) (.sequencer 0 8) [] ∧
      (idle false true (ops 1 0 1)).ps.owner = none :=
  ⟨fun i _ _ => ⟨nextIs_mk _ _ _ (.inr rfl), rfl, by cases i <;> rfl, rfl⟩,
    nextIs_mk _ _ _ (.inr rfl), rfl⟩

theorem witness_IllegalWordCompletesAtOnce :
    ∀ v ∈ [(0x0000 : Word), 0x0002, 0x00EF, 0x00F4, 0x0103, 0x8001],
      NextWrites (mk (idle false true (ops 1 0 1)) [.hostWrite ⟨0, 0, 0⟩ v]) ⟨0, 0, 0⟩ v [] ∧
        (ops 1 0 1).phase = .free ∧ (idle false true (ops 1 0 1)).ps.owner ≠ some 0 ∧ ∀ i, v ≠ encode i := by
  intro v hv
  refine ⟨nextWrites_mk _ _ _ (.inr rfl), rfl, by simp [idle, PortState.reset], ?_⟩
  rintro i rfl
  revert hv
  cases i <;> decide

theorem witness_BusyChannelIgnoresWrites :
    NextWrites (mk (idle false true (waiting .rhr 1 0 1)) [.hostWrite ⟨0, 0, 0⟩ 0x00F1]) ⟨0, 0, 0⟩ 0x00F1 [] ∧
      (waiting .rhr 1 0 1).phase ≠ .free ∧
    NextWrites (mk (busy false .rhr 1 0 1) [.hostWrite ⟨0, 0, 16⟩ 7]) ⟨0, 0, 16⟩ 7 [] ∧
      ((busy false .rhr 1 0 1).chans[0]?).map Channel.phase = some .active :=
  ⟨nextWrites_mk _ _ _ (.inr rfl), by decide, nextWrites_mk _ _ _ (.inr rfl), rfl⟩

/-- The clauses at the ends of their ranges: registers 1 to 5, 15, DATA[0], DATA[124], 141, 255. -/
theorem witness_FreeChannelTakesOperands :
    ∀ n ∈ [(1 : Byte), 2, 3, 4, 5, 8, 9, 15, 16, 140, 141, 255],
      NextWrites (mk (idle false true (ops 1 0 1)) [.hostWrite ⟨0, 0, n⟩ 0xABCD]) ⟨0, 0, n⟩ 0xABCD [] ∧
        n ≠ 0 ∧ (ops 1 0 1).phase = .free ∧
        (n = 2 ∨ n = 3 ∨ n = 4 ∨ (∃ i : Fin 125, n.toNat = 16 + i.val) ∨ n = 1 ∨ (5 ≤ n.toNat ∧ n.toNat ≤ 15) ∨
          141 ≤ n.toNat) := by
  intro n hn
  refine ⟨nextWrites_mk _ _ _ (.inr rfl), ?_, rfl, ?_⟩ <;> (revert n; decide +kernel)

theorem witness_HostReadReturnsRegister :
    ∀ n ∈ [(0 : Byte), 1, 2, 3, 4, 5, 6, 7, 8, 9, 15, 16, 140, 141, 255],
      NextReads (mk (busy false .rhr 1 0 1) [.hostRead ⟨0, 0, n⟩]) ⟨0, 0, n⟩ [] ∧
        (n.toNat < 9 ∨ (∃ i : Fin 125, n.toNat = 16 + i.val) ∨ (9 ≤ n.toNat ∧ n.toNat ≤ 15) ∨ 141 ≤ n.toNat) := by
  intro n hn
  refine ⟨.inl (nextIs_mk _ _ _ (.inr rfl)), ?_⟩
  revert n; decide +kernel

/-- Commands and operands at the bounds of rules R234, R235. -/
def admittedOperands : List (Instr × Byte × Word) :=
  [(.rc, 1, 1), (.rc, 247, 2000), (.rhr, 1, 1), (.rhr, 247, 125), (.rir, 1, 1), (.rir, 247, 125), (.wsc, 1, 0),
    (.wsr, 247, 0xFFFF), (.wmc, 1, 1), (.wmc, 247, 1968), (.wmr, 1, 1), (.wmr, 247, 123)]

def refusedOperands : List (Instr × Byte × Word) :=
  [(.rc, 1, 0), (.rc, 1, 2001), (.rhr, 0, 1), (.rhr, 248, 1), (.rhr, 1, 126), (.rir, 1, 0), (.rir, 1, 126), (.wsc, 0, 1),
    (.wsr, 255, 1), (.wmc, 1, 0), (.wmc, 1, 1969), (.wmr, 1, 0), (.wmr, 1, 124)]

theorem witness_IssueEntersWaitLock :
    (∀ x ∈ admittedOperands, InHand (mk (idle false false (ops x.2.1 0 x.2.2)) [])
      (idle false false (ops x.2.1 0 x.2.2)) (ops x.2.1 0 x.2.2) ∧ (ops x.2.1 0 x.2.2).phase = .free ∧
      x.1.isModbus = true ∧ Admitted x.1 (ops x.2.1 0 x.2.2)) ∧
    InHand (mk (idle false false (ops 0 0 0)) []) (idle false false (ops 0 0 0)) (ops 0 0 0) := by
  refine ⟨fun x hx => ⟨inHand_mk _ rfl, rfl, ?_, ?_⟩, inHand_mk _ rfl⟩
  · revert x; decide
  · unfold Admitted; revert x; decide

theorem witness_IssueRejectsOperands :
    ∀ x ∈ refusedOperands, InHand (mk (idle false false (ops x.2.1 0 x.2.2)) [])
      (idle false false (ops x.2.1 0 x.2.2)) (ops x.2.1 0 x.2.2) ∧ (ops x.2.1 0 x.2.2).phase = .free ∧
      (idle false false (ops x.2.1 0 x.2.2)).ps.owner ≠ some 0 ∧ x.1.isModbus = true ∧
      ¬ Admitted x.1 (ops x.2.1 0 x.2.2) := by
  intro x hx
  refine ⟨inHand_mk _ rfl, rfl, by decide +revert, ?_, ?_⟩
  · revert x; decide
  · unfold Admitted; revert x; decide

theorem witness_CrcComputesBuffer :
    ∀ q ∈ [(0 : Word), 250, 251], InHand (buffer q []) (idle false false { ops 0 0 q with data := Vector.ofFn fun _ => 0 })
        { ops 0 0 q with data := Vector.ofFn fun _ => 0 } ∧ (ops 0 0 q).phase = .free ∧
      (idle false false (ops 0 0 q)).ps.owner ≠ some 0 ∧ (q.toNat ≤ 250 ∨ 250 < q.toNat) := by
  intro q hq
  exact ⟨⟨rfl, rfl⟩, rfl, by simp [idle, PortState.reset], by omega⟩

theorem witness_CrcchkChecksBuffer :
    ∀ q ∈ [(1 : Word), 2, 250, 251], InHand (mk (idle false false (ops 0 0 q)) []) (idle false false (ops 0 0 q))
        (ops 0 0 q) ∧ (ops 0 0 q).phase = .free ∧ (idle false false (ops 0 0 q)).ps.owner ≠ some 0 ∧
      ((2 ≤ q.toNat ∧ q.toNat ≤ 250) ∨ q.toNat < 2 ∨ 250 < q.toNat) := by
  intro q hq
  exact ⟨inHand_mk _ rfl, rfl, by simp [idle, PortState.reset], by omega⟩

theorem grantable_mk (de init : Bool) (i : Instr) (sl : Byte) (a q : Word) :
    Grantable (mk (idle de init (waiting i sl a q)) []) (idle de init (waiting i sl a q)) (waiting i sl a q) :=
  ⟨inHand_mk _ rfl, rfl, rfl⟩

/-- `open` answers success in `mk`; failure is the same state with the other answer. -/
theorem witness_InitGrantOpensPort :
    Grantable (mk (idle false true (waiting .init 0 0 0)) []) (idle false true (waiting .init 0 0 0)) (waiting .init 0 0 0) ∧
      (idle false true (waiting .init 0 0 0)).ps.init = true ∧
    Grantable (mk (idle false false (waiting .init 0 0 0)) []) (idle false false (waiting .init 0 0 0)) (waiting .init 0 0 0) ∧
      (idle false false (waiting .init 0 0 0)).ps.init = false ∧
      (mk (idle false false (waiting .init 0 0 0)) []).sel.openOk = true ∧
    Grantable ((mk (idle false false (waiting .init 0 0 0)) []).select 0 0 false 0) (idle false false (waiting .init 0 0 0))
      (waiting .init 0 0 0) ∧
      ((mk (idle false false (waiting .init 0 0 0)) []).select 0 0 false 0).sel.openOk = false :=
  ⟨grantable_mk _ _ _ _ _ _, rfl, grantable_mk _ _ _ _ _ _, rfl, rfl, ⟨⟨rfl, rfl⟩, rfl, rfl⟩, rfl⟩

theorem witness_DeinitGrantClosesPort :
    Grantable (mk (idle false true (waiting .deinit 0 0 0)) []) (idle false true (waiting .deinit 0 0 0)) (waiting .deinit 0 0 0) ∧
      (idle false true (waiting .deinit 0 0 0)).ps.init = true ∧
    Grantable (mk (idle false false (waiting .deinit 0 0 0)) []) (idle false false (waiting .deinit 0 0 0))
      (waiting .deinit 0 0 0) ∧ (idle false false (waiting .deinit 0 0 0)).ps.init = false :=
  ⟨grantable_mk _ _ _ _ _ _, rfl, grantable_mk _ _ _ _ _ _, rfl⟩

theorem witness_GrantUninitialisedPort :
    Grantable (mk (idle false false (waiting .wmr 1 0 1)) []) (idle false false (waiting .wmr 1 0 1)) (waiting .wmr 1 0 1) ∧
      Instr.wmr.isModbus = true ∧ (idle false false (waiting .wmr 1 0 1)).ps.init = false :=
  ⟨grantable_mk _ _ _ _ _ _, rfl, rfl⟩

theorem witness_GrantLatchesAndBuilds :
    Grantable (mk (idle false true (waiting .wmr 1 0 1)) []) (idle false true (waiting .wmr 1 0 1)) (waiting .wmr 1 0 1) ∧
      Instr.wmr.isModbus = true ∧ (idle false true (waiting .wmr 1 0 1)).ps.init = true :=
  ⟨grantable_mk _ _ _ _ _ _, rfl, rfl⟩

/-- A request of each function code; the longest register write of the clause's range. -/
theorem witness_BuildFrames :
    ∀ i ∈ [Instr.rc, .rhr, .rir, .wsc, .wsr, .wmc, .wmr], (latchRequest (waiting i 1 0 125)).op = i.op ∧
      (latchRequest (waiting i 1 0 125)).qty.toNat ≤ 125 := by decide

theorem witness_PayloadOrderAgrees : (125 : Nat) ≤ 125 ∧ (250 : Nat) ≤ 250 ∧ (249 : Nat) < 250 := by decide

/-- Codes at the ends of each run of named ones, and the codes beside them. -/
theorem witness_ExceptionCodesMapOneToOne :
    (∀ e ∈ [(0x01 : Byte), 0x06, 0x0A, 0x0B], e ∈ ([0x01, 0x02, 0x03, 0x04, 0x05, 0x06, 0x0A, 0x0B] : List Byte)) ∧
      ∀ e ∈ [(0x00 : Byte), 0x07, 0x09, 0x0C, 0xFF],
        e ∉ ([0x01, 0x02, 0x03, 0x04, 0x05, 0x06, 0x0A, 0x0B] : List Byte) := by decide

theorem witness_RequestLengths :
    ∀ x ∈ admittedOperands, x.1.isModbus = true ∧ Admitted x.1 (waiting x.1 x.2.1 0 x.2.2) ∧
      decode (waiting x.1 x.2.1 0 x.2.2).cmd = .command x.1 := by
  unfold Admitted; decide

/-- Each form at its length; a frame of exactly RX_BUF_CAP bytes (byte count 250, capacity 255) and one cut there (byte
count 255, capacity 255). -/
theorem witness_FrameEndsAtExpectedLength :
    ([0x01, 0x03, 0x02, 0x12, 0x34, 0xB5, 0x33] : List Byte).length ≤ 256 ∧
      (byteAt [0x01, 0x03, 0x02, 0x12, 0x34, 0xB5, 0x33] 1 &&& 0x80) = 0 ∧
      ([0x01, 0x03, 0x02, 0x12, 0x34, 0xB5, 0x33] : List Byte).length =
        5 + (byteAt [0x01, 0x03, 0x02, 0x12, 0x34, 0xB5, 0x33] 2).toNat ∧
    (byteAt [0x01, 0x10, 0x00, 0x01, 0x00, 0x02, 0x10, 0x08] 1 &&& 0x80) = 0 ∧
    (byteAt [0x01, 0x83, 0x02, 0xC0, 0xF1] 1 &&& 0x80) ≠ 0 ∧
    ([0x01, 0x03, 0xFA] ++ List.replicate 252 (0 : Byte)).length = 255 ∧
      255 = 5 + (byteAt ([0x01, 0x03, 0xFA] ++ List.replicate 252 0) 2).toNat ∧
    255 ≤ ([0x01, 0x03, 0xFF] ++ List.replicate 257 (0 : Byte)).length ∧
      255 < 5 + (byteAt ([0x01, 0x03, 0xFF] ++ List.replicate 257 0) 2).toNat := by decide +kernel

/-- 41_adu_codec.md R171 at the capacity: 255 bytes are complete there, 254 are not. -/
theorem test_frame_cut_at_capacity :
    frameComplete ([0x01, 0x03, 0xFF] ++ List.replicate 252 0) 0x03 255 = true ∧
      frameComplete ([0x01, 0x03, 0xFF] ++ List.replicate 251 0) 0x03 255 = false := by decide +kernel

theorem witness_ParseFirstFailureDecides :
    crcOk [0x01, 0x03, 0x02, 0x12, 0x34, 0xB5, 0x34] = false ∧
      crcOk [0x02, 0x83, 0x02, 0x30, 0xF1] = true ∧ byteAt [0x02, 0x83, 0x02, 0x30, 0xF1] 0 ≠ (rhrReq 1).slave ∧
      crcOk [0x01, 0x83, 0x02, 0xC0, 0xF1] = true ∧ byteAt [0x01, 0x83, 0x02, 0xC0, 0xF1] 0 = (rhrReq 1).slave ∧
      (byteAt [0x01, 0x83, 0x02, 0xC0, 0xF1] 1 &&& 0x80) ≠ 0 := by decide +kernel

/-- `rx` passes every check before that of the function code, and that one exactly if `fc`. -/
def passesTo (rx : List Byte) (op : Byte) (fc : Bool) : Bool :=
  decide (5 ≤ rx.length) && crcOk rx && (byteAt rx 0 == 1) && ((byteAt rx 1 &&& 0x80) == 0) &&
    (((byteAt rx 1 &&& 0x7F) == op) == fc)

/-- The checks R177 to R180, each with a frame that fails it first, and a write response that passes. -/
theorem witness_ParseFirstFailureDecides_later_checks :
    passesTo [0x01, 0x04, 0x02, 0x12, 0x34, 0xB4, 0x47] 0x03 false = true ∧
    passesTo [0x01, 0x03, 0x02, 0x00, 0xF0, 0xB8] 0x03 true = true ∧ 5 + 2 ≠ 6 ∧
    passesTo [0x01, 0x03, 0x04, 0x00, 0x03, 0x00, 0x04, 0x0B, 0xF0] 0x03 true = true ∧ 5 + 4 = 9 ∧
      4 ≠ 2 * (1 : Word).toNat ∧
    passesTo [0x01, 0x01, 0x01, 0x00, 0x51, 0x88] 0x01 true = true ∧ 5 + 1 = 6 ∧ 1 ≠ ((9 : Word).toNat + 7) / 8 ∧
    passesTo [0x01, 0x10, 0x00, 0x01, 0x00, 0x1C, 0x90] 0x10 true = true ∧
    passesTo [0x01, 0x10, 0x00, 0x01, 0x00, 0x02, 0x10, 0x08] 0x10 true = true := by decide +kernel

theorem witness_ReadResponseRoundTrip :
    (rhrReq 125).op = 0x03 ∧ (List.replicate 250 (0x5A : Byte)).length = readByteCount (rhrReq 125) ∧
      readByteCount (rhrReq 125) ≤ 250 ∧ readByteCount { op := 0x01, slave := 1, addr := 0, qty := 2000 } = 250 := by
  decide +kernel

theorem witness_WriteEchoAccepted : ∀ i ∈ [Instr.wsc, .wsr, .wmc, .wmr],
    i.op = 0x05 ∨ i.op = 0x06 ∨ i.op = 0x0F ∨ i.op = 0x10 := by decide

theorem witness_CrcDetectsAnyByteChange : ∀ k ∈ [0, 7],
    k < (appendCrc [0x01, 0x03, 0x00, 0x0A, 0x00, 0x01]).length ∧
      (0x55 : Byte) ≠ byteAt (appendCrc [0x01, 0x03, 0x00, 0x0A, 0x00, 0x01]) k := by decide +kernel

theorem witness_CorruptedByteIsNeverAccepted : ∀ k ∈ [0, 4],
    5 ≤ ([0x01, 0x83, 0x02, 0xC0, 0xF1] : List Byte).length ∧ crcOk [0x01, 0x83, 0x02, 0xC0, 0xF1] = true ∧
      k < ([0x01, 0x83, 0x02, 0xC0, 0xF1] : List Byte).length ∧
      (0x00 : Byte) ≠ byteAt [0x01, 0x83, 0x02, 0xC0, 0xF1] k := by decide +kernel

/-- The channel of a transaction whose first write step is made. -/
def sentChan (i : Instr) (sl : Byte) (a q : Word) : Channel :=
  countAttempt { waiting i sl a q with phase := .active }

theorem running_after (de : Bool) (i : Instr) (sl : Byte) (a q : Word) (f : PortState → PortState)
    (h : ((after de i sl a q f).ps.owner) = some 0) :
    Running (mk (after de i sl a q f) []) (after de i sl a q f) (sentChan i sl a q) :=
  ⟨⟨rfl, rfl⟩, rfl, h⟩

/-- A full write, with and without direction-enable, one answered above TXLEN (9), and a short one (7 of 8 bytes). -/
theorem witness_WriteStepTransmits :
    ∀ de ∈ [true, false], Running (mk (busy de .rhr 1 0 1) []) (busy de .rhr 1 0 1)
        { waiting .rhr 1 0 1 with phase := .active } ∧
      (busy de .rhr 1 0 1).ps.seq = .sending ∧ (busy de .rhr 1 0 1).ps.txph = .start ∧
      (busy de .rhr 1 0 1).cfg.dePresent = de ∧
      (busy de .rhr 1 0 1).ps.txlen ≤ (mk (busy de .rhr 1 0 1) []).sel.accepted ∧
      ((mk (busy de .rhr 1 0 1) []).select 0 0 true 7).sel.accepted < (busy de .rhr 1 0 1).ps.txlen ∧
      (busy de .rhr 1 0 1).ps.txlen < ((mk (busy de .rhr 1 0 1) []).select 0 0 true 9).sel.accepted ∧
      Running ((mk (busy de .rhr 1 0 1) []).select 0 0 true 9) (busy de .rhr 1 0 1)
        { waiting .rhr 1 0 1 with phase := .active } := by
  intro de hde
  refine ⟨⟨⟨rfl, rfl⟩, rfl, rfl⟩, rfl, rfl, rfl, ?_, ?_, ?_, ⟨⟨rfl, rfl⟩, rfl, rfl⟩⟩ <;> (revert de; decide +kernel)

theorem witness_ByteReadStepReceives :
    Running (mk ((rhrAfter enterAwaiting).setLine [0x01, 0x03]) []) ((rhrAfter enterAwaiting).setLine [0x01, 0x03])
        (sentChan .rhr 1 0 1) ∧
      ((rhrAfter enterAwaiting).setLine [0x01, 0x03]).ps.seq = .awaiting ∧
      ((rhrAfter enterAwaiting).setLine [0x01, 0x03]).env.lineRx = 0x01 :: [0x03] ∧
      ((rhrAfter enterAwaiting).setLine [0x01, 0x03]).ps.rxlen ≤
        ((rhrAfter enterAwaiting).setLine [0x01, 0x03]).ps.rxbuf.length :=
  ⟨⟨⟨rfl, rfl⟩, rfl, rfl⟩, rfl, rfl, by decide +kernel⟩

/-- Each result of the validation: timed out with no byte, OK, CRC error, another slave, exception. -/
theorem witness_ValidationStepClassifies :
    (∀ rx : List Byte, Running (mk (rhrAfter (withResponse rx .validating)) []) (rhrAfter (withResponse rx .validating))
      (sentChan .rhr 1 0 1) ∧ (rhrAfter (withResponse rx .validating)).ps.seq = .validating) ∧
    Running (mk (rhrAfter fun ps => { ps with seq := .validating, timedOut := true }) [])
      (rhrAfter fun ps => { ps with seq := .validating, timedOut := true }) (sentChan .rhr 1 0 1) ∧
      (rhrAfter fun ps => { ps with seq := .validating, timedOut := true }).ps.rxlen = 0 ∧
    parse [0x01, 0x03, 0x02, 0x12, 0x34, 0xB5, 0x33] (rhrAfter id).ps.req = .ok ∧
    parse [0x01, 0x03, 0x02, 0x12, 0x34, 0xB5, 0x34] (rhrAfter id).ps.req = .crcError ∧
    parse [0x02, 0x03, 0x02, 0x12, 0x34, 0xF1, 0x33] (rhrAfter id).ps.req = .unexpectedResponse ∧
    parse [0x01, 0x83, 0x02, 0xC0, 0xF1] (rhrAfter id).ps.req = .exception 0x02 :=
  ⟨fun _ => ⟨running_after _ _ _ _ _ _ rfl, rfl⟩, running_after _ _ _ _ _ _ rfl, rfl, by decide +kernel,
    by decide +kernel, by decide +kernel, by decide +kernel⟩

/-- The backoff at its last tick and one before it. -/
theorem witness_RetryStepAfterBackoff :
    ∀ t : Nat, Running (mk (rhrAfter fun ps => { ps with seq := .retryable, timer := t }) [])
      (rhrAfter fun ps => { ps with seq := .retryable, timer := t }) (sentChan .rhr 1 0 1) ∧
      (rhrAfter fun ps => { ps with seq := .retryable, timer := t }).ps.seq = .retryable ∧
      ((prmOf (some 50)).retryBackoffMs ≤ 10 ∧ 9 < (prmOf (some 50)).retryBackoffMs) :=
  fun _ => ⟨running_after _ _ _ _ _ _ rfl, rfl, by decide⟩

theorem witness_FatalStepReportsLastStatus :
    Running (mk (rhrAfter fun ps => { ps with seq := .fatal, last := .timeout }) [])
      (rhrAfter fun ps => { ps with seq := .fatal, last := .timeout }) (sentChan .rhr 1 0 1) ∧
      (rhrAfter fun ps => { ps with seq := .fatal, last := .timeout }).ps.seq = .fatal :=
  ⟨running_after _ _ _ _ _ _ rfl, rfl⟩

/-- A command in SUCCESS with an accepted response. -/
def Accepted (i : Instr) (sl : Byte) (a q : Word) (rx : List Byte) : Prop :=
  Running (mk (after false i sl a q (withResponse rx .success)) []) (after false i sl a q (withResponse rx .success))
      (sentChan i sl a q) ∧
    (after false i sl a q (withResponse rx .success)).ps.seq = .success ∧
    (after false i sl a q (withResponse rx .success)).ps.req.op = i.op ∧
    parse (rxFrame (after false i sl a q (withResponse rx .success)).ps)
      (after false i sl a q (withResponse rx .success)).ps.req = .ok

theorem witness_RegisterReadCompletes :
    Accepted .rhr 1 1 2 [0x01, 0x03, 0x04, 0, 3, 0, 4, 0x0B, 0xF0] ∧
      Accepted .rir 1 8 1 [0x01, 0x04, 0x02, 0x00, 0x0A, 0x39, 0x37] :=
  ⟨⟨running_after _ _ _ _ _ _ rfl, rfl, rfl, by decide +kernel⟩,
    ⟨running_after _ _ _ _ _ _ rfl, rfl, rfl, by decide +kernel⟩⟩

theorem witness_CoilReadCompletes :
    Accepted .rc 0x11 0x13 37 [0x11, 0x01, 0x05, 0xCD, 0x6B, 0xB2, 0x0E, 0x1B, 0x45, 0xE6] :=
  ⟨running_after _ _ _ _ _ _ rfl, rfl, rfl, by decide +kernel⟩

theorem witness_WriteCompletes :
    Accepted .wsr 1 1 3 [0x01, 0x06, 0x00, 0x01, 0x00, 0x03, 0x98, 0x0B] ∧
      Accepted .wsc 1 0 1 [0x01, 0x05, 0x00, 0x00, 0xFF, 0x00, 0x8C, 0x3A] ∧
      Accepted .wmr 1 1 2 [0x01, 0x10, 0, 1, 0, 2, 0x10, 0x08] ∧
      Accepted .wmc 0x11 0x13 10 [0x11, 0x0F, 0x00, 0x13, 0x00, 0x0A, 0x26, 0x99] :=
  ⟨⟨running_after _ _ _ _ _ _ rfl, rfl, rfl, by decide +kernel⟩,
    ⟨running_after _ _ _ _ _ _ rfl, rfl, rfl, by decide +kernel⟩,
    ⟨running_after _ _ _ _ _ _ rfl, rfl, rfl, by decide +kernel⟩,
    ⟨running_after _ _ _ _ _ _ rfl, rfl, rfl, by decide +kernel⟩⟩

/-- Every command makes a step on every port and channel in hand. -/
theorem witness_CommandFrame : ∀ i ∈ Instr.all,
    InHand (mk (busy false .rhr 1 0 1) []) (busy false .rhr 1 0 1) { waiting .rhr 1 0 1 with phase := .active } ∧
      ∃ t, exec i (mk (busy false .rhr 1 0 1) []) = .next t :=
  fun i _ => ⟨⟨rfl, rfl⟩, _, exec_inHand i ⟨rfl, rfl⟩⟩

/-- The lock wait one tick before its bound and at it, and a channel that does not wait. -/
theorem witness_TickCountsLockWaits :
    ∀ w : Nat, NextIs (mk (idle false true { waiting .rhr 1 0 1 with wait := w }) [.tick]) .tick [] ∧
      (idle false true { waiting .rhr 1 0 1 with wait := w }).chans[0]? = some { waiting .rhr 1 0 1 with wait := w } ∧
      (prmOf (some 50)).lockWaitMs = some 50 ∧ 48 + 1 < 50 ∧ 50 ≤ 49 + 1 ∧ (prmOf none).lockWaitMs = none ∧
      (idle false true { waiting .rhr 1 0 1 with wait := w }).chans[1]? = some Channel.reset ∧
      Channel.reset.phase ≠ .waitLock :=
  fun _ => ⟨nextIs_mk _ _ _ (.inr rfl), rfl, rfl, by decide, by decide, rfl, rfl, by decide⟩

/-- TX_WAIT, AWAITING and RETRYABLE at both sides of each bound, and an idle port: states of the invariant. -/
theorem witness_TickDrivesTimers :
    (∀ t ∈ [3, 4],
      Inv (mk (after true .rhr 1 0 1 fun ps => { ps with txph := .wait, de := true, timer := t }) [.tick]) ∧
      NextIs (mk (after true .rhr 1 0 1 fun ps => { ps with txph := .wait, de := true, timer := t }) [.tick]) .tick []) ∧
    (∀ t ∈ [98, 99], Inv (mk (rhrAfter fun ps => { ps with seq := .awaiting, timer := t }) [.tick]) ∧
      NextIs (mk (rhrAfter fun ps => { ps with seq := .awaiting, timer := t }) [.tick]) .tick []) ∧
    (∀ t ∈ [9, 10],
      Inv (mk (rhrAfter fun ps => { ps with seq := .retryable, timer := t, last := .timeout }) [.tick]) ∧
      NextIs (mk (rhrAfter fun ps => { ps with seq := .retryable, timer := t, last := .timeout }) [.tick]) .tick []) ∧
    (prmOf (some 50)).txcTimeoutMs = some 5 ∧ 3 + 1 < 5 ∧ 5 ≤ 4 + 1 ∧ 98 + 1 < (cfgOf false).respTimeoutMs ∧
      (cfgOf false).respTimeoutMs ≤ 99 + 1 ∧
    Inv (mk (idle false true (ops 1 0 1)) [.tick]) ∧
      NextIs (mk (idle false true (ops 1 0 1)) [.tick]) .tick [] := by
  refine ⟨fun t ht => ⟨inv_of_check ?_, nextIs_mk _ _ _ (.inl rfl)⟩, fun t ht => ⟨inv_of_check ?_, nextIs_mk _ _ _ (.inr rfl)⟩,
    fun t ht => ⟨inv_of_check ?_, nextIs_mk _ _ _ (.inr rfl)⟩, rfl, by decide, by decide, by decide, by decide,
    inv_of_check (by decide +kernel), nextIs_mk _ _ _ (.inr rfl)⟩ <;> (revert t; decide +kernel)

theorem witness_LineEvents :
    NextIs (mk (after true .rhr 1 0 1 fun ps => { ps with txph := .wait, de := true }) [.txc 0]) (.txc 0) [] ∧
      (after true .rhr 1 0 1 fun ps => { ps with txph := .wait, de := true }).ps.seq = .sending ∧
    NextIs (mk (idle false true (ops 1 0 1)) [.txc 0]) (.txc 0) [] ∧ (idle false true (ops 1 0 1)).ps.seq = .idle ∧
    (∀ o ∈ [true, false], NextIs (mk (idle false o (ops 1 0 1)) [.rx 0 0x5A]) (.rx 0 0x5A) [] ∧
      (idle false o (ops 1 0 1)).ps.init = o) :=
  ⟨nextIs_mk _ _ _ (.inl rfl), rfl, nextIs_mk _ _ _ (.inr rfl), rfl, fun _ _ => ⟨nextIs_mk _ _ _ (.inr rfl), rfl⟩⟩

theorem witness_ResetValues :
    (State.resetWith Config.reference).ports[0]? = some (Port.reset 2 (cfgOf false)) ∧
      (Port.reset 2 (cfgOf false)).chans[1]? = some Channel.reset := by decide +kernel

theorem witness_IllegalConfigurationRefused :
    ({ Config.reference with ports := [] } : Config).legal = false ∧
      ({ Config.reference with ports := [{ cfgOf false with dataBits := 9 }] } : Config).legal = false ∧
      Config.reference.legal = true ∧
      (State.resetWith { Config.reference with ports := [] }).config.legal = false := by decide

/-- A state of the invariant with a step that answers a next state, for every kind of step. -/
theorem witness_StepKeepsInvariant :
    Inv State.reset ∧ Inv (mk (busy false .rhr 1 0 1) [.sequencer 0 8]) ∧
      (∃ t, step (mk (busy false .rhr 1 0 1) [.sequencer 0 8]) = .next t) :=
  ⟨inv_of_check (by decide +kernel), inv_of_check (by decide +kernel), _, rfl⟩

theorem witness_InvariantGivesR64 :
    Inv (mk (busy false .rhr 1 0 1) []) ∧ busy false .rhr 1 0 1 ∈ (mk (busy false .rhr 1 0 1) []).ports ∧
      (busy false .rhr 1 0 1).ps.owner = some 0 ∧
      (busy false .rhr 1 0 1).chans[0]? = some { waiting .rhr 1 0 1 with phase := .active } :=
  ⟨inv_of_check (by decide +kernel), by simp [mk], rfl, rfl⟩

/-- Port 0 of a two-port block, its sequencer step next, and the same with another port 1. -/
def twoPorts (v : Port) : State :=
  { mk (busy false .rhr 1 0 1) [.sequencer 0 8] with ports := [busy false .rhr 1 0 1, v] }

/-- Also for `ConfigurationNeverWritten`. -/
theorem witness_PortsAreIndependent :
    (∃ t, step (twoPorts (idle false true (ops 1 0 1))) = .next t) ∧
      (∃ t, step (twoPorts (idle true false (ops 7 7 7))) = .next t) ∧
      (twoPorts (idle false true (ops 1 0 1))).nextAction ≠ .tick ∧
      touchedPort (prmOf (some 50)) (twoPorts (idle false true (ops 1 0 1))).nextAction ≠ some 1 ∧
      (twoPorts (idle true false (ops 7 7 7))).nextAction = (twoPorts (idle false true (ops 1 0 1))).nextAction ∧
      (twoPorts (idle true false (ops 7 7 7))).ports[0]? = (twoPorts (idle false true (ops 1 0 1))).ports[0]? :=
  ⟨⟨_, rfl⟩, ⟨_, rfl⟩, by simp [State.nextAction, twoPorts, mk], by simp [State.nextAction, twoPorts, mk, touchedPort],
    rfl, rfl⟩

/-- The line queue and the owner of port 0 after a step. -/
def lineView (o : Host.Outcome State Fault Refusal) : Option (List Byte × Option Nat) :=
  chanView (fun u _ => (u.env.lineRx, u.ps.owner)) o

/-- The write step with stale bytes on the line, the byte read in AWAITING, DEINIT on a free lock, the FATAL step. -/
theorem witness_TransmitOnlyUnderLock :
    Inv (mk ((busy false .rhr 1 0 1).setLine [0x5A]) [.sequencer 0 8]) ∧
      chanView (fun u _ => u.ps.txlog) (step (mk ((busy false .rhr 1 0 1).setLine [0x5A]) [.sequencer 0 8])) =
        some [[0x01, 0x03, 0x00, 0x00, 0x00, 0x01, 0x84, 0x0A]] ∧ (busy false .rhr 1 0 1).ps.txlog = [] ∧
      lineView (step (mk ((busy false .rhr 1 0 1).setLine [0x5A]) [.sequencer 0 8])) = some ([], some 0) ∧
    Inv (mk ((rhrAfter enterAwaiting).setLine [0x01, 0x03]) [.sequencer 0 0]) ∧
      lineView (step (mk ((rhrAfter enterAwaiting).setLine [0x01, 0x03]) [.sequencer 0 0])) = some ([0x03], some 0) ∧
    Inv (mk ((idle false true (waiting .deinit 0 0 0)).setLine [0x5A]) [.grant 0 0 true]) ∧
      lineView (step (mk ((idle false true (waiting .deinit 0 0 0)).setLine [0x5A]) [.grant 0 0 true])) =
        some ([], none) ∧
    Inv (mk (rhrAfter fun ps => { ps with seq := .fatal, last := .timeout }) [.sequencer 0 0]) ∧
      lineView (step (mk (rhrAfter fun ps => { ps with seq := .fatal, last := .timeout }) [.sequencer 0 0])) =
        some ([], none) :=
  ⟨inv_of_check (by decide +kernel), by decide +kernel, rfl, by decide +kernel, inv_of_check (by decide +kernel),
    by decide +kernel, inv_of_check (by decide +kernel), by decide +kernel, inv_of_check (by decide +kernel),
    by decide +kernel⟩

theorem witness_OnlyInitOpensPort :
    chanView (fun u _ => u.ps.init) (step (mk (idle false false (waiting .init 0 0 0)) [.grant 0 0 true])) = some true ∧
      (idle false false (waiting .init 0 0 0)).ps.init = false := by decide +kernel

/-- A completed command, with a tick, a byte on the line or a write to another register next. -/
theorem witness_StatusStaysUntilNextCommand :
    ∀ a ∈ [Action.tick, .rx 0 0x5A, .hostWrite ⟨0, 0, 2⟩ 7, .hostWrite ⟨0, 1, 0⟩ 0x00F0],
      Inv (mk (idle false true { ops 1 0 1 with done := true, status := .timeout }) [a]) ∧
      chanView (fun _ ch => ch.done) (step (mk (idle false true { ops 1 0 1 with done := true, status := .timeout }) [a])) =
        some true ∧
      (∀ v, a ≠ .hostWrite ⟨0, 0, 0⟩ v) ∧ ∀ b v, a ≠ .busWrite b v := by
  intro a ha
  refine ⟨inv_of_check ?_, ?_, ?_, ?_⟩
  · show ([idle false true { ops 1 0 1 with done := true, status := .timeout }].all (portCheck (prmOf (some 50)))) = true
    decide +kernel
  · revert a; decide +kernel
  all_goals
    simp only [List.mem_cons, List.not_mem_nil, or_false] at ha
    rcases ha with rfl | rfl | rfl | rfl <;> simp

theorem witness_CompletionReleasesLock :
    Inv (mk (rhrAfter fun ps => { ps with seq := .fatal, last := .timeout }) [.sequencer 0 0]) ∧
      csrAfter (step (mk (rhrAfter fun ps => { ps with seq := .fatal, last := .timeout }) [.sequencer 0 0])) =
        some 0x0602 ∧ (sentChan .rhr 1 0 1).phase = .active :=
  ⟨inv_of_check (by decide +kernel), by decide +kernel, rfl⟩

theorem witness_QuiescentBlockIsStill :
    Inv (mk (idle false true (ops 1 0 1)) [.tick]) ∧ Quiescent (mk (idle false true (ops 1 0 1)) [.tick]) ∧
      (∃ t, step (mk (idle false true (ops 1 0 1)) [.tick]) = .next t) ∧
      (mk (idle false true (ops 1 0 1)) [.tick]).nextAction = .tick :=
  ⟨inv_of_check (by decide +kernel), by unfold Quiescent; decide, ⟨_, rfl⟩, rfl⟩

theorem witness_ExceptionIsNotRetried :
    Inv (mk (rhrAfter (withResponse [0x01, 0x83, 0x02, 0xC0, 0xF1] .validating)) [.sequencer 0 0, .sequencer 0 0]) ∧
      NextIs (mk (rhrAfter (withResponse [0x01, 0x83, 0x02, 0xC0, 0xF1] .validating)) [.sequencer 0 0, .sequencer 0 0])
        (.sequencer 0 0) (.sequencer 0 0 :: []) ∧
      (rhrAfter (withResponse [0x01, 0x83, 0x02, 0xC0, 0xF1] .validating)).ps.owner = some 0 ∧
      parse [0x01, 0x83, 0x02, 0xC0, 0xF1] (rhrAfter id).ps.req = .exception 0x02 :=
  ⟨inv_of_check (by decide +kernel), nextIs_mk _ _ _ (.inr rfl), rfl, by decide +kernel⟩

theorem witness_SilentSlaveEndsInTimeout :
    Inv (mk (busy false .rhr 1 0 1) (silentTransaction 0 8 100 10 2)) ∧
      (mk (busy false .rhr 1 0 1) (silentTransaction 0 8 100 10 2)).config.legal = true ∧
      (busy false .rhr 1 0 1).ps.owner = some 0 ∧ (busy false .rhr 1 0 1).ps.seq = .sending ∧
      (busy false .rhr 1 0 1).ps.txph = .start ∧ (busy false .rhr 1 0 1).cfg.dePresent = false ∧
      (busy false .rhr 1 0 1).ps.retriesLeft = (busy false .rhr 1 0 1).cfg.maxRetries ∧
      (busy false .rhr 1 0 1).ps.txlen = 8 ∧ (busy false .rhr 1 0 1).cfg.respTimeoutMs = 100 :=
  ⟨inv_of_check (by decide +kernel), by decide, rfl, rfl, rfl, rfl, rfl, by decide +kernel, rfl⟩

theorem witness_AnsweredRegisterRead :
    Inv (mk (idle false true (ops 9 9 9)) (programActions 0 0 [.modbus .rhr 1 1 2] ++
        answeredTransaction 0 0 8 (appendCrc ([0x01, 0x03, 0x04] ++ [0, 3, 0, 4])))) ∧
      (mk (idle false true (ops 9 9 9)) []).config.legal = true ∧ (ops 9 9 9).phase = .free ∧
      (idle false true (ops 9 9 9)).ps.owner = none ∧ (idle false true (ops 9 9 9)).ps.init = true ∧
      (idle false true (ops 9 9 9)).cfg.dePresent = false ∧ (1 : Word).toNat ≤ 247 ∧
      [(3 : Word), 4].flatMap be16 = [0, 3, 0, 4] :=
  ⟨inv_of_check (by decide +kernel), by decide, rfl, rfl, rfl, rfl, by decide, by decide⟩

/-- A tick from `s`, and then steps that are not enabled (no command waits on channel 1). -/
def tickRun (s : State) (n : Nat) : State := match n with | 0 => s | _ + 1 => tickStep s
def tickActions (n : Nat) : Action := match n with | 0 => .tick | _ + 1 => .grant 0 1 true

theorem isRun_tick {s : State} (h1 : step { s with pending := [.tick] } = .next (tickStep s))
    (h2 : step { tickStep s with pending := [.grant 0 1 true] } = .next (tickStep s)) : IsRun tickActions (tickRun s) := by
  intro n
  rcases n with _ | n
  · exact h1
  · exact h2

/-- The last tick of each wait: of the lock wait, of TX_WAIT, of AWAITING. -/
def lockTick : State := mk (idle false true { waiting .wsr 1 1 3 with wait := 49 }) []
def txTick : State := mk (after true .rhr 1 0 1 fun ps => { ps with txph := .wait, de := true, timer := 4 }) []
def rxTick : State := mk (rhrAfter fun ps => { ps with seq := .awaiting, timer := 99 }) []

theorem witness_TicksWithinBounds :
    (IsRun tickActions (tickRun lockTick) ∧ Inv (tickRun lockTick 0) ∧ lockTick.params.lockWaitMs = some 50 ∧
      ∀ j, j < 1 → (tickRun lockTick (0 + j)).phaseAt 0 0 = some .waitLock) ∧
    (IsRun tickActions (tickRun txTick) ∧ Inv (tickRun txTick 0) ∧ txTick.params.txcTimeoutMs = some 5 ∧
      ∀ j, j < 1 → ∃ v, (tickRun txTick (0 + j)).ports[0]? = some v ∧ v.ps.seq = .sending ∧ v.ps.txph = .wait) ∧
    (IsRun tickActions (tickRun rxTick) ∧ Inv (tickRun rxTick 0) ∧
      (∀ j, j < 1 → ∃ v, (tickRun rxTick (0 + j)).ports[0]? = some v ∧ v.ps.seq = .awaiting) ∧
      (∀ j, j < 1 → (tickRun rxTick (0 + j)).phaseAt 0 0 = some .active) ∧
      ∀ j v, j < 1 → tickActions (0 + j) = .tick → (tickRun rxTick (0 + j)).ports[0]? = some v →
        ¬ sequencerEnabled (tickRun rxTick (0 + j)).params v) := by
  have zero : ∀ j, j < 1 → 0 + j = 0 := by omega
  refine ⟨⟨isRun_tick rfl rfl, inv_of_check (by decide +kernel), rfl, fun j hj => ?_⟩,
    ⟨isRun_tick rfl rfl, inv_of_check (by decide +kernel), rfl, fun j hj => ?_⟩,
    ⟨isRun_tick rfl rfl, inv_of_check (by decide +kernel), fun j hj => ?_, fun j hj => ?_, fun j v hj _ hv => ?_⟩⟩
  · rw [zero j hj]; rfl
  · rw [zero j hj]; exact ⟨_, rfl, rfl, rfl⟩
  · rw [zero j hj]; exact ⟨_, rfl, rfl⟩
  · rw [zero j hj]; rfl
  · rw [zero j hj] at hv ⊢
    cases hv
    exact fun h => h rfl

/-- The total of R376 on the test configuration, with and without direction-enable (95_test_vectors.md 1.6, 2.7). -/
theorem test_transaction_ticks :
    transactionTicks (prmOf (some 50)) (cfgOf true) 5 = 3 * (5 + 100) + 2 * 10 ∧
      transactionTicks (prmOf (some 50)) (cfgOf false) 0 = 320 := by decide

/-- A run for `EveryCommandCompletes`: an INIT that waits for the free lock is granted, and then only ticks pass. -/
def runStart : State := mk (idle false false (waiting .init 0 0 0)) []

/-- The state after that grant. -/
def runRest : State :=
  { mk (setInit true (callConfigure (idle false false
      { waiting .init 0 0 0 with done := true, phase := .free }))) [] with
    sel := { port := 0, chan := 0, openOk := true, accepted := 0 } }

def runOf (n : Nat) : State := match n with | 0 => runStart | _ + 1 => runRest
def runActions (n : Nat) : Action := match n with | 0 => .grant 0 0 true | _ + 1 => .tick

theorem witness_EveryCommandCompletes :
    IsRun runActions runOf ∧ Fair runActions runOf ∧ Inv (runOf 0) ∧ (runOf 0).params.lockWaitMs = some 50 ∧
      (runOf 0).params.txcTimeoutMs = some 5 ∧ (runOf 0).ports[0]? = some (idle false false (waiting .init 0 0 0)) ∧
      (idle false false (waiting .init 0 0 0)).chans[0]? = some (waiting .init 0 0 0) ∧
      (waiting .init 0 0 0).phase ≠ .free := by
  have later : ∀ m, 1 ≤ m → runOf m = runRest ∧ runActions m = .tick := by
    intro m hm
    obtain ⟨k, rfl⟩ : ∃ k, m = k + 1 := ⟨m - 1, by omega⟩
    exact ⟨rfl, rfl⟩
  have calm : ∀ (p : Nat) (u : Port), runRest.ports[p]? = some u →
      u.ps.seq = .idle ∧ ∀ (c : Nat) (ch : Channel), u.chans[c]? = some ch → ch.phase = .free := by
    intro p u hu
    rcases p with _ | p
    · cases hu
      refine ⟨rfl, fun c ch hc => ?_⟩
      rcases c with _ | _ | c
      · cases hc; rfl
      · cases hc; rfl
      · cases hc
    · cases hu
  refine ⟨?_, ⟨?_, ?_, ?_⟩, inv_of_check (by decide +kernel), rfl, rfl, rfl, rfl, by decide⟩
  · intro n
    rcases n with _ | n <;> rfl
  · intro p n h
    obtain ⟨u, hu, he⟩ := h (n + 1) (by omega)
    rw [(later (n + 1) (by omega)).1] at hu
    simp [sequencerEnabled, (calm p u hu).1] at he
  · intro n
    exact ⟨n + 1, by omega, (later (n + 1) (by omega)).2⟩
  · intro p c n h
    obtain ⟨u, hu, -, ch, hc, hw⟩ := h (n + 1) (by omega)
    rw [(later (n + 1) (by omega)).1] at hu
    simp [(calm p u hu).2 c ch hc] at hw

end Sys2Proof.Tests
end

section
/-! Proofs of the family 10_state: the bits of CSR and PSR, and the legal configurations. -/

namespace Sys2Proof.Machine

/-! ### The bits of CSR and PSR (10_state.md R48, R57) -/

theorem csr_getLsbD (ch : Channel) (i : Nat) : ch.csr.getLsbD i =
    if i = 0 then ch.busy else if i = 1 then ch.done else if i < 8 then false else ch.status.code.getLsbD (i - 8) := by
  unfold Channel.csr
  change BitVec.getLsbD (w := 8 + 6 + 1 + 1) _ i = _
  simp only [BitVec.getLsbD_append, BitVec.getLsbD_ofBool]
  rcases i with _ | _ | i
  · simp
  · simp
  · have : i + 1 + 1 < 8 ↔ i < 6 := by omega
    simp [this]

theorem psr_getLsbD (ps : PortState) (c i : Nat) : (ps.psr c).getLsbD i =
    match i with
    | 0 => ps.init
    | 1 => decide (ps.owner ≠ none)
    | 2 => decide (ps.owner = some c)
    | 3 => false
    | 4 => ps.seq.code.getLsbD 0
    | 5 => ps.seq.code.getLsbD 1
    | 6 => ps.seq.code.getLsbD 2
    | 7 => ps.de
    | _ => false := by
  unfold PortState.psr
  change BitVec.getLsbD (w := 8 + 1 + 3 + 1 + 1 + 1 + 1) _ i = _
  simp only [BitVec.getLsbD_append, BitVec.getLsbD_ofBool]
  rcases i with _ | _ | _ | _ | _ | _ | _ | _ | i <;> simp

/-- Bit 0 of CSR is BUSY (R48), which is 1 exactly when PHASE is not FREE (R58). -/
theorem csr_busy (ch : Channel) : ch.csr.getLsbD 0 = true ↔ ch.phase ≠ .free := by
  rw [csr_getLsbD, if_pos rfl, Channel.busy, decide_eq_true_iff]

theorem csr_reserved (ch : Channel) : ch.csr.extractLsb' 2 6 = 0 := by
  ext i hi
  have h1 : 2 + i ≠ 0 := by omega
  have h2 : 2 + i ≠ 1 := by omega
  have h3 : 2 + i < 8 := by omega
  simp only [BitVec.getElem_extractLsb', csr_getLsbD, h1, h2, h3, if_true, if_false]
  simp

theorem csr_status (ch : Channel) : ch.csr.extractLsb' 8 8 = ch.status.code := by
  ext i hi
  have h1 : 8 + i ≠ 0 := by omega
  have h2 : 8 + i ≠ 1 := by omega
  have h3 : ¬ 8 + i < 8 := by omega
  simp only [BitVec.getElem_extractLsb', csr_getLsbD, h1, h2, h3, if_false, Nat.add_sub_cancel_left]
  exact BitVec.getLsbD_eq_getElem hi

theorem psr_seq (ps : PortState) (c : Nat) : (ps.psr c).extractLsb' 4 3 = ps.seq.code := by
  ext i hi
  rw [BitVec.getElem_extractLsb', psr_getLsbD, ← BitVec.getLsbD_eq_getElem hi]
  interval_cases i <;> rfl

theorem psr_reserved (ps : PortState) (c : Nat) : (ps.psr c).extractLsb' 8 8 = 0 := by
  ext i hi
  rw [BitVec.getElem_extractLsb', psr_getLsbD, Nat.add_comm]
  simp

/-! ### Legal configurations (10_state.md R31) -/

theorem portConfig_legal_iff (f : PortConfig) : f.legal = true ↔
    (f.dataBits = 7 ∨ f.dataBits = 8) ∧ (f.stopBits = 1 ∨ f.stopBits = 2) ∧ 1 ≤ f.baud ∧ 1 ≤ f.respTimeoutMs ∧
      255 ≤ f.rxBufCap ∧ 255 ≤ f.txBufCap := by
  simp [PortConfig.legal, and_assoc]

theorem boundLegal_iff (b : Option Nat) : boundLegal b = true ↔ ∀ n, b = some n → 1 ≤ n := by
  cases b <;> simp [boundLegal]

theorem config_legal_iff (c : Config) : c.legal = true ↔
    (∀ f ∈ c.ports, f.legal = true) ∧ 1 ≤ c.ports.length ∧ 1 ≤ c.params.numChannels ∧
      boundLegal c.params.lockWaitMs = true ∧ boundLegal c.params.txcTimeoutMs = true ∧
      (c.params.busMap.map Prod.fst).Nodup ∧ (c.params.busMap.map Prod.snd).Nodup := by
  simp only [Config.legal, Params.busMapInjective, Bool.and_eq_true, List.all_eq_true, decide_eq_true_iff, and_assoc]

theorem step_refused {s : State} (h : s.config.legal = false) : step s = .refused .illegalConfiguration := by
  simp [step, h]

/-- Settles O12, bit by bit. -/
theorem csrAndPsrBits : Obligations.CsrAndPsrBits := by
  refine ⟨fun ch => ⟨csr_busy ch, csr_getLsbD ch 1, csr_reserved ch, csr_status ch⟩, fun ps c => ?_, by decide,
    by decide, by decide, fun c => by simp [PortState.psr, PortState.reset, Seq.code]⟩
  have hbit := psr_getLsbD ps c
  exact ⟨hbit 0, by rw [hbit 1]; exact decide_eq_true_iff, by rw [hbit 2]; exact decide_eq_true_iff, hbit 3,
    psr_seq ps c, hbit 7, psr_reserved ps c⟩

/-- Settles O44, one conjunct of R31 at a time. -/
theorem illegalConfigurationRefused : Obligations.IllegalConfigurationRefused := by
  refine ⟨fun c => ?_, fun c h => by simp [State.initial, h], fun c h => by simp [State.initial, h],
    fun s h => step_refused h⟩
  simp only [config_legal_iff, portConfig_legal_iff, boundLegal_iff]

end Sys2Proof.Machine
end

section
/-! Proofs of the family 10_state: no step writes the configuration. -/

namespace Sys2Proof.Machine

section
variable {prm : Params} {u : Port} {c : Nat} {ch ch' : Channel}

/-! ### The configuration (10_state.md R32) -/

@[simp] theorem issueEffect_cfg (i : Instr) : (issueEffect i u c ch).cfg = u.cfg := by
  cases i with
  | rc | rhr | rir | wsc | wsr | wmc | wmr => simp only [issueEffect, issueModbus]; split <;> rfl
  | init | deinit => rfl
  | crc => simp only [issueEffect, issueCrc]; split <;> rfl
  | crcchk => simp only [issueEffect, issueCrcchk]; split <;> rfl

@[simp] theorem grantEffect_cfg (i : Instr) (o : Bool) : (grantEffect i o u c ch).cfg = u.cfg := by
  cases i with
  | rc | rhr | rir | wsc | wsr | wmc | wmr => simp only [grantEffect, grantModbus]; split <;> rfl
  | init =>
    simp only [grantEffect, grantInit]
    split
    · rfl
    · split <;> rfl
  | deinit => simp only [grantEffect, grantDeinit]; split <;> rfl
  | crc | crcchk => rfl

@[simp] theorem byteReadStep_cfg : (byteReadStep u).cfg = u.cfg := by
  unfold byteReadStep; split <;> rfl

@[simp] theorem validateStep_cfg : (validateStep u c).cfg = u.cfg := by
  unfold validateStep; split
  · rfl
  · split <;> rfl

@[simp] theorem retryStep_cfg : (retryStep prm u).cfg = u.cfg := by
  unfold retryStep; split <;> rfl

@[simp] theorem sequencerStep_cfg (n : Nat) : (sequencerStep prm n u c).cfg = u.cfg := by
  unfold sequencerStep
  cases u.ps.seq with
  | idle | success | fatal => rfl
  | sending => cases u.ps.txph <;> rfl
  | awaiting => exact byteReadStep_cfg
  | validating => exact validateStep_cfg
  | retryable => exact retryStep_cfg

/-- No move of a port writes its record `CFG[p]`. -/
theorem move_cfg {u' : Port} (hm : PortMove prm u u') : u'.cfg = u.cfg := by
  cases hm with
  | stay | operand | illegal => rfl
  | issue => exact issueEffect_cfg _
  | grant => exact grantEffect_cfg _ _
  | sequencer => exact sequencerStep_cfg _
  | rx b => unfold rxPort; split <;> rfl
  | txc => unfold txcPort; split <;> rfl

/-- Replacing a port by one with the same record leaves the records of the port list. -/
theorem map_cfg_set {l : List Port} {p : Nat} {u' : Port} (hu : l[p]? = some u) (h : u'.cfg = u.cfg) :
    (l.set p u').map Port.cfg = l.map Port.cfg := by
  rw [List.map_set, h]
  exact set_self (by simp [hu])

theorem step_config {s t : State} (h : step s = .next t) : t.config = s.config := by
  obtain ⟨-, hp, hports⟩ := step_ports h
  simp only [State.config, hp, Config.mk.injEq, true_and]
  rcases hports with ht | ht | ⟨p, u, u', hu, hm, ht⟩
  · simp [ht, Function.comp_def]
  · rw [ht]
  · rw [ht, map_cfg_set hu (move_cfg hm)]

end

/-- Settles O45, by what each move and a tick do to a port's record. -/
theorem configurationNeverWritten : Obligations.ConfigurationNeverWritten := fun _ _ => step_config

end Sys2Proof.Machine
end

section
/-! Proofs of the family 10_state: the invariant. A port is either free, and a step changes one channel of it or ends
idle, or held, and then a step touches only what `AttemptInv` speaks of: one lemma a step shows that part kept. -/

namespace Sys2Proof.Machine

section
variable {prm : Params} {u : Port} {c : Nat} {ch ch' : Channel} {ps ps' : PortState} {cfg : PortConfig}

/-! ### Operands and the frame they build -/

/-- The argument checks read SLAVE and QTY alone (43_transaction_engine.md R234, R235). -/
theorem argsOk_congr (i : Instr) (hs : ch'.slave = ch.slave) (hq : ch'.qty = ch.qty) : argsOk i ch' = argsOk i ch := by
  simp only [argsOk, slaveOk, qtyIn, hs, hq]

/-- The ADU of an admitted Modbus command fits the 255 bytes every transmit buffer holds (10_state.md R31, R39). -/
theorem build_length_le {i : Instr} (hm : i.isModbus = true) (hargs : argsOk i ch = true) (hop : lo8 ch.cmd = i.op)
    (d : DataBuffer) : (build (latchRequest ch) d).length ≤ 255 := by
  rw [build_length]
  have hreq : (latchRequest ch).op = i.op := hop
  cases i with
  | rc | rhr | rir => rw [requestBody_read d (by rw [hreq]; rfl)]; simp
  | wsc => rw [requestBody_wsc d hreq]; simp
  | wsr => rw [requestBody_wsr d hreq]; simp
  | wmc =>
    simp only [argsOk, qtyIn, Bool.and_eq_true, decide_eq_true_eq] at hargs
    rw [requestBody_wmc d hreq]
    simp [latchRequest, ceilDiv]; omega
  | wmr =>
    simp only [argsOk, qtyIn, Bool.and_eq_true, decide_eq_true_eq] at hargs
    rw [requestBody_wmr d hreq]
    simp [latchRequest]; omega
  | init | deinit | crc | crcchk => cases hm

/-! ### Issue -/

theorem issueRejected_eq (hc : u.chans[c]? = some ch) (hno : u.ps.owner ≠ some c) (w : Word) (st : Status) :
    issueRejected w u c st = u.putChan c (completeChannel st (acceptCommand w ch)) := by
  rw [issueRejected, modChan_eq_putChan hc, complete_not_owner (putChan_get hc _) hno, putChan_putChan]

theorem issueComputed_eq (hc : u.chans[c]? = some ch) (hno : u.ps.owner ≠ some c) (i : Instr) (r : Word) (st : Status) :
    issueComputed i r st u c =
      u.putChan c (completeChannel st { acceptCommand (encode i) ch with crcr := r }) := by
  rw [issueComputed, modChan_eq_putChan hc, modChan_eq_putChan (putChan_get hc _), putChan_putChan,
    complete_not_owner (putChan_get hc _) hno, putChan_putChan]

theorem channelInv_enterWaitLock (hk : CfgOk prm cfg) {i : Instr} (hi : i ≠ .crc ∧ i ≠ .crcchk)
    (hargs : argsOk i ch = true) : ChannelInv prm (enterWaitLock (encode i) ch) where
  noResultYet := by simp
  waits _ := ⟨i, decode_encode i, hi.1, hi.2, (argsOk_congr i rfl rfl).trans hargs⟩
  waitBound _ := hk.lock
  waitFresh := by simp
  freeWait := by simp

/-- Replacing a free channel's record by one that is not ACTIVE, and meets its own invariant, keeps the port's. -/
theorem inv_putChan_of_free (h : PortInv prm u) (hc : u.chans[c]? = some ch) (hf : ch.phase = .free)
    (hci : ChannelInv prm ch') (hp : ch'.phase ≠ .active) : PortInv prm (u.putChan c ch') := by
  have hna : ch.phase ≠ .active := by simp [hf]
  exact inv_putChan h hc hci (by simp [hna, hp]) fun ho => absurd ho (not_owner_of_not_active h hc hna)

theorem issueRejected_inv (h : PortInv prm u) (hc : u.chans[c]? = some ch) (hf : ch.phase = .free) (w : Word)
    (st : Status) : PortInv prm (issueRejected w u c st) := by
  rw [issueRejected_eq hc (not_owner_of_not_active h hc (by simp [hf]))]
  exact inv_putChan_of_free h hc hf (channelInv_free _ rfl rfl) (by simp)

theorem issueComputed_inv (h : PortInv prm u) (hc : u.chans[c]? = some ch) (hf : ch.phase = .free) (i : Instr)
    (r : Word) (st : Status) : PortInv prm (issueComputed i r st u c) := by
  rw [issueComputed_eq hc (not_owner_of_not_active h hc (by simp [hf]))]
  exact inv_putChan_of_free h hc hf (channelInv_free _ rfl rfl) (by simp)

theorem enterWaitLock_inv (hk : CfgOk prm u.cfg) (h : PortInv prm u) (hc : u.chans[c]? = some ch)
    (hf : ch.phase = .free) {i : Instr} (hi : i ≠ .crc ∧ i ≠ .crcchk) (hargs : argsOk i ch = true) :
    PortInv prm (u.modChan c (enterWaitLock (encode i))) := by
  rw [modChan_eq_putChan hc]
  exact inv_putChan_of_free h hc hf (channelInv_enterWaitLock hk hi hargs) (by simp)

theorem issueModbus_inv (hk : CfgOk prm u.cfg) (h : PortInv prm u) (hc : u.chans[c]? = some ch)
    (hf : ch.phase = .free) {i : Instr} (hi : i ≠ .crc ∧ i ≠ .crcchk) : PortInv prm (issueModbus i u c ch) := by
  unfold issueModbus
  split
  · exact enterWaitLock_inv hk h hc hf hi ‹_›
  · exact issueRejected_inv h hc hf _ _

/-- The issue step keeps the invariant, whatever the command. -/
theorem issueEffect_inv (hk : CfgOk prm u.cfg) (h : PortInv prm u) (hc : u.chans[c]? = some ch)
    (hf : ch.phase = .free) (i : Instr) : PortInv prm (issueEffect i u c ch) := by
  cases i with
  | rc | rhr | rir | wsc | wsr | wmc | wmr => exact issueModbus_inv hk h hc hf (by decide)
  | init | deinit => exact enterWaitLock_inv hk h hc hf (by decide) rfl
  | crc =>
    simp only [issueEffect, issueCrc]
    split
    · exact issueRejected_inv h hc hf _ _
    · exact issueComputed_inv h hc hf _ _ _
  | crcchk =>
    simp only [issueEffect, issueCrcchk]
    split
    · exact issueRejected_inv h hc hf _ _
    · exact issueComputed_inv h hc hf _ _ _

/-- A host write to a register other than CMD keeps the invariant: while BUSY it has no effect (20_memory.md R85). -/
theorem writeReg_inv (h : PortInv prm u) (hc : u.chans[c]? = some ch) (n : Byte) (v : Word) :
    PortInv prm (u.putChan c (writeReg ch n v)) := by
  have hci := h.channels ch (List.mem_of_getElem? hc)
  by_cases hf : ch.phase = .free
  · have hphase : (writeReg ch n v).phase = ch.phase ∧ (writeReg ch n v).wait = ch.wait := by
      unfold writeReg; split
      · exact ⟨rfl, rfl⟩
      · split <;> exact ⟨rfl, rfl⟩
    obtain ⟨hp, hw⟩ := hphase
    refine inv_putChan_of_free h hc hf (channelInv_free _ (hp.trans hf) (hw.trans (hci.freeWait hf))) ?_
    simp [hp, hf]
  · have : writeReg ch n v = ch := by simp [writeReg, Channel.busy, hf]
    rw [this]
    exact inv_putChan h hc hci Iff.rfl fun ho => h.transaction c ch ho hc

/-! ### The lock held -/

/-- What the sequencer state of a held port asks of the rest of its port state. -/
def SeqOk (prm : Params) (cfg : PortConfig) (ps : PortState) : Prop :=
  match ps.seq with
  | .idle => False
  | .sending =>
    match ps.txph with
    | .start => ps.de = false
    | .wait => cfg.dePresent = true ∧ ps.de = true ∧ reached prm.txcTimeoutMs ps.timer = false
  | .awaiting => ps.de = false ∧ ps.rxlen < cfg.rxBufCap ∧ ps.timedOut = false ∧ ps.timer < cfg.respTimeoutMs
  | .validating =>
    ps.de = false ∧ (ps.timedOut = true ∨ frameComplete (rxFrame ps) ps.req.op cfg.rxBufCap = true)
  | .success => ps.de = false ∧ parse (rxFrame ps) ps.req = .ok
  | .retryable => ps.de = false ∧ 0 < ps.retriesLeft ∧ ps.last.retried = true
  | .fatal => ps.de = false ∧ ps.last ≠ .ok ∧ ps.last ≠ .busy

/-- The write steps made of the attempts allowed (43_transaction_engine.md R259), before saturation. -/
def attemptsMade (cfg : PortConfig) (ps : PortState) : Nat :=
  cfg.maxRetries - ps.retriesLeft + (if ps.seq = .sending ∧ ps.txph = .start then 0 else 1)

/-- The part of the invariant of a held port that a step within the transaction can touch, `ch` being the holder. -/
structure AttemptInv (prm : Params) (cfg : PortConfig) (ps : PortState) (ch : Channel) : Prop where
  seqOk    : SeqOk prm cfg ps
  rxFits   : ps.rxlen ≤ ps.rxbuf.length ∧ ps.rxbuf.length ≤ cfg.rxBufCap
  budget   : ps.retriesLeft ≤ cfg.maxRetries
  attempts : ch.attempts.toNat = min (attemptsMade cfg ps) 0xFFFF
  noExc    : ps.seq ≠ .fatal → ch.exc = 0

/-- What no step within a transaction changes of the port state. -/
structure SameRequest (ps ps' : PortState) : Prop where
  owner : ps'.owner = ps.owner
  init  : ps'.init = ps.init
  req   : ps'.req = ps.req
  txbuf : ps'.txbuf = ps.txbuf
  txlen : ps'.txlen = ps.txlen

/-- What no step within a transaction changes of the holder's channel. -/
structure SameCommand (ch ch' : Channel) : Prop where
  cmd    : ch'.cmd = ch.cmd
  slave  : ch'.slave = ch.slave
  addr   : ch'.addr = ch.addr
  qty    : ch'.qty = ch.qty
  data   : ch'.data = ch.data
  done   : ch'.done = ch.done
  status : ch'.status = ch.status
  phase  : ch'.phase = ch.phase

theorem sameRequest_refl (ps : PortState) : SameRequest ps ps := ⟨rfl, rfl, rfl, rfl, rfl⟩

theorem sameCommand_refl (ch : Channel) : SameCommand ch ch := ⟨rfl, rfl, rfl, rfl, rfl, rfl, rfl, rfl⟩

theorem seqOk_start (hs : ps.seq = .sending) (hp : ps.txph = .start) : SeqOk prm cfg ps ↔ ps.de = false := by
  simp only [SeqOk, hs, hp]

theorem seqOk_wait (hs : ps.seq = .sending) (hp : ps.txph = .wait) : SeqOk prm cfg ps ↔
    cfg.dePresent = true ∧ ps.de = true ∧ reached prm.txcTimeoutMs ps.timer = false := by
  simp only [SeqOk, hs, hp]

theorem seqOk_awaiting (hs : ps.seq = .awaiting) : SeqOk prm cfg ps ↔
    ps.de = false ∧ ps.rxlen < cfg.rxBufCap ∧ ps.timedOut = false ∧ ps.timer < cfg.respTimeoutMs := by
  simp only [SeqOk, hs]

theorem seqOk_validating (hs : ps.seq = .validating) : SeqOk prm cfg ps ↔
    ps.de = false ∧ (ps.timedOut = true ∨ frameComplete (rxFrame ps) ps.req.op cfg.rxBufCap = true) := by
  simp only [SeqOk, hs]

theorem seqOk_success (hs : ps.seq = .success) : SeqOk prm cfg ps ↔
    ps.de = false ∧ parse (rxFrame ps) ps.req = .ok := by
  simp only [SeqOk, hs]

theorem seqOk_retryable (hs : ps.seq = .retryable) : SeqOk prm cfg ps ↔
    ps.de = false ∧ 0 < ps.retriesLeft ∧ ps.last.retried = true := by
  simp only [SeqOk, hs]

theorem seqOk_fatal (hs : ps.seq = .fatal) : SeqOk prm cfg ps ↔
    ps.de = false ∧ ps.last ≠ .ok ∧ ps.last ≠ .busy := by
  simp only [SeqOk, hs]

theorem SeqOk.not_idle (h : SeqOk prm cfg ps) : ps.seq ≠ .idle := by
  intro hs; simp only [SeqOk, hs] at h

/-- DE is asserted only in TX_WAIT (60_exceptions.md R347). -/
theorem SeqOk.wait_of_de (h : SeqOk prm cfg ps) (hde : ps.de = true) : ps.seq = .sending ∧ ps.txph = .wait := by
  cases hs : ps.seq with
  | sending =>
    cases hp : ps.txph with
    | start => simp [SeqOk, hs, hp, hde] at h
    | wait => exact ⟨rfl, rfl⟩
  | idle | awaiting | validating | success | retryable | fatal => simp [SeqOk, hs, hde] at h

theorem seq_ne_idle (h : PortInv prm u) (ho : u.ps.owner = some c) : u.ps.seq ≠ .idle := by
  intro hs; rw [h.idleUnowned.1 hs] at ho; cases ho

/-- The lock's holder is an ACTIVE channel (10_state.md R64 (a)). -/
theorem active_of_owner (h : PortInv prm u) (ho : u.ps.owner = some c) (hc : u.chans[c]? = some ch) :
    ch.phase = .active := by
  obtain ⟨x, hx, ha⟩ := (h.ownerIff c).1 ho
  rw [hc] at hx; cases hx; exact ha

theorem de_false (h : PortInv prm u) (hs : ¬ (u.ps.seq = .sending ∧ u.ps.txph = .wait)) : u.ps.de = false := by
  cases hd : u.ps.de with
  | false => rfl
  | true => exact absurd (h.deWaiting hd) hs

theorem seqOk_of_inv (h : PortInv prm u) (ho : u.ps.owner = some c) : SeqOk prm u.cfg u.ps := by
  have hde := de_false h
  cases hs : u.ps.seq with
  | idle => exact absurd hs (seq_ne_idle h ho)
  | sending =>
    cases hp : u.ps.txph with
    | start => exact (seqOk_start hs hp).2 (hde (by simp [hp]))
    | wait =>
      obtain ⟨hpresent, hon⟩ := h.waitingDe hs hp
      exact (seqOk_wait hs hp).2 ⟨hpresent, hon, h.txcTimer hs hp⟩
  | awaiting =>
    obtain ⟨hroom, hto⟩ := h.awaitingRoom hs
    exact (seqOk_awaiting hs).2 ⟨hde (by simp [hs]), hroom, hto, h.respTimer hs⟩
  | validating => exact (seqOk_validating hs).2 ⟨hde (by simp [hs]), h.validatingOn hs⟩
  | success => exact (seqOk_success hs).2 ⟨hde (by simp [hs]), h.successOk hs⟩
  | retryable => exact (seqOk_retryable hs).2 ⟨hde (by simp [hs]), h.retryBudget hs⟩
  | fatal => exact (seqOk_fatal hs).2 ⟨hde (by simp [hs]), h.fatalStatus hs⟩

theorem attemptInv_of_inv (h : PortInv prm u) (ho : u.ps.owner = some c) (hc : u.chans[c]? = some ch) :
    AttemptInv prm u.cfg u.ps ch where
  seqOk := seqOk_of_inv h ho
  rxFits := h.rxFits
  budget := (h.transaction c ch ho hc).budget
  attempts := (h.transaction c ch ho hc).attempts
  noExc := (h.transaction c ch ho hc).noExc

theorem transactionInv_of_attempt {v : Port} (ht : TransactionInv u ch) (hcfg : v.cfg = u.cfg)
    (hreq : SameRequest u.ps v.ps) (hcmd : SameCommand ch ch') (ha : AttemptInv prm u.cfg v.ps ch') :
    TransactionInv v ch' where
  command := by
    obtain ⟨i, hd, hm, hargs⟩ := ht.command
    exact ⟨i, by rw [hcmd.cmd, hd], hm, (argsOk_congr i hcmd.slave hcmd.qty).trans hargs⟩
  latched := by
    rw [hreq.req, ht.latched]
    simp only [latchRequest, hcmd.cmd, hcmd.slave, hcmd.addr, hcmd.qty]
  built := by rw [txFrame, hreq.txbuf, hreq.txlen, hreq.req, hcmd.data]; exact ht.built
  budget := by rw [hcfg]; exact ha.budget
  attempts := by rw [hcfg]; exact ha.attempts
  noExc := ha.noExc

/-- A step within the transaction keeps the port's invariant when it keeps the part it can touch. -/
theorem inv_of_attempt (h : PortInv prm u) (ho : u.ps.owner = some c) (hc : u.chans[c]? = some ch) {v : Port}
    (hcfg : v.cfg = u.cfg) (hchans : v.chans = u.chans.set c ch') (hreq : SameRequest u.ps v.ps)
    (hcmd : SameCommand ch ch') (ha : AttemptInv prm u.cfg v.ps ch') : PortInv prm v := by
  have hact := active_of_owner h ho hc
  have hok := ha.seqOk
  refine inv_running h hc ho hact hcfg hchans (hcmd.phase.trans hact) ⟨hcmd.done, hcmd.status⟩ hreq.owner
    hok.not_idle hreq.init hok.wait_of_de (fun hs hp => ?waitingDe) ha.rxFits hreq.txlen hreq.txbuf
    (fun hs => ?awaitingRoom) (fun hs => ?respTimer) (fun hs hp => ?txcTimer)
    (fun hs => ((seqOk_validating hs).1 hok).2) (fun hs => ((seqOk_success hs).1 hok).2)
    (fun hs => ((seqOk_retryable hs).1 hok).2) (fun hs => ((seqOk_fatal hs).1 hok).2)
    (fun ht => transactionInv_of_attempt ht hcfg hreq hcmd ha)
  case waitingDe =>
    obtain ⟨hpresent, hde, -⟩ := (seqOk_wait hs hp).1 hok
    exact ⟨by rw [hcfg, hpresent], hde⟩
  case awaitingRoom =>
    obtain ⟨-, hroom, hto, -⟩ := (seqOk_awaiting hs).1 hok
    exact ⟨hroom, hto⟩
  case respTimer =>
    obtain ⟨-, -, -, ht⟩ := (seqOk_awaiting hs).1 hok
    exact ht
  case txcTimer =>
    obtain ⟨-, -, ht⟩ := (seqOk_wait hs hp).1 hok
    exact ht

/-- The same for a step that leaves the holder's channel alone. -/
theorem inv_modPs_of_attempt (h : PortInv prm u) (ho : u.ps.owner = some c) (hc : u.chans[c]? = some ch)
    {f : PortState → PortState} (hreq : SameRequest u.ps (f u.ps)) (ha : AttemptInv prm u.cfg (f u.ps) ch) :
    PortInv prm (u.modPs f) :=
  inv_of_attempt h ho hc rfl (set_self hc).symm hreq (sameCommand_refl ch) ha

/-! ### The steps of a transaction, one lemma a step -/

/-- A step that keeps the budget and the count of write steps keeps the invariant of the attempt when it leaves what its
new sequencer state asks for. -/
theorem AttemptInv.move (h : AttemptInv prm cfg ps ch) (hok : SeqOk prm cfg ps')
    (hrx : ps'.rxlen ≤ ps'.rxbuf.length ∧ ps'.rxbuf.length ≤ cfg.rxBufCap) (hr : ps'.retriesLeft = ps.retriesLeft)
    (hold : ¬ (ps.seq = .sending ∧ ps.txph = .start)) (hnew : ¬ (ps'.seq = .sending ∧ ps'.txph = .start))
    (hnf : ps.seq ≠ .fatal) : AttemptInv prm cfg ps' ch where
  seqOk := hok
  rxFits := hrx
  budget := hr ▸ h.budget
  attempts := by rw [h.attempts, attemptsMade, attemptsMade, if_neg hold, if_neg hnew, hr]
  noExc _ := h.noExc hnf

/-- ATTEMPTS counts one more, saturating (43_transaction_engine.md R246). -/
theorem countAttempt_toNat (ch : Channel) :
    (countAttempt ch).attempts.toNat = min (ch.attempts.toNat + 1) 0xFFFF := by
  rw [countAttempt_attempts]
  split
  · rename_i h; simp [h]
  · rename_i h
    have : ch.attempts.toNat ≠ 65535 := fun e => h (BitVec.eq_of_toNat_eq e)
    have := ch.attempts.isLt
    rw [BitVec.toNat_add]; simp; omega

/-- Everything the write step can do to the port state (R245 to R247, R250). -/
theorem writePs_cases (cfg : PortConfig) (n : Nat) (ps : PortState) : ∃ log,
    writePs cfg n ps = { ps with txlog := log, de := false, last := .error, seq := .fatal } ∨
    (cfg.dePresent = true ∧ writePs cfg n ps = { ps with txlog := log, de := true, txph := .wait, timer := 0 }) ∨
    (cfg.dePresent = false ∧ writePs cfg n ps = enterAwaiting { ps with txlog := log }) := by
  refine ⟨ps.txlog ++ [(txFrame ps).take n], ?_⟩
  unfold writePs
  cases hd : cfg.dePresent <;> simp only [beginTransmit, hd, Bool.false_eq_true, if_true, if_false]
  · by_cases hn : n < ps.txlen
    · exact .inl (by simp only [hn, if_true])
    · exact .inr (.inr ⟨trivial, by simp only [hn, if_false]⟩)
  · by_cases hn : n < ps.txlen
    · exact .inl (by simp only [hn, if_true]; rfl)
    · exact .inr (.inl ⟨trivial, by simp only [hn, if_false]; rfl⟩)

theorem writePs_sameRequest (cfg : PortConfig) (n : Nat) (ps : PortState) : SameRequest ps (writePs cfg n ps) := by
  obtain ⟨log, h | ⟨-, h⟩ | ⟨-, h⟩⟩ := writePs_cases cfg n ps <;> rw [h] <;> exact ⟨rfl, rfl, rfl, rfl, rfl⟩

theorem writePs_attempt (hk : CfgOk prm cfg) (h : AttemptInv prm cfg ps ch) (hs : ps.seq = .sending)
    (hp : ps.txph = .start) (n : Nat) : AttemptInv prm cfg (writePs cfg n ps) (countAttempt ch) := by
  obtain ⟨hok, hrx, hb, hatt, hexc⟩ := h
  have hde := (seqOk_start hs hp).1 hok
  have hcap := hk.rx
  have hcount : (countAttempt ch).attempts.toNat = min (cfg.maxRetries - ps.retriesLeft + 1) 0xFFFF := by
    rw [countAttempt_toNat, hatt, attemptsMade, if_pos ⟨hs, hp⟩]; omega
  have hexc' : (countAttempt ch).exc = 0 := hexc (by simp [hs])
  obtain ⟨log, e | ⟨hd, e⟩ | ⟨hd, e⟩⟩ := writePs_cases cfg n ps <;> rw [e]
  · exact ⟨(seqOk_fatal rfl).2 (by simp), hrx, hb, hcount.trans (by simp [attemptsMade]), fun _ => hexc'⟩
  · exact ⟨(seqOk_wait (by exact hs) rfl).2 ⟨hd, rfl, hk.txc⟩, hrx, hb, hcount.trans (by simp [attemptsMade]),
      fun _ => hexc'⟩
  · exact ⟨(seqOk_awaiting rfl).2 ⟨hde, by simp; omega, rfl, hk.resp⟩, ⟨Nat.zero_le _, hrx.2⟩, hb,
      hcount.trans (by simp [attemptsMade]), fun _ => hexc'⟩

/-- Everything the byte read step does to the port state (R251). -/
theorem readBytePs_cases (cap : Nat) (b : Byte) (ps : PortState) :
    ∃ ps', ps' = { ps with rxbuf := bufWrite ps.rxbuf ps.rxlen [b], rxlen := ps.rxlen + 1 } ∧
      ((frameComplete (rxFrame ps') ps.req.op cap = true ∧ readBytePs cap b ps = { ps' with seq := .validating }) ∨
        (frameComplete (rxFrame ps') ps.req.op cap = false ∧ readBytePs cap b ps = ps')) := by
  refine ⟨_, rfl, ?_⟩
  unfold readBytePs
  dsimp only
  split
  · exact .inl ⟨‹_›, rfl⟩
  · exact .inr ⟨by simpa using ‹¬ _ = true›, rfl⟩

theorem readBytePs_sameRequest (cap : Nat) (b : Byte) (ps : PortState) : SameRequest ps (readBytePs cap b ps) := by
  obtain ⟨ps', rfl, ⟨-, h⟩ | ⟨-, h⟩⟩ := readBytePs_cases cap b ps <;> rw [h] <;> exact ⟨rfl, rfl, rfl, rfl, rfl⟩

/-- The byte read step ends the receive phase when the buffer is full, so AWAITING always has room (41_adu_codec.md
R171). -/
theorem readBytePs_attempt (h : AttemptInv prm cfg ps ch) (hs : ps.seq = .awaiting) (b : Byte) :
    AttemptInv prm cfg (readBytePs cfg.rxBufCap b ps) ch := by
  obtain ⟨hde, hroom, hto, ht⟩ := (seqOk_awaiting hs).1 h.seqOk
  obtain ⟨hlen, hcap⟩ := h.rxFits
  have hbuf := bufWrite_length ps.rxbuf [b] ps.rxlen hlen
  rw [List.length_singleton] at hbuf
  have hrx : ps.rxlen + 1 ≤ (bufWrite ps.rxbuf ps.rxlen [b]).length ∧
      (bufWrite ps.rxbuf ps.rxlen [b]).length ≤ cfg.rxBufCap := by omega
  obtain ⟨ps', hps', ⟨hf, e⟩ | ⟨hf, e⟩⟩ := readBytePs_cases cfg.rxBufCap b ps <;> rw [e] <;> subst hps'
  · exact h.move ((seqOk_validating rfl).2 ⟨hde, .inr hf⟩) hrx rfl (by simp [hs]) (by simp) (by simp [hs])
  · refine h.move ?_ hrx rfl (by simp [hs]) (by simp [hs]) (by simp [hs])
    have hne : ps.rxlen + 1 ≠ cfg.rxBufCap := by
      intro hfull
      have : frameComplete (rxFrame { ps with rxbuf := bufWrite ps.rxbuf ps.rxlen [b], rxlen := ps.rxlen + 1 })
          ps.req.op cfg.rxBufCap = true := (frameComplete_eq _ _ _).2 (.inl (by rw [rxFrame_length hrx.1]; exact hfull))
      rw [hf] at this; cases this
    exact (seqOk_awaiting (by exact hs)).2 ⟨hde, by dsimp only; omega, hto, ht⟩

theorem failAttempt_cases (st : Status) (ps : PortState) :
    (0 < ps.retriesLeft ∧ failAttempt st ps = { ps with last := st, seq := .retryable, timer := 0 }) ∨
      failAttempt st ps = { ps with last := st, seq := .fatal } := by
  unfold failAttempt
  split
  · exact .inl ⟨‹_›, rfl⟩
  · exact .inr rfl

theorem failAttempt_sameRequest (st : Status) (ps : PortState) : SameRequest ps (failAttempt st ps) := by
  obtain ⟨-, h⟩ | h := failAttempt_cases st ps <;> rw [h] <;> exact ⟨rfl, rfl, rfl, rfl, rfl⟩

theorem retried_ne {st : Status} (h : st.retried = true) : st ≠ .ok ∧ st ≠ .busy := by
  constructor <;> (rintro rfl; cases h)

theorem excStatus_ne (e : Byte) : excStatus e ≠ .ok ∧ excStatus e ≠ .busy := by
  unfold excStatus; split_ifs <;> decide

theorem failAttempt_attempt (h : AttemptInv prm cfg ps ch) (hs : ps.seq = .validating) {st : Status}
    (hst : st.retried = true) : AttemptInv prm cfg (failAttempt st ps) ch := by
  have hde := ((seqOk_validating hs).1 h.seqOk).1
  obtain ⟨hr, e⟩ | e := failAttempt_cases st ps <;> rw [e]
  · exact h.move ((seqOk_retryable rfl).2 ⟨hde, hr, hst⟩) h.rxFits rfl (by simp [hs]) (by simp) (by simp [hs])
  · exact h.move ((seqOk_fatal rfl).2 ⟨hde, retried_ne hst⟩) h.rxFits rfl (by simp [hs]) (by simp) (by simp [hs])

theorem validated_attempt (h : AttemptInv prm cfg ps ch) (hs : ps.seq = .validating)
    (hparse : parse (rxFrame ps) ps.req = .ok) : AttemptInv prm cfg { ps with seq := .success } ch :=
  h.move ((seqOk_success rfl).2 ⟨((seqOk_validating hs).1 h.seqOk).1, hparse⟩) h.rxFits rfl (by simp [hs]) (by simp)
    (by simp [hs])

/-- The slave's exception code stands in EXC in FATAL alone (R253). -/
theorem exception_attempt (h : AttemptInv prm cfg ps ch) (hs : ps.seq = .validating) (e : Byte) :
    AttemptInv prm cfg { ps with last := excStatus e, seq := .fatal } { ch with exc := e } where
  seqOk := (seqOk_fatal rfl).2 ⟨((seqOk_validating hs).1 h.seqOk).1, excStatus_ne e⟩
  rxFits := h.rxFits
  budget := h.budget
  attempts := by rw [h.attempts]; simp [attemptsMade, hs]
  noExc hnf := absurd rfl hnf

/-- The retry step takes one from RETRIES_LEFT and opens the next attempt (R258). -/
theorem retry_attempt (h : AttemptInv prm cfg ps ch) (hs : ps.seq = .retryable) :
    AttemptInv prm cfg { ps with retriesLeft := ps.retriesLeft - 1, seq := .sending, txph := .start } ch := by
  obtain ⟨hde, hr, -⟩ := (seqOk_retryable hs).1 h.seqOk
  have hb := h.budget
  refine ⟨(seqOk_start rfl rfl).2 hde, h.rxFits, by dsimp only; omega, ?_, fun _ => h.noExc (by simp [hs])⟩
  rw [h.attempts]; simp [attemptsMade, hs]; omega

/-- The end of TX_WAIT (R248). -/
theorem endTransmit_attempt (hk : CfgOk prm cfg) (h : AttemptInv prm cfg ps ch) (hs : ps.seq = .sending)
    (hp : ps.txph = .wait) : AttemptInv prm cfg (endTransmit ps) ch := by
  have hcap := hk.rx
  have hroom : 0 < cfg.rxBufCap := by omega
  exact h.move ((seqOk_awaiting rfl).2 ⟨rfl, hroom, rfl, hk.resp⟩) ⟨Nat.zero_le _, h.rxFits.2⟩ rfl (by simp [hp])
    (by simp) (by simp [hs])

/-- Everything a tick does to the port state (R248, R252, R263). -/
theorem tickPs_cases (prm : Params) (cfg : PortConfig) (ps : PortState) :
    tickPs prm cfg ps = ps ∨
    (ps.seq = .sending ∧ ps.txph = .wait ∧ (tickPs prm cfg ps = endTransmit ps ∨
      (reached prm.txcTimeoutMs (ps.timer + 1) = false ∧ tickPs prm cfg ps = { ps with timer := ps.timer + 1 }))) ∨
    (ps.seq = .awaiting ∧
      (tickPs prm cfg ps = { ps with timer := ps.timer + 1, timedOut := true, seq := .validating } ∨
      (ps.timer + 1 < cfg.respTimeoutMs ∧ tickPs prm cfg ps = { ps with timer := ps.timer + 1 }))) ∨
    (ps.seq = .retryable ∧ tickPs prm cfg ps = { ps with timer := ps.timer + 1 }) := by
  cases hs : ps.seq with
  | idle | validating | success | fatal => exact .inl (by simp only [tickPs, hs])
  | sending =>
    cases hp : ps.txph with
    | start => exact .inl (by simp only [tickPs, hs, hp])
    | wait =>
      refine .inr (.inl ⟨rfl, rfl, ?_⟩)
      by_cases hr : reached prm.txcTimeoutMs (ps.timer + 1) = true
      · exact .inl (by simp [tickPs, hs, hp, hr, endTransmit, enterAwaiting])
      · exact .inr ⟨by simpa using hr, by simp [tickPs, hs, hp, hr]⟩
  | awaiting =>
    refine .inr (.inr (.inl ⟨rfl, ?_⟩))
    by_cases hr : cfg.respTimeoutMs ≤ ps.timer + 1
    · exact .inl (by simp [tickPs, hs, hr])
    · exact .inr ⟨by omega, by simp [tickPs, hs, hr]⟩
  | retryable => exact .inr (.inr (.inr ⟨rfl, by simp [tickPs, hs]⟩))

theorem tickPs_sameRequest (prm : Params) (cfg : PortConfig) (ps : PortState) :
    SameRequest ps (tickPs prm cfg ps) := by
  obtain e | ⟨-, -, e | ⟨-, e⟩⟩ | ⟨-, e | ⟨-, e⟩⟩ | ⟨-, e⟩ := tickPs_cases prm cfg ps <;> rw [e] <;>
    exact ⟨rfl, rfl, rfl, rfl, rfl⟩

theorem tickPs_attempt (hk : CfgOk prm cfg) (h : AttemptInv prm cfg ps ch) :
    AttemptInv prm cfg (tickPs prm cfg ps) ch := by
  have hok := h.seqOk
  obtain e | ⟨hs, hp, e | ⟨hr, e⟩⟩ | ⟨hs, e | ⟨hr, e⟩⟩ | ⟨hs, e⟩ := tickPs_cases prm cfg ps <;> rw [e]
  · exact h
  · exact endTransmit_attempt hk h hs hp
  · obtain ⟨hd, hde, -⟩ := (seqOk_wait hs hp).1 hok
    exact h.move ((seqOk_wait (by exact hs) (by exact hp)).2 ⟨hd, hde, hr⟩) h.rxFits rfl
      (by simp [hp]) (by simp [hp]) (by simp [hs])
  · obtain ⟨hde, -⟩ := (seqOk_awaiting hs).1 hok
    exact h.move ((seqOk_validating rfl).2 ⟨hde, .inl rfl⟩) h.rxFits rfl (by simp [hs]) (by simp) (by simp [hs])
  · obtain ⟨hde, hroom, hto, -⟩ := (seqOk_awaiting hs).1 hok
    exact h.move ((seqOk_awaiting (by exact hs)).2 ⟨hde, hroom, hto, hr⟩) h.rxFits rfl
      (by simp [hs]) (by simp [hs]) (by simp [hs])
  · have hbudget := (seqOk_retryable hs).1 hok
    exact h.move ((seqOk_retryable (by exact hs)).2 hbudget) h.rxFits rfl
      (by simp [hs]) (by simp [hs]) (by simp [hs])

/-! ### The sequencer's steps -/

/-- A command that completes leaves its port idle, whether it held the lock or takes it in the same step. -/
theorem complete_inv (h : PortInv prm u) (hc : u.chans[c]? = some ch) (ho : u.ps.owner = none ∨ u.ps.owner = some c)
    {v : Port} (hcfg : v.cfg = u.cfg) (hchans : v.chans = u.chans.set c ch') (hown : v.ps.owner = some c)
    (hrl : v.ps.rxlen = u.ps.rxlen) (hrb : v.ps.rxbuf = u.ps.rxbuf) (htl : v.ps.txlen = u.ps.txlen)
    (htb : v.ps.txbuf = u.ps.txbuf) (hl : v.ps.init = false → v.env.lineRx = []) (st : Status) :
    PortInv prm (complete v c st) := by
  have hlt : c < u.chans.length := (List.getElem?_eq_some_iff.mp hc).1
  have hv : v.chans[c]? = some ch' := by simp [hchans, hlt]
  rw [complete_owner hv hown]
  refine inv_idle h hc ho (ch' := completeChannel st ch') rfl rfl hcfg ?_ rfl rfl rfl hrl hrb htl htb hl
  simp [hchans]

theorem sequencerStep_inv (hk : CfgOk prm u.cfg) (h : PortInv prm u) (hc : u.chans[c]? = some ch)
    (ho : u.ps.owner = some c) (n : Nat) : PortInv prm (sequencerStep prm n u c) := by
  have ha := attemptInv_of_inv h ho hc
  unfold sequencerStep
  cases hs : u.ps.seq with
  | idle => exact h
  | sending =>
    cases hp : u.ps.txph with
    | wait => exact h
    | start =>
      exact inv_of_attempt h ho hc rfl (modify_eq_set hc _) (writePs_sameRequest u.cfg _ u.ps)
        ⟨rfl, rfl, rfl, rfl, rfl, rfl, rfl, rfl⟩ (writePs_attempt hk ha hs hp _)
  | awaiting =>
    dsimp only [byteReadStep]
    split
    · exact h
    · exact inv_of_attempt h ho hc rfl (set_self hc).symm (readBytePs_sameRequest _ _ u.ps) (sameCommand_refl ch)
        (readBytePs_attempt ha hs _)
  | validating =>
    have hfail : ∀ st : Status, st.retried = true → PortInv prm (u.modPs (failAttempt st)) := fun st hst =>
      inv_modPs_of_attempt h ho hc (failAttempt_sameRequest st u.ps) (failAttempt_attempt ha hs hst)
    dsimp only [validateStep]
    split
    · exact hfail .timeout rfl
    · split
      · exact inv_modPs_of_attempt h ho hc ⟨rfl, rfl, rfl, rfl, rfl⟩ (validated_attempt ha hs ‹_›)
      · exact inv_of_attempt h ho hc rfl (modify_eq_set hc _) ⟨rfl, rfl, rfl, rfl, rfl⟩
          ⟨rfl, rfl, rfl, rfl, rfl, rfl, rfl, rfl⟩ (exception_attempt ha hs _)
      · exact hfail .crcError rfl
      · exact hfail .unexpectedResponse rfl
  | success =>
    exact complete_inv h hc (.inr ho) (v := u.modChan c _) rfl (modify_eq_set hc _) ho rfl rfl rfl rfl h.closedLine .ok
  | retryable =>
    dsimp only [retryStep]
    split
    · exact inv_modPs_of_attempt h ho hc ⟨rfl, rfl, rfl, rfl, rfl⟩ (retry_attempt ha hs)
    · exact h
  | fatal => exact complete_inv h hc (.inr ho) (v := u) rfl (set_self hc).symm ho rfl rfl rfl rfl h.closedLine _

/-! ### The lock-grant steps -/

/-- The grant step of a command that completes in it: the lock is taken and freed in one step (R216). -/
theorem acquire_complete_inv (h : PortInv prm u) (hc : u.chans[c]? = some ch) (hlock : u.ps.owner = none) (v : Port)
    (hcfg : v.cfg = u.cfg) (hchans : v.chans = (acquireLock u c).chans) (hown : v.ps.owner = some c)
    (hrl : v.ps.rxlen = u.ps.rxlen) (hrb : v.ps.rxbuf = u.ps.rxbuf) (htl : v.ps.txlen = u.ps.txlen)
    (htb : v.ps.txbuf = u.ps.txbuf) (hl : v.ps.init = false → v.env.lineRx = []) (st : Status) :
    PortInv prm (complete v c st) :=
  complete_inv h hc (.inl hlock) hcfg (hchans.trans (modify_eq_set hc _)) hown hrl hrb htl htb hl st

theorem grantInit_inv (h : PortInv prm u) (hc : u.chans[c]? = some ch) (hlock : u.ps.owner = none) (o : Bool) :
    PortInv prm (grantInit o u c) := by
  have finish := acquire_complete_inv h hc hlock
  unfold grantInit
  dsimp only
  split
  · exact finish (acquireLock u c) rfl rfl rfl rfl rfl rfl rfl h.closedLine _
  · split
    · exact finish (setInit true (callConfigure (acquireLock u c))) rfl rfl rfl rfl rfl rfl rfl (fun _ => rfl) _
    · exact finish (callConfigure (acquireLock u c)) rfl rfl rfl rfl rfl rfl rfl h.closedLine _

theorem grantDeinit_inv (h : PortInv prm u) (hc : u.chans[c]? = some ch) (hlock : u.ps.owner = none) :
    PortInv prm (grantDeinit u c) := by
  have finish := acquire_complete_inv h hc hlock
  unfold grantDeinit
  dsimp only
  split
  · exact finish (setInit false (acquireLock u c)) rfl rfl rfl rfl rfl rfl rfl (fun _ => rfl) _
  · exact finish (acquireLock u c) rfl rfl rfl rfl rfl rfl rfl h.closedLine _

/-- No channel is ACTIVE while the lock is free. -/
theorem not_active_of_unowned (h : PortInv prm u) (hlock : u.ps.owner = none) {j : Nat} {x : Channel}
    (hx : u.chans[j]? = some x) : x.phase ≠ .active := by
  intro ha
  have := (h.ownerIff j).2 ⟨x, hx, ha⟩
  rw [hlock] at this; cases this

/-- The channel that takes a free lock is the one ACTIVE channel (10_state.md R64 (a), (b)). -/
theorem owner_iff_acquired (h : PortInv prm u) (hc : u.chans[c]? = some ch) (hlock : u.ps.owner = none)
    (ha : ch'.phase = .active) (j : Nat) :
    some c = some j ↔ ∃ x, (u.chans.set c ch')[j]? = some x ∧ x.phase = .active := by
  have hlt : c < u.chans.length := (List.getElem?_eq_some_iff.mp hc).1
  by_cases hj : c = j
  · subst hj; simp [hlt, ha]
  · simpa [hj] using fun x hx => not_active_of_unowned h hlock hx

/-- A waiting channel's operands are admitted for the command in its CMD (43_transaction_engine.md R237). -/
theorem argsOk_of_waiting (hci : ChannelInv prm ch) (hwait : ch.phase = .waitLock) {i : Instr}
    (hcmd : decode ch.cmd = .command i) : argsOk i ch = true := by
  obtain ⟨j, hj, -, -, hargs⟩ := hci.waits hwait
  rw [hcmd] at hj; cases hj
  exact hargs

/-- Latch and build (R242): what is latched is the admitted command the channel waits with, and its ADU. -/
theorem latchAndBuild_transaction (hci : ChannelInv prm ch) (hwait : ch.phase = .waitLock) {i : Instr}
    (hcmd : decode ch.cmd = .command i) (hm : i.isModbus = true) :
    TransactionInv (latchAndBuild (acquireLock u c) ch) { ch with phase := .active } where
  command := ⟨i, hcmd, hm, (argsOk_congr i rfl rfl).trans (argsOk_of_waiting hci hwait hcmd)⟩
  latched := rfl
  built := by
    have := take_bufWrite u.ps.txbuf (build (latchRequest ch) ch.data) 0 (Nat.zero_le _)
    simpa [latchAndBuild, txFrame] using this
  budget := Nat.le_refl _
  attempts := by simp [latchAndBuild, (hci.waitFresh hwait).1]
  noExc _ := (hci.waitFresh hwait).2

theorem latchAndBuild_inv (hk : CfgOk prm u.cfg) (h : PortInv prm u) (hc : u.chans[c]? = some ch)
    (hwait : ch.phase = .waitLock) (hlock : u.ps.owner = none) {i : Instr} (hcmd : decode ch.cmd = .command i)
    (hm : i.isModbus = true) (hinit : u.ps.init = true) : PortInv prm (latchAndBuild (acquireLock u c) ch) := by
  have hci := h.channels ch (List.mem_of_getElem? hc)
  have hlt : c < u.chans.length := (List.getElem?_eq_some_iff.mp hc).1
  have hidle := h.idleUnowned.2 hlock
  have hde : u.ps.de = false := de_false h (by simp [hidle])
  have hchans : (latchAndBuild (acquireLock u c) ch).chans = u.chans.set c { ch with phase := .active } :=
    modify_eq_set hc _
  have hop := op_of_commandOf (decode_command hcmd).2
  have hadu : (build (latchRequest ch) ch.data).length ≤ u.cfg.txBufCap :=
    (build_length_le hm (argsOk_of_waiting hci hwait hcmd) hop ch.data).trans hk.tx
  exact {
    chanCount := by simpa [hchans] using h.chanCount
    channels := by
      intro x hx
      rw [hchans] at hx
      rcases List.mem_or_eq_of_mem_set hx with hx | rfl
      · exact h.channels x hx
      · exact ⟨fun _ => hci.noResultYet (by simp [hwait]), by simp, by simp, by simp, by simp⟩
    ownerIff := by rw [hchans]; exact owner_iff_acquired h hc hlock rfl
    idleUnowned := by simp [latchAndBuild]
    deWaiting := by simp [latchAndBuild, hde]
    waitingDe := by simp [latchAndBuild]
    busyInit := fun _ => hinit
    closedLine := h.closedLine
    rxFits := h.rxFits
    txFits := by
      have := bufWrite_length u.ps.txbuf (build (latchRequest ch) ch.data) 0 (Nat.zero_le _)
      have := h.txFits
      simp only [latchAndBuild, modPs_ps, modPs_cfg, acquireLock_cfg, acquireLock_ps]
      omega
    awaitingRoom := by simp [latchAndBuild]
    respTimer := by simp [latchAndBuild]
    txcTimer := by simp [latchAndBuild]
    validatingOn := by simp [latchAndBuild]
    successOk := by simp [latchAndBuild]
    retryBudget := by simp [latchAndBuild]
    fatalStatus := by simp [latchAndBuild]
    transaction := by
      intro j x hj hx
      cases hj
      rw [hchans, List.getElem?_set_self hlt] at hx
      cases hx
      exact latchAndBuild_transaction hci hwait hcmd hm }

theorem grantModbus_inv (hk : CfgOk prm u.cfg) (h : PortInv prm u) (hc : u.chans[c]? = some ch)
    (hwait : ch.phase = .waitLock) (hlock : u.ps.owner = none) {i : Instr} (hcmd : decode ch.cmd = .command i)
    (hm : i.isModbus = true) : PortInv prm (grantModbus u c ch) := by
  unfold grantModbus
  split
  · exact latchAndBuild_inv hk h hc hwait hlock hcmd hm ‹_›
  · exact acquire_complete_inv h hc hlock (acquireLock u c) rfl rfl rfl rfl rfl rfl rfl h.closedLine _

theorem grantEffect_inv (hk : CfgOk prm u.cfg) (h : PortInv prm u) (hc : u.chans[c]? = some ch)
    (hwait : ch.phase = .waitLock) (hlock : u.ps.owner = none) {i : Instr} (hcmd : decode ch.cmd = .command i)
    (o : Bool) : PortInv prm (grantEffect i o u c ch) := by
  cases i with
  | rc | rhr | rir | wsc | wsr | wmc | wmr => exact grantModbus_inv hk h hc hwait hlock hcmd rfl
  | init => exact grantInit_inv h hc hlock o
  | deinit => exact grantDeinit_inv h hc hlock
  | crc | crcchk => exact h

/-! ### The line and the tick -/

/-- The transaction speaks of the port state, the record and the holder alone. -/
theorem transactionInv_congr (h : TransactionInv u ch) {v : Port} (hps : v.ps = u.ps) (hcfg : v.cfg = u.cfg) :
    TransactionInv v ch where
  command := h.command
  latched := by rw [hps]; exact h.latched
  built := by rw [hps]; exact h.built
  budget := by rw [hps, hcfg]; exact h.budget
  attempts := by rw [hps, hcfg]; exact h.attempts
  noExc := by rw [hps]; exact h.noExc

theorem rxPort_inv (h : PortInv prm u) (b : Byte) : PortInv prm (rxPort b u) := by
  unfold rxPort
  split
  · rename_i hinit
    exact { h with
      closedLine := fun hi => by rw [setLine_ps, hinit] at hi; cases hi
      transaction := fun c ch ho hc => transactionInv_congr (h.transaction c ch ho hc) rfl rfl }
  · exact h

/-- A sequencer that is not IDLE runs for a holder (10_state.md R64 (b)). -/
theorem owner_of_not_idle (h : PortInv prm u) (hs : u.ps.seq ≠ .idle) :
    ∃ c ch, u.ps.owner = some c ∧ u.chans[c]? = some ch := by
  obtain ⟨c, ho⟩ := Option.ne_none_iff_exists'.1 fun ho => hs (h.idleUnowned.2 ho)
  obtain ⟨ch, hc, -⟩ := (h.ownerIff c).1 ho
  exact ⟨c, ch, ho, hc⟩

theorem txcPort_inv (hk : CfgOk prm u.cfg) (h : PortInv prm u) : PortInv prm (txcPort u) := by
  unfold txcPort
  split
  · rename_i hen
    obtain ⟨hs, hp, -⟩ := hen
    obtain ⟨c, ch, ho, hc⟩ := owner_of_not_idle h (by simp [hs])
    exact inv_modPs_of_attempt h ho hc ⟨rfl, rfl, rfl, rfl, rfl⟩
      (endTransmit_attempt hk (attemptInv_of_inv h ho hc) hs hp)
  · exact h

/-- Every move keeps the invariant of its port. -/
theorem move_inv (hk : CfgOk prm u.cfg) (h : PortInv prm u) {u' : Port} (hm : PortMove prm u u') :
    PortInv prm u' := by
  cases hm with
  | stay => exact h
  | operand c ch n v hc => exact writeReg_inv h hc n v
  | illegal c ch w why hc hf hw => exact issueRejected_inv h hc hf w _
  | issue c ch i hc hf => exact issueEffect_inv hk h hc hf i
  | grant c ch i o hc hwait hlock hcmd => exact grantEffect_inv hk h hc hwait hlock hcmd o
  | sequencer c ch i n hc hact hown hop hmod => exact sequencerStep_inv hk h hc hown n
  | rx b => exact rxPort_inv h b
  | txc => exact txcPort_inv hk h

/-- A tick leaves every channel but a waiting one alone, and ends a wait or counts it (R238, R239). -/
theorem tickChannel_cases (prm : Params) (ch : Channel) :
    (ch.phase ≠ .waitLock ∧ tickChannel prm ch = ch) ∨
    (ch.phase = .waitLock ∧ (tickChannel prm ch = completeChannel .busy ch ∨
      (reached prm.lockWaitMs (ch.wait + 1) = false ∧ tickChannel prm ch = { ch with wait := ch.wait + 1 }))) := by
  unfold tickChannel
  cases hp : ch.phase with
  | free | active => exact .inl ⟨by simp, rfl⟩
  | waitLock =>
    refine .inr ⟨rfl, ?_⟩
    dsimp only
    split
    · exact .inl rfl
    · exact .inr ⟨by simpa using ‹¬ _ = true›, rfl⟩

theorem tickChannel_inv (h : ChannelInv prm ch) : ChannelInv prm (tickChannel prm ch) := by
  obtain ⟨-, e⟩ | ⟨hw, e | ⟨hr, e⟩⟩ := tickChannel_cases prm ch <;> rw [e]
  · exact h
  · exact channelInv_free _ rfl rfl
  · exact ⟨h.noResultYet, fun _ => h.waits hw, fun _ => hr, h.waitFresh, by simp [hw]⟩

/-- A tick neither makes nor unmakes an ACTIVE channel, and changes none. -/
theorem tickChannel_active_iff :
    (tickChannel prm ch = ch' ∧ ch'.phase = .active) ↔ (ch = ch' ∧ ch.phase = .active) := by
  obtain ⟨-, e⟩ | ⟨hw, e⟩ := tickChannel_cases prm ch
  · rw [e]
    constructor <;> (rintro ⟨rfl, h⟩; exact ⟨rfl, h⟩)
  · have hna : (tickChannel prm ch).phase ≠ .active := by
      obtain e | ⟨-, e⟩ := e <;> rw [e] <;> simp [hw]
    constructor
    · rintro ⟨rfl, h⟩; exact absurd h hna
    · rintro ⟨rfl, h⟩; rw [hw] at h; cases h

/-- Port `u` after its channels' tick. -/
def tickChannels (prm : Params) (u : Port) : Port := { u with chans := u.chans.map (tickChannel prm) }

theorem tickPort_eq (prm : Params) (u : Port) : tickPort prm u = tickChannels prm (u.modPs (tickPs prm u.cfg)) := rfl

theorem tickChannels_active_iff (j : Nat) (x : Channel) :
    ((tickChannels prm u).chans[j]? = some x ∧ x.phase = .active) ↔ (u.chans[j]? = some x ∧ x.phase = .active) := by
  simp only [tickChannels, List.getElem?_map, Option.map_eq_some_iff]
  constructor
  · rintro ⟨⟨y, hy, hyx⟩, ha⟩
    obtain ⟨rfl, ha⟩ := tickChannel_active_iff.1 ⟨hyx, ha⟩
    exact ⟨hy, ha⟩
  · rintro ⟨hx, ha⟩
    exact ⟨⟨x, hx, (tickChannel_active_iff.2 ⟨rfl, ha⟩).1⟩, ha⟩

theorem tickChannels_inv (h : PortInv prm u) : PortInv prm (tickChannels prm u) := by
  have hown : ∀ j, u.ps.owner = some j ↔ ∃ x, (tickChannels prm u).chans[j]? = some x ∧ x.phase = .active := by
    intro j; simp only [tickChannels_active_iff, h.ownerIff]
  exact { h with
    chanCount := by simpa [tickChannels] using h.chanCount
    channels := by
      intro x hx
      obtain ⟨y, hy, rfl⟩ := List.mem_map.1 hx
      exact tickChannel_inv (h.channels y hy)
    ownerIff := hown
    transaction := by
      intro j x ho hx
      obtain ⟨y, hy, ha⟩ := (hown j).1 ho
      obtain rfl : y = x := Option.some.inj (hy.symm.trans hx)
      have hu := (tickChannels_active_iff j y).1 ⟨hy, ha⟩
      exact transactionInv_congr (h.transaction j y ho hu.1) rfl rfl }

theorem tickPort_inv (hk : CfgOk prm u.cfg) (h : PortInv prm u) : PortInv prm (tickPort prm u) := by
  rw [tickPort_eq]
  apply tickChannels_inv
  by_cases hs : u.ps.seq = .idle
  · have : tickPs prm u.cfg u.ps = u.ps := by simp only [tickPs, hs]
    simpa only [Port.modPs, this] using h
  · obtain ⟨c, ch, ho, hc⟩ := owner_of_not_idle h hs
    exact inv_modPs_of_attempt h ho hc (tickPs_sameRequest prm u.cfg u.ps)
      (tickPs_attempt hk (attemptInv_of_inv h ho hc))

/-- Every step of every agent keeps the invariant. -/
theorem step_inv {s t : State} (hi : Inv s) (h : step s = .next t) : Inv t := by
  have hl := (step_ports h).1
  exact step_keeps_ports h hi (fun u hu hp => tickPort_inv (cfgOk_of_legal hl hu) hp)
    (fun u hu _ hp hm => move_inv (cfgOk_of_legal hl hu) hp hm)

/-! ### What the invariant gives, and the invariant after reset -/

theorem r64_of_inv (h : PortInv prm u) : R64 u where
  ownerActive c := (h.ownerIff c).1
  oneActive c c' ch ch' hc hc' ha ha' := by
    have ho := (h.ownerIff c).2 ⟨ch, hc, ha⟩
    rw [(h.ownerIff c').2 ⟨ch', hc', ha'⟩] at ho
    exact (Option.some.inj ho).symm
  idleUnowned := h.idleUnowned
  deSending hde := (h.deWaiting hde).1
  busyInit := h.busyInit
  rxFits := h.rxFits.1.trans h.rxFits.2
  txFits := h.txFits.1.trans h.txFits.2

theorem attempts_le_of_inv (h : PortInv prm u) (ho : u.ps.owner = some c) (hc : u.chans[c]? = some ch) :
    ch.attempts.toNat ≤ u.cfg.maxRetries + 1 := by
  rw [(h.transaction c ch ho hc).attempts]
  split <;> omega

theorem portInv_reset (prm : Params) (cfg : PortConfig) : PortInv prm (Port.reset prm.numChannels cfg) where
  chanCount := by simp [Port.reset]
  channels ch hch := by
    obtain ⟨-, rfl⟩ := List.mem_replicate.1 hch
    exact channelInv_free _ rfl rfl
  ownerIff c := by
    simp only [Port.reset, PortState.reset, List.getElem?_replicate]
    constructor
    · intro h; cases h
    · rintro ⟨ch, hch, ha⟩
      split at hch <;> cases hch
      cases ha
  idleUnowned := by simp [Port.reset, PortState.reset]
  deWaiting := by simp [Port.reset, PortState.reset]
  waitingDe := by simp [Port.reset, PortState.reset]
  busyInit := by simp [Port.reset, PortState.reset]
  closedLine _ := rfl
  rxFits := ⟨Nat.le_refl _, Nat.zero_le _⟩
  txFits := ⟨Nat.le_refl _, Nat.zero_le _⟩
  awaitingRoom := by simp [Port.reset, PortState.reset]
  respTimer := by simp [Port.reset, PortState.reset]
  txcTimer := by simp [Port.reset, PortState.reset]
  validatingOn := by simp [Port.reset, PortState.reset]
  successOk := by simp [Port.reset, PortState.reset]
  retryBudget := by simp [Port.reset, PortState.reset]
  fatalStatus := by simp [Port.reset, PortState.reset]
  transaction := by simp [Port.reset, PortState.reset]

theorem inv_resetWith (cfg : Config) : Inv (State.resetWith cfg) := by
  intro u hu
  obtain ⟨f, -, rfl⟩ := List.mem_map.1 hu
  exact portInv_reset cfg.params f

end

/-- Settles O47, by what a tick and each move keep of a port's invariant. -/
theorem stepKeepsInvariant : Obligations.StepKeepsInvariant := fun _ _ => step_inv

/-- Settles O48, from the port's invariant. -/
theorem invariantGivesR64 : Obligations.InvariantGivesR64 := fun _ u hi hu =>
  ⟨r64_of_inv (hi u hu), fun ch _ => csr_busy ch, fun _ _ => attempts_le_of_inv (hi u hu)⟩

/-- Settles O46: at reset no channel is busy and every sequencer is IDLE. -/
theorem invariantAfterReset : Obligations.InvariantAfterReset := inv_resetWith

end Sys2Proof.Machine
end

section
/-! Proofs of the family 20_memory: the register numbers, the host's reads and writes, and the payload order. -/

namespace Sys2Proof.Machine

/-! ### The register numbers (20_memory.md R80, R83) -/

/-- From number 9 on there are the reserved numbers and the DATA words alone. -/
theorem regOf_of_nine_le {n : Byte} (h : 9 ≤ n.toNat) : regOf n =
    if n.toNat < 16 then none
    else if h : n.toNat - 16 < 125 then some (.data ⟨n.toNat - 16, h⟩) else none := by
  have hne : ∀ k : Byte, k.toNat < 9 → n ≠ k := by rintro k hk rfl; omega
  rw [regOf, if_neg (hne 0 (by decide)), if_neg (hne 1 (by decide)), if_neg (hne 2 (by decide)),
    if_neg (hne 3 (by decide)), if_neg (hne 4 (by decide)), if_neg (hne 5 (by decide)), if_neg (hne 6 (by decide)),
    if_neg (hne 7 (by decide)), if_neg (hne 8 (by decide))]

theorem number_below_nine {n : Byte} (h : n.toNat < 9) : ∃ k : Fin 9, n = BitVec.ofNat 8 k.val :=
  ⟨⟨n.toNat, h⟩, (BitVec.ofNat_toNat 8 n).symm⟩

theorem regOf_data {n : Byte} {i : Fin 125} (h : n.toNat = 16 + i.val) : regOf n = some (.data i) := by
  have hi : n.toNat - 16 = i.val := by omega
  rw [regOf_of_nine_le (by omega), if_neg (by omega), dif_pos (hi ▸ i.isLt)]
  simp only [hi]

theorem number_data_toNat (i : Fin 125) : (Reg.data i).number.toNat = 16 + i.val := by
  have := i.isLt
  simp only [Reg.number, BitVec.toNat_ofNat]
  omega

@[simp] theorem regOf_number (r : Reg) : regOf r.number = some r := by
  cases r with
  | data i => exact regOf_data (number_data_toNat i)
  | cmd | csr | slave | addr | qty | exc | attempts | crcr | psr => rfl

theorem regOf_eq_none_iff (n : Byte) : regOf n = none ↔ (9 ≤ n.toNat ∧ n.toNat ≤ 15) ∨ 141 ≤ n.toNat := by
  by_cases hn : 9 ≤ n.toNat
  · rw [regOf_of_nine_le hn]
    split_ifs <;> simp <;> omega
  · obtain ⟨k, rfl⟩ := number_below_nine (Nat.lt_of_not_le hn)
    decide +revert

/-- A number names at most the register whose number it is. -/
theorem number_of_regOf {n : Byte} {r : Reg} (h : regOf n = some r) : n = r.number := by
  by_cases hn : 9 ≤ n.toNat
  · rw [regOf_of_nine_le hn] at h
    split_ifs at h
    cases h
    exact BitVec.eq_of_toNat_eq (by rw [number_data_toNat]; dsimp only; omega)
  · obtain ⟨k, rfl⟩ := number_below_nine (Nat.lt_of_not_le hn)
    fin_cases k <;> cases h <;> rfl

/-- Settles O3, from the decoder below 9 and from 9 on. -/
theorem registerNumbersAgree : Obligations.RegisterNumbersAgree :=
  ⟨⟨rfl, rfl, rfl, rfl, rfl, rfl, rfl, rfl, rfl, number_data_toNat⟩, regOf_number, regOf_eq_none_iff⟩

/-! ### The host's reads and writes (20_memory.md R84, R85) -/

section
variable {s : State} {u : Port} {ch : Channel} {n : Byte} {v : Word}

theorem withChan_eq {p c : Nat} (hu : s.ports[p]? = some u) (hc : u.chans[c]? = some ch)
    (k : Port → Channel → Host.Outcome State Fault Refusal) : s.withChan p c k = k u ch := by
  simp only [State.withChan, hu, hc]

theorem hostReadStep_eq {r : RegName} (hu : s.ports[r.port]? = some u) (hc : u.chans[r.chan]? = some ch) :
    hostReadStep s r = .next { s with hostIn := readReg u r.chan ch r.reg } := withChan_eq hu hc _

/-- A host write of CMD is the issue step (R85). -/
theorem hostWriteStep_cmd {r : RegName} (hu : s.ports[r.port]? = some u) (hc : u.chans[r.chan]? = some ch)
    (hr : r.reg = 0) (v : Word) : hostWriteStep s r v = issueStep s r.port r.chan u ch v := by
  rw [hostWriteStep, withChan_eq hu hc, if_pos hr]

/-- A host write of any other register changes the record of its channel alone (R85). -/
theorem hostWriteStep_operand {r : RegName} (hu : s.ports[r.port]? = some u) (hc : u.chans[r.chan]? = some ch)
    (hr : r.reg ≠ 0) (v : Word) :
    hostWriteStep s r v = .next (s.setPort r.port (u.putChan r.chan (writeReg ch r.reg v))) := by
  rw [hostWriteStep, withChan_eq hu hc, if_neg hr, modChan_eq_putChan hc]

theorem busy_of_free (hf : ch.phase = .free) : ch.busy = false := by simp [Channel.busy, hf]

/-- The issue step of a legal word on a free channel is the first step of its command (43_transaction_engine.md R231). -/
theorem issueStep_command {i : Instr} (hf : ch.phase = .free) (hv : decode v = .command i) (p c : Nat) :
    issueStep s p c u ch v = exec i (s.select p c false 0) := by
  simp [issueStep, busy_of_free hf, hv]

/-! What a write does to a channel that is not BUSY, one lemma a kind of register. -/

theorem writeReg_slave (hf : ch.phase = .free) : writeReg ch 2 v = { ch with slave := lo8 v } := by
  rw [writeReg, busy_of_free hf]; rfl

theorem writeReg_addr (hf : ch.phase = .free) : writeReg ch 3 v = { ch with addr := v } := by
  rw [writeReg, busy_of_free hf]; rfl

theorem writeReg_qty (hf : ch.phase = .free) : writeReg ch 4 v = { ch with qty := v } := by
  rw [writeReg, busy_of_free hf]; rfl

theorem writeReg_data {i : Fin 125} (hf : ch.phase = .free) (hn : n.toNat = 16 + i.val) :
    writeReg ch n v = { ch with data := ch.data.set i v } := by
  simp [writeReg, busy_of_free hf, regOf_data hn]

/-- CSR, EXC, ATTEMPTS, CRCR, PSR and the reserved numbers ignore writes (R83, R85). -/
theorem writeReg_readOnly (hn : n = 1 ∨ (5 ≤ n.toNat ∧ n.toNat ≤ 15) ∨ 141 ≤ n.toNat) : writeReg ch n v = ch := by
  cases hr : regOf n with
  | none => simp [writeReg, hr]
  | some r =>
    obtain rfl := number_of_regOf hr
    cases r with
    | slave | addr | qty => exact absurd hn (by decide)
    | data i =>
      have hi := number_data_toNat i
      rcases hn with h | h
      · rw [h] at hi
        change 1 = 16 + i.val at hi
        omega
      · omega
    | cmd | csr | exc | attempts | crcr | psr => simp [writeReg, hr]

/-! What a read answers from number 9 on; below it the named register is read off by evaluation. -/

theorem readReg_data {i : Fin 125} (c : Nat) (hn : n.toNat = 16 + i.val) : readReg u c ch n = ch.data[i] := by
  simp [readReg, regOf_data hn]

theorem readReg_reserved (c : Nat) (hn : (9 ≤ n.toNat ∧ n.toNat ≤ 15) ∨ 141 ≤ n.toNat) : readReg u c ch n = 0 := by
  simp [readReg, (regOf_eq_none_iff n).2 hn]

/-- The command of a table word is the one its low 16 bits decode to. -/
theorem decode_of_decodeTableWord {nbits w : Nat} {i : Instr} (h : decodeTableWord nbits w = some i) :
    decode (BitVec.ofNat 16 (w % 2 ^ nbits)) = .command i := by
  unfold decodeTableWord at h
  dsimp only at h
  split at h
  · split at h
    · cases h; assumption
    · cases h
  · cases h

/-- The word `withFetchWord` places is the next step, and what was pending follows it. -/
theorem nextWrites_withFetchWord (hl : s.config.legal = true) {p c : Nat} (hfree : firstFree s.ports 0 = (p, c))
    (nbits w : Nat) :
    NextWrites (s.withFetchWord nbits w) ⟨p, c, 0⟩ (BitVec.ofNat 16 (w % 2 ^ nbits)) s.pending :=
  .inl ⟨hl, by simp [commandWrite, hfree]⟩

/-- With a legal word written to CMD of a free channel as the next step, the machine runs its command (R85, R231). -/
theorem step_commandWrite {rest : List Action} {r : RegName} {i : Instr} (hw : NextWrites s r v rest) (hr : r.reg = 0)
    (hu : s.ports[r.port]? = some u) (hc : u.chans[r.chan]? = some ch) (hf : ch.phase = .free)
    (hv : decode v = .command i) :
    step s = exec i (State.select { s with pending := rest } r.port r.chan false 0) := by
  rw [step_nextWrites hw, hostWriteStep_cmd (s := { s with pending := rest }) hu hc hr, issueStep_command hf hv]

end

/-- Settles O5: the write that is next, and the write that `withFetchWord` places, both run the decoded command. -/
theorem stepRunsDecodedCommand : Obligations.StepRunsDecodedCommand := by
  refine ⟨fun _ _ _ _ _ _ _ => step_commandWrite, fun s nbits w p c i u ch hl hi hfree hu hc hf => ?_⟩
  exact step_commandWrite (nextWrites_withFetchWord hl hfree nbits w) rfl hu hc hf (decode_of_decodeTableWord hi)

/-- Settles O10: the next step is a write of an operand register, read off one kind of register at a time. -/
theorem freeChannelTakesOperands : Obligations.FreeChannelTakesOperands := by
  rintro s rest ⟨p, c, n⟩ v u ch hw h0 hu hc hf
  refine ⟨writeReg ch n v, ?_, ?_, ?_, ?_, fun i => writeReg_data hf, writeReg_readOnly⟩
  · rw [step_nextWrites hw, hostWriteStep_operand (s := { s with pending := rest }) hu hc h0]
  · rintro rfl; exact writeReg_slave hf
  · rintro rfl; exact writeReg_addr hf
  · rintro rfl; exact writeReg_qty hf

/-- Settles O11: the next step is a host read, whose value is read off one register number at a time. -/
theorem hostReadReturnsRegister : Obligations.HostReadReturnsRegister := by
  rintro s rest ⟨p, c, n⟩ u ch hr hu hc
  refine ⟨readReg u c ch n, (step_nextReads hr).trans (hostReadStep_eq hu hc), ?_, ?_, ?_, ?_, ?_, ?_, ?_, ?_, ?_,
    fun i => readReg_data c, readReg_reserved c⟩
  all_goals rintro rfl; rfl

/-! ### The payload order (20_memory.md R91, 41_adu_codec.md R165, 44_function_commands.md R283) -/

theorem dataWordsBe_succ (d : DataBuffer) (q : Nat) :
    dataWordsBe d (q + 1) = dataWordsBe d q ++ be16 ((d[q]?).getD 0) := by
  simp [dataWordsBe, List.range_succ]

/-- The bytes of word `j` as they are sent: the high half first (R88). -/
theorem byteAt_dataWordsBe (d : DataBuffer) {q j : Nat} (h : j < q) :
    byteAt (dataWordsBe d q) (2 * j) = hi8 ((d[j]?).getD 0) ∧
      byteAt (dataWordsBe d q) (2 * j + 1) = lo8 ((d[j]?).getD 0) := by
  induction q with
  | zero => omega
  | succ q ih =>
    rw [dataWordsBe_succ]
    rcases Nat.lt_succ_iff_lt_or_eq.1 h with hlt | rfl
    · rw [byteAt_append_left _ _ _ (by simp; omega), byteAt_append_left _ _ _ (by simp; omega)]
      exact ih hlt
    · rw [byteAt_append_right _ _ _ (by simp), byteAt_append_right _ _ _ (by simp)]
      simp [byteAt, be16]

theorem byteAt_dataBytes (d : DataBuffer) {n k : Nat} (h : k < n) : byteAt (dataBytes d n) k = dataByte d k := by
  simp [byteAt, dataBytes, h]

/-- The halves of `DATA[i]` are its bytes `2i` and `2i + 1` (10_state.md R53). -/
theorem dataByte_even (d : DataBuffer) (i : Fin 125) : dataByte d (2 * i.val) = lo8 d[i] := by
  simp [dataByte]

theorem dataByte_odd (d : DataBuffer) (i : Fin 125) : dataByte d (2 * i.val + 1) = hi8 d[i] := by
  have h : (2 * i.val + 1) / 2 = i.val := by omega
  simp [dataByte, h]

theorem storeRegisters_get (d : DataBuffer) (q : Nat) (b : List Byte) (i : Fin 125) :
    (storeRegisters d q b)[i] =
      if i.val < q then join16 (byteAt b (2 * i.val)) (byteAt b (2 * i.val + 1)) else d[i] := by
  simp [storeRegisters]

theorem storeBytes_get (d : DataBuffer) (n : Nat) (b : List Byte) (i : Fin 125) : (storeBytes d n b)[i] =
    join16 (if 2 * i.val + 1 < n then byteAt b (2 * i.val + 1) else hi8 d[i])
      (if 2 * i.val < n then byteAt b (2 * i.val) else lo8 d[i]) := by
  simp [storeBytes]

/-- Every byte of the buffer is a half of one of its words. -/
theorem byteIndex_cases {k : Nat} (hk : k < 250) : ∃ i : Fin 125, k = 2 * i.val ∨ k = 2 * i.val + 1 :=
  ⟨⟨k / 2, by omega⟩, by dsimp only; omega⟩

/-- Storing bytes puts byte `k` of the payload in byte `k` of the buffer, and keeps the bytes from `n` on (R283). -/
theorem dataByte_storeBytes (d : DataBuffer) (n : Nat) (b : List Byte) {k : Nat} (hk : k < 250) :
    dataByte (storeBytes d n b) k = if k < n then byteAt b k else dataByte d k := by
  obtain ⟨i, rfl | rfl⟩ := byteIndex_cases hk
  · rw [dataByte_even, dataByte_even, storeBytes_get, lo8_join16]
  · rw [dataByte_odd, dataByte_odd, storeBytes_get, hi8_join16]

/-- Settles O58: a stored word is joined from the halves it was sent as, and a stored byte is the byte sent. -/
theorem payloadOrderAgrees : Obligations.PayloadOrderAgrees := by
  refine fun d e q _ => ⟨fun j => ?_, fun n k _ hk => ?_⟩
  · rw [storeRegisters_get]
    split
    · obtain ⟨hhi, hlo⟩ := byteAt_dataWordsBe d ‹j.val < q›
      rw [hhi, hlo, join16_hi8_lo8]
      simp
    · rfl
  · rw [dataByte_storeBytes e n _ hk]
    split
    · exact byteAt_dataBytes d ‹k < n›
    · rfl

end Sys2Proof.Machine
end

section
/-! Proofs of the family 30_encoding: the command words and the codes of the statuses. -/

namespace Sys2Proof.Machine

/-! ### The command words (30_encoding.md R100 to R102, R110 to R112) -/

section
variable {op : Byte} {w : Word} {i : Instr}

theorem commandOf_eq_some_iff : commandOf op = some i ↔ op = i.op :=
  ⟨op_of_commandOf, by rintro rfl; exact commandOf_op i⟩

/-- The reserved OPs are those of no command (R112). -/
theorem commandOf_eq_none_iff : commandOf op = none ↔ ∀ i : Instr, op ≠ i.op := by
  simp only [Option.eq_none_iff_forall_ne_some, ne_eq, commandOf_eq_some_iff]

@[simp] theorem hi8_encode (i : Instr) : hi8 (encode i) = 0 := by cases i <;> decide

@[simp] theorem lo8_encode (i : Instr) : lo8 (encode i) = i.op := by cases i <;> decide

/-- A word decodes to a command exactly when it is that command's word: its halves are RSVD = 0 and the OP (R102). -/
theorem decode_eq_command_iff : decode w = .command i ↔ w = encode i := by
  constructor
  · intro h
    obtain ⟨hhi, hlo⟩ := decode_command h
    exact word_ext_halves (by rw [hhi, hi8_encode]) (by rw [op_of_commandOf hlo, lo8_encode])
  · rintro rfl
    exact decode_encode i

/-- RSVD decides before OP is looked at (R101). -/
theorem decode_of_rsvd (h : hi8 w ≠ 0) : decode w = .illegal .reservedBits := if_pos h

theorem decode_of_reservedOp (h : hi8 w = 0) (hop : ∀ i : Instr, lo8 w ≠ i.op) :
    decode w = .illegal .reservedOp := by
  rw [decode, if_neg (not_not.2 h), commandOf_eq_none_iff.2 hop]

theorem decode_of_op (h : hi8 w = 0) (hop : lo8 w = i.op) : decode w = .command i := by
  rw [decode, if_neg (not_not.2 h), commandOf_eq_some_iff.2 hop]

/-- The three kinds of word (R102). -/
theorem decode_cases (w : Word) :
    (hi8 w ≠ 0 ∧ decode w = .illegal .reservedBits) ∨
    (hi8 w = 0 ∧ (∀ i : Instr, lo8 w ≠ i.op) ∧ decode w = .illegal .reservedOp) ∨
    (hi8 w = 0 ∧ ∃ i : Instr, lo8 w = i.op ∧ decode w = .command i) := by
  by_cases h : hi8 w = 0
  · by_cases hop : ∃ i : Instr, lo8 w = i.op
    · obtain ⟨i, hi⟩ := hop
      exact .inr (.inr ⟨h, i, hi, decode_of_op h hi⟩)
    · have hop : ∀ i : Instr, lo8 w ≠ i.op := not_exists.1 hop
      exact .inr (.inl ⟨h, hop, decode_of_reservedOp h hop⟩)
  · exact .inl ⟨h, decode_of_rsvd h⟩

theorem decode_eq_reservedBits_iff : decode w = .illegal .reservedBits ↔ hi8 w ≠ 0 := by
  refine ⟨fun hd h => ?_, decode_of_rsvd⟩
  obtain ⟨hne, -⟩ | ⟨-, -, hw⟩ | ⟨-, i, -, hw⟩ := decode_cases w
  · exact hne h
  · rw [hd] at hw; cases hw
  · rw [hd] at hw; cases hw

theorem decode_eq_reservedOp_iff : decode w = .illegal .reservedOp ↔ hi8 w = 0 ∧ ∀ i : Instr, lo8 w ≠ i.op := by
  refine ⟨fun hd => ?_, fun ⟨h, hop⟩ => decode_of_reservedOp h hop⟩
  obtain ⟨-, hw⟩ | ⟨h, hop, -⟩ | ⟨-, i, -, hw⟩ := decode_cases w
  · rw [hd] at hw; cases hw
  · exact ⟨h, hop⟩
  · rw [hd] at hw; cases hw

end

/-- Settles O2: the word's two halves decide, RSVD before OP. -/
theorem decodeEncodeAgree : Obligations.DecodeEncodeAgree :=
  ⟨fun i => ⟨by cases i <;> rfl, decode_encode i⟩, fun _ _ => decode_eq_command_iff,
    fun _ => decode_eq_reservedBits_iff, fun _ => decode_eq_reservedOp_iff⟩

/-- Settles O1: each word of the tables is the encoding of its command. -/
theorem commandWordsDecode : Obligations.CommandWordsDecode :=
  ⟨decode_encode .rc, decode_encode .rhr, decode_encode .rir, decode_encode .wsc, decode_encode .wsr,
    decode_encode .wmc, decode_encode .wmr, decode_encode .init, decode_encode .deinit, decode_encode .crc,
    decode_encode .crcchk⟩

/-! ### The status codes (30_encoding.md R120 to R123) -/

/-- The status a code stands for: with bit 7 set that of the exception code in the other bits (R122), else the block's
own (R120). The codes of no status give ERROR. -/
def statusOfCode (k : Byte) : Status :=
  if isExceptionFc k then excStatus (k &&& 0x7F)
  else if k = 0x00 then .ok
  else if k = 0x02 then .invalidParameter
  else if k = 0x03 then .notInitialized
  else if k = 0x04 then .alreadyInitialized
  else if k = 0x05 then .busy
  else if k = 0x06 then .timeout
  else if k = 0x07 then .crcError
  else if k = 0x08 then .unexpectedResponse
  else .error

theorem statusOfCode_code (st : Status) : statusOfCode st.code = st := by cases st <;> decide

theorem code_injective : Function.Injective Status.code :=
  Function.LeftInverse.injective statusOfCode_code

theorem excStatus_unnamed {e : Byte} (he : e ∉ ([0x01, 0x02, 0x03, 0x04, 0x05, 0x06, 0x0A, 0x0B] : List Byte)) :
    excStatus e = .error := by
  simp only [List.mem_cons, List.not_mem_nil, or_false, not_or] at he
  obtain ⟨h1, h2, h3, h4, h5, h6, h10, h11⟩ := he
  rw [excStatus, if_neg h1, if_neg h2, if_neg h3, if_neg h4, if_neg h5, if_neg h6, if_neg h10, if_neg h11]

/-- Settles O4: the eight codes one by one, and a status read back from its code. -/
theorem exceptionCodesMapOneToOne : Obligations.ExceptionCodesMapOneToOne :=
  ⟨⟨rfl, rfl, rfl, rfl, rfl, rfl, rfl, rfl⟩, by decide, fun _ => excStatus_unnamed, fun _ _ h => code_injective h⟩

end Sys2Proof.Machine
end

section
/-! Proofs of the family 30_encoding: runs of one port under a list of the agents' steps, one lemma a step. -/

namespace Sys2Proof.Machine

section
variable {prm : Params} {p c n : Nat} {u v w : Port} {ch ch' : Channel} {i : Instr} {a : Action} {as bs : List Action}

/-! ### Runs of one port -/

theorem runsTo_succ {s t r : State} {k : Nat} (h : step s = .next t) (hr : runsTo k t r) : runsTo (k + 1) s r := by
  have hs : Sys2Proof.core.step s = .next t := h
  simp only [runsTo, Host.Core.run, hs]
  exact hr

/-- Under the parameters `prm`, agent's step `a` takes port `p` from `u` to `v`, whatever the rest of the state. -/
def PortTakes (prm : Params) (p : Nat) (a : Action) (u v : Port) : Prop :=
  ∀ s : State, s.params = prm → s.ports[p]? = some u → ∃ t, actionStep a s = .next t ∧ t.ports[p]? = some v

/-- The agents' steps `as`, one after the other, take port `p` from `u` to `v`. -/
inductive PortRun (prm : Params) (p : Nat) : List Action → Port → Port → Prop where
  | nil (u : Port) : PortRun prm p [] u u
  | cons {a : Action} {as : List Action} {u v w : Port} (h : PortTakes prm p a u v) (hr : PortRun prm p as v w) :
      PortRun prm p (a :: as) u w

theorem PortTakes.run (h : PortTakes prm p a u v) : PortRun prm p [a] u v := .cons h (.nil v)

theorem PortRun.append (h : PortRun prm p as u v) (h' : PortRun prm p bs v w) : PortRun prm p (as ++ bs) u w := by
  induction h with
  | nil => exact h'
  | cons hstep _ ih => exact .cons hstep (ih h')

/-- One agent's step leaves the steps to come as they are. -/
theorem actionStep_pending {s t : State} (h : actionStep a s = .next t) : t.pending = s.pending := by
  obtain ⟨-, rfl⟩ | ⟨-, hp, -⟩ := actionStep_moves h
  · rfl
  · exact hp

/-- A run of port `p` is a run of the machine whose pending steps begin with the run's. -/
theorem PortRun.runsTo_of_pending (h : PortRun prm p as u v) {s : State} {rest : List Action}
    (hl : s.config.legal = true) (hprm : s.params = prm) (hu : s.ports[p]? = some u) (hp : s.pending = as ++ rest) :
    ∃ t, runsTo as.length s t ∧ t.pending = rest ∧ t.ports[p]? = some v := by
  induction h generalizing s with
  | nil => exact ⟨s, rfl, hp, hu⟩
  | cons hstep _ ih =>
    obtain ⟨t, ht, hv⟩ := hstep { s with pending := _ ++ rest } hprm hu
    have hst := (step_pending hl hp).trans ht
    obtain ⟨-, hprm', -⟩ := step_ports hst
    obtain ⟨r, hr, hrest⟩ :=
      ih (by rw [step_config hst, hl]) (hprm'.trans hprm) hv (actionStep_pending ht)
    exact ⟨r, runsTo_succ hst hr, hrest⟩

/-! ### One agent's step of a port -/

/-- A step of command `i`, put in hand on channel `c`, takes its port to `portEffect`. -/
theorem exec_takes {s : State} (hu : s.ports[p]? = some u) (hc : u.chans[c]? = some ch) (i : Instr) (o : Bool)
    (n : Nat) : ∃ t, exec i (s.select p c o n) = .next t ∧
      t.ports[p]? = some (portEffect i s.params { port := p, chan := c, openOk := o, accepted := n } u ch) :=
  ⟨_, exec_inHand i ⟨hu, hc⟩, setPort_get hu _⟩

/-- The host writes a register other than CMD (20_memory.md R85). -/
theorem portTakes_operand (hc : u.chans[c]? = some ch) {k : Byte} (hk : k ≠ 0) {x : Word}
    (hw : writeReg ch k x = ch') : PortTakes prm p (.hostWrite ⟨p, c, k⟩ x) u (u.putChan c ch') := by
  rintro s _ hu
  subst hw
  exact ⟨_, hostWriteStep_operand (r := ⟨p, c, k⟩) hu hc hk x, setPort_get hu _⟩

/-- The same where channel `c` was written before. -/
theorem portTakes_putChan (hc : u.chans[c]? = some ch) {k : Byte} (hk : k ≠ 0) {x : Word} {ch₁ : Channel}
    (hw : writeReg ch₁ k x = ch') :
    PortTakes prm p (.hostWrite ⟨p, c, k⟩ x) (u.putChan c ch₁) (u.putChan c ch') := by
  simpa only [putChan_putChan] using portTakes_operand (prm := prm) (p := p) (putChan_get hc ch₁) hk hw

/-- The host writes a command word to CMD of a free channel (43_transaction_engine.md R231). -/
theorem portTakes_issue (hc : u.chans[c]? = some ch) (hf : ch.phase = .free) {x : Word}
    (hx : decode x = .command i) : PortTakes prm p (.hostWrite ⟨p, c, 0⟩ x) u (issueEffect i u c ch) := by
  intro s _ hu
  have hstep : actionStep (.hostWrite ⟨p, c, 0⟩ x) s = exec i (s.select p c false 0) :=
    (hostWriteStep_cmd (r := ⟨p, c, 0⟩) hu hc rfl x).trans (issueStep_command hf hx p c)
  rw [hstep]
  simpa only [portEffect, hf] using exec_takes hu hc i false 0

/-- The lock is granted to a waiting channel (R240). -/
theorem portTakes_grant (hc : u.chans[c]? = some ch) (hw : ch.phase = .waitLock) (hlock : u.ps.owner = none)
    (hcmd : decode ch.cmd = .command i) (o : Bool) :
    PortTakes prm p (.grant p c o) u (grantEffect i o u c ch) := by
  intro s _ hu
  have hstep : actionStep (.grant p c o) s = exec i (s.select p c o 0) := by
    simp only [actionStep, grantStep, withChan_eq hu hc, hw, hlock, and_self, if_true, hcmd]
  rw [hstep]
  simpa only [portEffect, hw, hlock, if_true] using exec_takes hu hc i o 0

/-- Channel `c`, whose record is `ch`, holds the lock of port `u` and runs a Modbus command. -/
structure HeldBy (u : Port) (c : Nat) (ch : Channel) : Prop where
  owner  : u.ps.owner = some c
  chan   : u.chans[c]? = some ch
  active : ch.phase = .active
  modbus : ∃ i, commandOf u.ps.req.op = some i ∧ i.isModbus = true

/-- A step within the transaction leaves the lock with its holder. -/
theorem HeldBy.keep (h : HeldBy u c ch) (hps : SameRequest u.ps v.ps) (hc : v.chans[c]? = some ch')
    (ha : ch'.phase = ch.phase) : HeldBy v c ch' :=
  ⟨hps.owner.trans h.owner, hc, ha.trans h.active, by rw [hps.req]; exact h.modbus⟩

/-- The sequencer of a held port takes its step (R243). -/
theorem portTakes_sequencer (h : HeldBy u c ch) (n : Nat) :
    PortTakes prm p (.sequencer p n) u (sequencerStep prm n u c) := by
  obtain ⟨ho, hc, ha, i, hi, hm⟩ := h
  rintro s rfl hu
  have hstep : actionStep (.sequencer p n) s = exec i (s.select p c false n) := by
    simp only [actionStep, portStep, State.withPort, hu, ho, withChan_eq hu hc, ha, if_true, hi]
  rw [hstep]
  simpa only [portEffect, ha, hm, ho, and_self, if_true] using exec_takes hu hc i false n

/-- The bytes `q` arrive on the line of an open port (42_transport_port.md R208). -/
theorem portRun_arrivals (hinit : u.ps.init = true) (q : List Byte) :
    PortRun prm p (q.map (Action.rx p)) u (u.setLine (u.env.lineRx ++ q)) := by
  induction q generalizing u with
  | nil => simpa [Port.setLine] using PortRun.nil (prm := prm) (p := p) u
  | cons b q ih =>
    have hb : PortTakes prm p (.rx p b) u (u.setLine (u.env.lineRx ++ [b])) := by
      intro s _ hu
      refine ⟨s.setPort p (rxPort b u), by simp only [actionStep, State.withPort, hu], ?_⟩
      rw [setPort_get hu, rxPort, if_pos hinit]
    have hq := ih (u := u.setLine (u.env.lineRx ++ [b])) hinit
    rw [setLine_env, List.append_assoc] at hq
    exact .cons hb hq

/-! ### A Modbus command up to its lock grant -/

theorem issueEffect_modbus (hm : i.isModbus = true) : issueEffect i u c ch = issueModbus i u c ch := by
  cases i with
  | rc | rhr | rir | wsc | wsr | wmc | wmr => rfl
  | init | deinit | crc | crcchk => cases hm

theorem grantEffect_modbus (hm : i.isModbus = true) (o : Bool) : grantEffect i o u c ch = grantModbus u c ch := by
  cases i with
  | rc | rhr | rir | wsc | wsr | wmc | wmr => rfl
  | init | deinit | crc | crcchk => cases hm

/-- The four host writes of a Modbus line (30_encoding.md R124) put its operands and its command on a free channel,
which then waits for the lock. -/
theorem portRun_modbusLine (hm : i.isModbus = true) (hc : u.chans[c]? = some ch) (hf : ch.phase = .free)
    (sl ad q : Word) (hargs : argsOk i { ch with slave := lo8 sl, addr := ad, qty := q } = true) :
    PortRun prm p (programActions p c [.modbus i sl ad q]) u
      (u.putChan c (enterWaitLock (encode i) { ch with slave := lo8 sl, addr := ad, qty := q })) := by
  have hissue := portTakes_issue (prm := prm) (p := p)
    (putChan_get hc { ch with slave := lo8 sl, addr := ad, qty := q }) hf (decode_encode i)
  rw [issueEffect_modbus hm, issueModbus, if_pos hargs, modChan_eq_putChan (putChan_get hc _), putChan_putChan]
    at hissue
  exact .cons (portTakes_operand hc (by decide) (writeReg_slave hf))
    (.cons (portTakes_putChan hc (by decide) (writeReg_addr (by exact hf)))
      (.cons (portTakes_putChan hc (by decide) (writeReg_qty (by exact hf))) hissue.run))

end
end Sys2Proof.Machine
end

section
/-! Proofs of the family 30_encoding: the response that answers a read (41_adu_codec.md R167), and where its receive
phase ends. -/

namespace Sys2Proof.Machine

/-! ### The CRC check -/

/-- A sequence with its CRC appended passes the check (40_crc16.md R142, R143). -/
@[simp] theorem crcOk_appendCrc (s : List Byte) : crcOk (appendCrc s) = true := by
  have hlo : byteAt (appendCrc s) s.length = lo8 (crc16 s) := by
    rw [appendCrc, byteAt_append_right _ _ _ (Nat.le_refl _), Nat.sub_self]; rfl
  have hhi : byteAt (appendCrc s) (s.length + 1) = hi8 (crc16 s) := by
    rw [appendCrc, byteAt_append_right _ _ _ (by omega), Nat.add_sub_cancel_left]; rfl
  have htake : (appendCrc s).take s.length = s := by simp [appendCrc]
  simp [crcOk, hlo, hhi, htake]

/-! ### The frame of a read response -/

section
variable {op : Byte} {rx : List Byte}

theorem isRead_iff : isRead op = true ↔ op = 0x01 ∨ op = 0x03 ∨ op = 0x04 := by
  simp [isRead, or_assoc]

/-- A read's function code has bit 7 clear (30_encoding.md R114) and is no write's. -/
theorem isRead_plain (h : isRead op = true) : isExceptionFc op = false ∧ op &&& 0x7F = op ∧ isWrite op = false := by
  obtain rfl | rfl | rfl := isRead_iff.1 h <;> decide

/-- The expected length of what has arrived of a read response, whose byte count stands in byte 2 (R170). -/
theorem expectedLen_read (hop : isRead op = true) (hfc : 2 ≤ rx.length → byteAt rx 1 = op) :
    expectedLen rx op = if rx.length < 3 then none else some (5 + (byteAt rx 2).toNat) := by
  unfold expectedLen
  by_cases hlen : rx.length < 2
  · rw [if_pos hlen, if_pos (by omega)]
  · rw [if_neg hlen, hfc (by omega), (isRead_plain hop).1, if_neg Bool.false_ne_true, if_pos hop]

theorem frameComplete_read_iff (hop : isRead op = true) (hfc : 2 ≤ rx.length → byteAt rx 1 = op) (cap : Nat) :
    frameComplete rx op cap = true ↔ rx.length = cap ∨ (3 ≤ rx.length ∧ 5 + (byteAt rx 2).toNat ≤ rx.length) := by
  rw [frameComplete_eq, expectedLen_read hop hfc]
  split <;> simp <;> omega

theorem byteAt_take {k j : Nat} (h : j < k) : byteAt (rx.take k) j = byteAt rx j := by
  simp [byteAt, List.getElem?_take_of_lt h]

/-- A read response is complete when its last byte has arrived (R170, R171). -/
theorem frameComplete_take_read_iff (hop : isRead op = true) (hfc : byteAt rx 1 = op)
    (hlen : rx.length = 5 + (byteAt rx 2).toNat) {cap k : Nat} (hcap : rx.length ≤ cap) (hk : k ≤ rx.length) :
    frameComplete (rx.take k) op cap = true ↔ k = rx.length := by
  have hkl : (rx.take k).length = k := List.length_take_of_le hk
  rw [frameComplete_read_iff hop (fun h => by rw [byteAt_take (by omega), hfc]), hkl]
  constructor
  · rintro (h | ⟨h3, h⟩)
    · omega
    · rw [byteAt_take (by omega)] at h
      omega
  · rintro rfl
    exact .inr ⟨by omega, by rw [byteAt_take (by omega), hlen]⟩

end

/-! ### What Parse makes of it -/

/-- The response to the read `req` that carries the data bytes `d` (41_adu_codec.md R167). -/
def readResponse (req : Request) (d : List Byte) : List Byte :=
  appendCrc ([req.slave, req.op, BitVec.ofNat 8 (readByteCount req)] ++ d)

section
variable {req : Request} {d : List Byte}

@[simp] theorem readResponse_length : (readResponse req d).length = 5 + d.length := by
  simp [readResponse]; omega

@[simp] theorem readResponse_slave : byteAt (readResponse req d) 0 = req.slave := rfl

@[simp] theorem readResponse_op : byteAt (readResponse req d) 1 = req.op := rfl

theorem readResponse_count (hn : readByteCount req ≤ 250) :
    (byteAt (readResponse req d) 2).toNat = readByteCount req := by
  change (BitVec.ofNat 8 (readByteCount req)).toNat = _
  rw [BitVec.toNat_ofNat]; omega

/-- It passes every check of Parse (R173 to R180). -/
theorem parse_readResponse (hop : isRead req.op = true) (hd : d.length = readByteCount req)
    (hn : readByteCount req ≤ 250) : parse (readResponse req d) req = .ok := by
  obtain ⟨hexc, hfc, hwrite⟩ := isRead_plain hop
  have hcrc : crcOk (readResponse req d) = true := crcOk_appendCrc _
  simpa [parse, hcrc, hexc, hwrite, readResponse_count hn, hd] using hfc

/-- Its payload is the data bytes (R181). -/
theorem payload_readResponse (hop : isRead req.op = true) (hd : d.length = readByteCount req)
    (hn : readByteCount req ≤ 250) : payload (readResponse req d) req.op = d := by
  rw [payload, if_pos hop, readResponse_count hn, ← hd]
  simp [readResponse, appendCrc]

/-- Its receive phase ends with its last byte (R170, R171). -/
theorem frameComplete_readResponse_iff (hop : isRead req.op = true) (hd : d.length = readByteCount req)
    (hn : readByteCount req ≤ 250) {cap k : Nat} (hcap : 255 ≤ cap) (hk : k ≤ (readResponse req d).length) :
    frameComplete ((readResponse req d).take k) req.op cap = true ↔ k = (readResponse req d).length :=
  frameComplete_take_read_iff hop readResponse_op (by rw [readResponse_length, readResponse_count hn, hd])
    (by rw [readResponse_length]; omega) hk

end

/-! ### Register values on the line -/

/-- The bytes of register value `j` of a response: the high half first (20_memory.md R88). -/
theorem byteAt_flatMap_be16 {vs : List Word} {j : Nat} (h : j < vs.length) :
    byteAt (vs.flatMap be16) (2 * j) = hi8 vs[j] ∧ byteAt (vs.flatMap be16) (2 * j + 1) = lo8 vs[j] := by
  induction vs generalizing j with
  | nil => cases h
  | cons v vs ih =>
    rw [List.flatMap_cons]
    cases j with
    | zero => exact ⟨rfl, rfl⟩
    | succ j =>
      rw [byteAt_append_right _ _ _ (by simp), byteAt_append_right _ _ _ (by simp; omega)]
      exact ih (Nat.lt_of_succ_lt_succ h)

@[simp] theorem flatMap_be16_length (vs : List Word) : (vs.flatMap be16).length = 2 * vs.length := by
  simp [List.length_flatMap, Nat.mul_comm]

/-- Storing the payload of register values puts them in the first words, and keeps the others
(44_function_commands.md R283). -/
theorem storeRegisters_flatMap_be16 (d : DataBuffer) (vs : List Word) (j : Fin 125) :
    (storeRegisters d vs.length (vs.flatMap be16))[j] = (vs[j.val]?).getD d[j] := by
  rw [storeRegisters_get]
  split
  · obtain ⟨hhi, hlo⟩ := byteAt_flatMap_be16 ‹j.val < vs.length›
    rw [hhi, hlo, join16_hi8_lo8]
    simp [‹j.val < vs.length›]
  · simp [List.getElem?_eq_none (Nat.le_of_not_lt ‹¬ j.val < vs.length›)]

end Sys2Proof.Machine
end

section
/-! Proofs of the family 30_encoding: a transaction answered at its first attempt, step by step, and the whole register
read. -/

namespace Sys2Proof.Machine

section
variable {prm : Params} {p c : Nat} {u : Port} {ch : Channel} {ps : PortState} {rx : List Byte}

/-! ### The sequencer's steps of an answered attempt -/

theorem modPs_congr {f g : PortState → PortState} (h : f u.ps = g u.ps) : u.modPs f = u.modPs g := by
  simp only [Port.modPs, h]

/-- The port state after a write step whose whole frame went out, without direction-enable
(43_transaction_engine.md R245, R249). -/
def sentPs (ps : PortState) : PortState := enterAwaiting { ps with txlog := ps.txlog ++ [txFrame ps] }

/-- The port state after the bytes `q` were read (R251). -/
def bufferedPs (q : List Byte) (ps : PortState) : PortState :=
  { ps with rxbuf := bufWrite ps.rxbuf ps.rxlen q, rxlen := ps.rxlen + q.length }

/-- The same when they ended the receive phase (R251). -/
def receivedPs (q : List Byte) (ps : PortState) : PortState := { bufferedPs q ps with seq := .validating }

theorem writePs_full {cfg : PortConfig} (hde : cfg.dePresent = false) : writePs cfg ps.txlen ps = sentPs ps := by
  have htake : (txFrame ps).take ps.txlen = txFrame ps := by simp [txFrame]
  simp [writePs, beginTransmit, hde, htake, sentPs]

/-- Port `u` after such a write step of channel `c`, whose record was `ch`. -/
def sentPort (u : Port) (c : Nat) (ch : Channel) : Port :=
  ((u.setLine []).modPs sentPs).putChan c (countAttempt ch)

/-- The write step, the transport taking the whole frame (R245). -/
theorem portTakes_write (h : HeldBy u c ch) (hs : u.ps.seq = .sending) (hp : u.ps.txph = .start)
    (hde : u.cfg.dePresent = false) : PortTakes prm p (.sequencer p u.ps.txlen) u (sentPort u c ch) := by
  have hstep := portTakes_sequencer (prm := prm) (p := p) h u.ps.txlen
  have hps : (u.setLine []).modPs (writePs u.cfg u.ps.txlen) = (u.setLine []).modPs sentPs :=
    modPs_congr (writePs_full hde)
  simp only [sequencerStep, hs, hp, writeStep, Nat.min_self, hps] at hstep
  rwa [modChan_eq_putChan (u := (u.setLine []).modPs sentPs) h.chan] at hstep

theorem rxFrame_bufferedPs (hlen : ps.rxlen ≤ ps.rxbuf.length) (q : List Byte) :
    rxFrame (bufferedPs q ps) = rxFrame ps ++ q := take_bufWrite ps.rxbuf q ps.rxlen hlen

theorem bufferedPs_fits (hlen : ps.rxlen ≤ ps.rxbuf.length) (q : List Byte) :
    (bufferedPs q ps).rxlen ≤ (bufferedPs q ps).rxbuf.length := by
  simp only [bufferedPs, bufWrite_length _ _ _ hlen]
  exact Nat.le_max_right ..

/-- Two writes in a row, the second where the first ended, are one write. -/
theorem bufWrite_bufWrite (buf a b : List Byte) {k : Nat} (hk : k ≤ buf.length) :
    bufWrite (bufWrite buf k a) (k + a.length) b = bufWrite buf k (a ++ b) := by
  have hdrop : (bufWrite buf k a).drop (k + a.length + b.length) = buf.drop (k + (a ++ b).length) := by
    have h : (buf.take k ++ a).length = k + a.length := by simp; omega
    rw [bufWrite, ← h, List.drop_append, List.drop_eq_nil_of_le (by omega), List.nil_append, List.drop_drop, h]
    congr 1
    simp; omega
  rw [bufWrite, take_bufWrite buf a k hk, hdrop, bufWrite, List.append_assoc (buf.take k)]

theorem receivedPs_bufferedPs (hlen : ps.rxlen ≤ ps.rxbuf.length) (a q : List Byte) :
    receivedPs q (bufferedPs a ps) = receivedPs (a ++ q) ps := by
  simp only [receivedPs, bufferedPs, bufWrite_bufWrite _ _ _ hlen, List.length_append, Nat.add_assoc]

/-- A byte that completes the frame ends the receive phase; one that does not is buffered alone (R251). -/
theorem readBytePs_last (hlen : ps.rxlen ≤ ps.rxbuf.length) {cap : Nat} {b : Byte}
    (hf : frameComplete (rxFrame ps ++ [b]) ps.req.op cap = true) : readBytePs cap b ps = receivedPs [b] ps := by
  rw [← rxFrame_bufferedPs hlen] at hf
  exact if_pos hf

theorem readBytePs_more (hlen : ps.rxlen ≤ ps.rxbuf.length) {cap : Nat} {b : Byte}
    (hf : ¬ frameComplete (rxFrame ps ++ [b]) ps.req.op cap = true) : readBytePs cap b ps = bufferedPs [b] ps := by
  rw [← rxFrame_bufferedPs hlen] at hf
  exact if_neg hf

/-- The port reads the next byte that waits on its line (R251). -/
theorem portTakes_read (h : HeldBy u c ch) (hs : u.ps.seq = .awaiting) {b : Byte} {q : List Byte}
    (hline : u.env.lineRx = b :: q) {f : PortState → PortState} (hf : readBytePs u.cfg.rxBufCap b u.ps = f u.ps) :
    PortTakes prm p (.sequencer p 0) u ((u.setLine q).modPs f) := by
  have hstep := portTakes_sequencer (prm := prm) (p := p) h 0
  simp only [sequencerStep, hs, byteReadStep, hline] at hstep
  rwa [modPs_congr (u := u.setLine q) hf] at hstep

/-- The receive phase reads the bytes `q` that wait on the line, the last of them completing the frame (R171, R251). -/
theorem portRun_receive {q : List Byte} (h : HeldBy u c ch) (hs : u.ps.seq = .awaiting)
    (hlen : u.ps.rxlen ≤ u.ps.rxbuf.length) (hline : u.env.lineRx = q) (hq : q ≠ [])
    (hf : ∀ k ≤ q.length,
      (frameComplete (rxFrame u.ps ++ q.take k) u.ps.req.op u.cfg.rxBufCap = true ↔ k = q.length)) :
    PortRun prm p (List.replicate q.length (.sequencer p 0)) u ((u.setLine []).modPs (receivedPs q)) := by
  induction q generalizing u with
  | nil => exact absurd rfl hq
  | cons b q ih =>
    have hb : frameComplete (rxFrame u.ps ++ [b]) u.ps.req.op u.cfg.rxBufCap = true ↔ 1 = (b :: q).length :=
      hf 1 (by simp)
    by_cases hlast : q = []
    · subst hlast
      exact (portTakes_read h hs hline (readBytePs_last hlen (hb.2 rfl))).run
    · have hmore : ¬ 1 = (b :: q).length := by
        have := List.length_pos_iff.2 hlast
        simp only [List.length_cons]; omega
      have hend : (u.setLine []).modPs (receivedPs (b :: q)) =
          (u.setLine []).modPs (fun ps => receivedPs q (bufferedPs [b] ps)) :=
        modPs_congr (receivedPs_bufferedPs hlen [b] q).symm
      rw [hend]
      refine .cons (portTakes_read h hs hline (readBytePs_more hlen (mt hb.1 hmore)))
        (ih (h.keep ⟨rfl, rfl, rfl, rfl, rfl⟩ h.chan rfl) hs (bufferedPs_fits hlen [b]) rfl hlast fun k hk => ?_)
      have hframe : rxFrame (bufferedPs [b] u.ps) ++ q.take k = rxFrame u.ps ++ (b :: q).take (k + 1) := by
        rw [rxFrame_bufferedPs hlen, List.append_assoc]; rfl
      have hk' := hf (k + 1) (by simpa using hk)
      rw [List.length_cons, Nat.add_right_cancel_iff, ← hframe] at hk'
      exact hk'

/-- The validation step of a frame that parses OK (R253). -/
theorem validateStep_ok (hto : u.ps.timedOut = false) (hparse : parse (rxFrame u.ps) u.ps.req = .ok) :
    validateStep u c = u.modPs fun ps => { ps with seq := .success } := by
  simp only [validateStep, hto, hparse, Bool.false_eq_true, false_and, if_false]

/-- The SUCCESS step: the payload goes to DATA, the command completes with OK and frees the lock (R255). -/
theorem successStep_eq (hc : u.chans[c]? = some ch) (ho : u.ps.owner = some c) : successStep u c =
    (u.putChan c (completeChannel .ok { ch with data := copyPayload u.ps.req (rxFrame u.ps) ch.data })).modPs
      releaseLock := by
  rw [successStep, modChan_eq_putChan hc, complete_owner (putChan_get hc _) ho, putChan_putChan]

/-- A received frame `rx` that parses OK completes the command with its payload (R253, R255). -/
theorem portRun_accepted (h : HeldBy u c ch) (hs : u.ps.seq = .validating) (hto : u.ps.timedOut = false)
    (hframe : rxFrame u.ps = rx) (hparse : parse rx u.ps.req = .ok) :
    PortRun prm p [.sequencer p 0, .sequencer p 0] u
      ((u.putChan c (completeChannel .ok { ch with data := copyPayload u.ps.req rx ch.data })).modPs releaseLock) := by
  subst hframe
  have hvalidate := portTakes_sequencer (prm := prm) (p := p) h 0
  simp only [sequencerStep, hs, validateStep_ok hto hparse] at hvalidate
  have hvalid : HeldBy (u.modPs fun ps => { ps with seq := .success }) c ch :=
    h.keep ⟨rfl, rfl, rfl, rfl, rfl⟩ h.chan rfl
  have hsuccess := portTakes_sequencer (prm := prm) (p := p) hvalid 0
  simp only [sequencerStep, modPs_ps, successStep_eq hvalid.chan hvalid.owner] at hsuccess
  exact .cons hvalidate hsuccess.run

/-- From the start of an attempt without direction-enable, the transport taking the whole frame and the response `rx`
arriving whole: the frame is sent once, and the command completes with OK and the response's payload. -/
theorem portRun_answered (h : HeldBy u c ch) (hs : u.ps.seq = .sending) (hp : u.ps.txph = .start)
    (hinit : u.ps.init = true) (hde : u.cfg.dePresent = false) (hrx : rx ≠ [])
    (hf : ∀ k ≤ rx.length, (frameComplete (rx.take k) u.ps.req.op u.cfg.rxBufCap = true ↔ k = rx.length))
    (hparse : parse rx u.ps.req = .ok) :
    PortRun prm p ([.sequencer p u.ps.txlen] ++ rx.map (Action.rx p) ++ List.replicate rx.length (.sequencer p 0) ++
        [.sequencer p 0, .sequencer p 0]) u
      (((u.setLine []).putChan c
        (completeChannel .ok { countAttempt ch with data := copyPayload u.ps.req rx ch.data })).modPs
          fun ps => releaseLock (receivedPs rx (sentPs ps))) := by
  have hlen : (sentPs u.ps).rxlen ≤ (sentPs u.ps).rxbuf.length := Nat.zero_le _
  have hsent : HeldBy (sentPort u c ch) c (countAttempt ch) :=
    h.keep ⟨rfl, rfl, rfl, rfl, rfl⟩ (putChan_get h.chan _) rfl
  have harrived : HeldBy ((sentPort u c ch).setLine rx) c (countAttempt ch) :=
    hsent.keep (sameRequest_refl _) hsent.chan rfl
  have hreceived : HeldBy (((sentPort u c ch).setLine []).modPs (receivedPs rx)) c (countAttempt ch) :=
    hsent.keep ⟨rfl, rfl, rfl, rfl, rfl⟩ hsent.chan rfl
  have haccepted := portRun_accepted (prm := prm) (p := p) hreceived rfl rfl (rxFrame_bufferedPs hlen rx) hparse
  have hend (x : Channel) : (((sentPort u c ch).setLine []).modPs (receivedPs rx)).putChan c x =
      ((u.setLine []).putChan c x).modPs fun ps => receivedPs rx (sentPs ps) :=
    congrArg (fun v => (v.setLine []).modPs (receivedPs rx)) (putChan_putChan ((u.setLine []).modPs sentPs) c _ x)
  rw [hend] at haccepted
  exact (((portTakes_write h hs hp hde).run.append (portRun_arrivals (u := sentPort u c ch) hinit rx)).append
    (portRun_receive harrived rfl hlen rfl hrx hf)).append haccepted

/-! ### The lock grant -/

/-- The lock-grant step of a Modbus command on an open port takes the lock, latches and builds (R240, R242). -/
theorem portTakes_latchAndBuild {i : Instr} (hm : i.isModbus = true) (hc : u.chans[c]? = some ch)
    (hw : ch.phase = .waitLock) (hlock : u.ps.owner = none) (hcmd : decode ch.cmd = .command i)
    (hinit : u.ps.init = true) (o : Bool) :
    PortTakes prm p (.grant p c o) u (latchAndBuild (acquireLock u c) ch) := by
  have hstep := portTakes_grant (prm := prm) (p := p) hc hw hlock hcmd o
  rwa [grantEffect_modbus hm, grantModbus, if_pos hinit] at hstep

theorem heldBy_latchAndBuild {i : Instr} (hm : i.isModbus = true) (hc : u.chans[c]? = some ch)
    (hcmd : decode ch.cmd = .command i) :
    HeldBy (latchAndBuild (acquireLock u c) ch) c { ch with phase := .active } where
  owner := rfl
  chan := by rw [latchAndBuild, modPs_chans, acquireLock_chans, modify_eq_set hc]; exact putChan_get hc _
  active := rfl
  modbus := ⟨i, (decode_command hcmd).2, hm⟩

/-- The transmit buffer holds the ADU that was built (R242). -/
theorem txFrame_latchAndBuild : txFrame (latchAndBuild u ch).ps = build (latchRequest ch) ch.data := by
  have h := take_bufWrite u.ps.txbuf (build (latchRequest ch) ch.data) 0 (Nat.zero_le _)
  rwa [Nat.zero_add, List.take_zero, List.nil_append] at h

/-! ### A whole command -/

/-- The channel whose record was `ch` after the host wrote the Modbus line `i sl, ad, q`: it waits for the lock. -/
def lineChannel (i : Instr) (sl ad q : Word) (ch : Channel) : Channel :=
  enterWaitLock (encode i) { ch with slave := lo8 sl, addr := ad, qty := q }

/-- The same channel after the response `rx` answered the command at its first attempt. -/
def answeredChannel (i : Instr) (sl ad q : Word) (rx : List Byte) (ch : Channel) : Channel :=
  completeChannel .ok { lineChannel i sl ad q ch with
    attempts := 1, data := copyPayload (latchRequest (lineChannel i sl ad q ch)) rx ch.data }

/-- A Modbus line run on a free channel of an open idle port without direction-enable, and answered by `rx`
(44_function_commands.md R282). -/
theorem portRun_answeredLine {i : Instr} {sl ad q : Word} (hm : i.isModbus = true) (hc : u.chans[c]? = some ch)
    (hfree : ch.phase = .free) (hlock : u.ps.owner = none) (hinit : u.ps.init = true)
    (hde : u.cfg.dePresent = false) (hargs : argsOk i { ch with slave := lo8 sl, addr := ad, qty := q } = true)
    (hrx : rx ≠ [])
    (hf : ∀ k ≤ rx.length, (frameComplete (rx.take k) (latchRequest (lineChannel i sl ad q ch)).op u.cfg.rxBufCap =
      true ↔ k = rx.length))
    (hparse : parse rx (latchRequest (lineChannel i sl ad q ch)) = .ok) :
    ∃ v, PortRun prm p (programActions p c [.modbus i sl ad q] ++
        answeredTransaction p c (build (latchRequest (lineChannel i sl ad q ch)) ch.data).length rx) u v ∧
      v.chans[c]? = some (answeredChannel i sl ad q rx ch) ∧
      v.ps.txlog = u.ps.txlog ++ [build (latchRequest (lineChannel i sl ad q ch)) ch.data] ∧
      v.ps.owner = none ∧ v.ps.seq = .idle ∧ v.env.lineRx = [] := by
  have hwait := putChan_get hc (lineChannel i sl ad q ch)
  have hcmd : decode (lineChannel i sl ad q ch).cmd = .command i := decode_encode i
  have hgrant := portTakes_latchAndBuild (prm := prm) (p := p) hm hwait rfl hlock hcmd hinit false
  have hheld := heldBy_latchAndBuild hm hwait hcmd
  have hanswered := portRun_answered (prm := prm) (p := p) hheld rfl rfl hinit hde hrx hf hparse
  refine ⟨_, (portRun_modbusLine hm hc hfree sl ad q hargs).append (.cons hgrant hanswered),
    putChan_get hheld.chan _, congrArg (fun adu => u.ps.txlog ++ [adu]) txFrame_latchAndBuild, rfl, rfl, rfl⟩

end

/-! ### A whole register read -/

theorem lo8_eq_setWidth (v : Word) : lo8 v = v.setWidth 8 := by
  ext i hi
  simp [lo8]

theorem csr_completed_ok (ch : Channel) : (completeChannel .ok ch).csr = 0x0002 := by
  simp [Channel.csr, Channel.busy]; decide

/-- The request of a register read of `k` words (44_function_commands.md R284). -/
def rhrRequest (sl ad : Word) (k : Nat) : Request :=
  { op := 0x03, slave := sl.setWidth 8, addr := ad, qty := BitVec.ofNat 16 k }

section
variable {sl ad : Word} {k : Nat} {ch : Channel} {vs : List Word}

theorem ofNat_qty_toNat (hk : k ≤ 125) : (BitVec.ofNat 16 k).toNat = k := by
  rw [BitVec.toNat_ofNat]; omega

/-- The operands of a register read are admitted (43_transaction_engine.md R234, R235). -/
theorem argsOk_rhr (h1 : 1 ≤ sl.toNat) (h247 : sl.toNat ≤ 247) (hk1 : 1 ≤ k) (hk : k ≤ 125) :
    argsOk .rhr { ch with slave := lo8 sl, addr := ad, qty := BitVec.ofNat 16 k } = true := by
  have hsl : (lo8 sl).toNat = sl.toNat := by
    rw [lo8_eq_setWidth, BitVec.toNat_setWidth]; omega
  simp only [argsOk, slaveOk, qtyIn, hsl, ofNat_qty_toNat hk, Bool.and_eq_true, decide_eq_true_eq]
  exact ⟨⟨h1, h247⟩, hk1, hk⟩

theorem latchRequest_rhr : latchRequest (lineChannel .rhr sl ad (BitVec.ofNat 16 k) ch) = rhrRequest sl ad k := by
  rw [rhrRequest, ← lo8_eq_setWidth]; rfl

theorem readByteCount_rhr (hk : k ≤ 125) : readByteCount (rhrRequest sl ad k) = 2 * k :=
  congrArg (2 * ·) (ofNat_qty_toNat hk)

/-- The request that is sent (41_adu_codec.md R161). -/
theorem build_rhr (d : DataBuffer) : build (rhrRequest sl ad k) d =
    appendCrc ([sl.setWidth 8, 0x03] ++ be16 ad ++ be16 (BitVec.ofNat 16 k)) := by
  rw [build, requestBody_read d rfl, ← List.append_assoc]; rfl

/-- The response that carries the register values `vs` (41_adu_codec.md R167). -/
theorem readResponse_rhr (hvs : vs.length ≤ 125) : readResponse (rhrRequest sl ad vs.length) (vs.flatMap be16) =
    appendCrc ([sl.setWidth 8, 0x03, BitVec.ofNat 8 (2 * vs.length)] ++ vs.flatMap be16) := by
  rw [readResponse, readByteCount_rhr hvs]; rfl

/-- DATA takes the register values the response carries (44_function_commands.md R283, R284). -/
theorem copyPayload_rhr (hvs : vs.length ≤ 125) (d : DataBuffer) (j : Fin 125) :
    (copyPayload (rhrRequest sl ad vs.length) (readResponse (rhrRequest sl ad vs.length) (vs.flatMap be16)) d)[j] =
      (vs[j.val]?).getD d[j] := by
  have hn := readByteCount_rhr (sl := sl) (ad := ad) hvs
  have hpay := payload_readResponse (req := rhrRequest sl ad vs.length) (d := vs.flatMap be16) rfl
    (by rw [hn, flatMap_be16_length]) (by omega)
  have hq : (rhrRequest sl ad vs.length).qty.toNat = vs.length := ofNat_qty_toNat hvs
  rw [copyPayload, if_pos (.inl rfl), hpay, hq, storeRegisters_flatMap_be16]

end

/-- Settles O57: the run of an answered line, with the request and the response of a register read. -/
theorem answeredRegisterRead : Obligations.AnsweredRegisterRead := by
  intro s p c u ch sl a vs _ hl hu hc hfree hlock hinit hde h1 h247 hvs1 hvs hp
  have hcap := (cfgOk_of_legal hl (List.mem_of_getElem? hu)).rx
  have hn := readByteCount_rhr (sl := sl) (ad := a) hvs
  have hd : (vs.flatMap be16).length = readByteCount (rhrRequest sl a vs.length) := by
    rw [hn, flatMap_be16_length]
  obtain ⟨v, hrun, hchan, hlog, hown, hseq, hline⟩ := portRun_answeredLine (prm := s.params) (p := p) (i := .rhr)
    (rx := readResponse (rhrRequest sl a vs.length) (vs.flatMap be16)) rfl hc hfree hlock hinit hde
    (argsOk_rhr h1 h247 hvs1 hvs) (List.cons_ne_nil _ _)
    (by rw [latchRequest_rhr]; exact fun k => frameComplete_readResponse_iff rfl hd (by omega) hcap)
    (by rw [latchRequest_rhr]; exact parse_readResponse rfl hd (by omega))
  rw [latchRequest_rhr, build_rhr] at hrun hlog
  rw [readResponse_rhr hvs] at hrun
  obtain ⟨t, ht, hpend, hport⟩ := hrun.runsTo_of_pending hl rfl hu (rest := []) (hp.trans (List.append_nil _).symm)
  rw [hp]
  refine ⟨t, v, _, ht, hpend, hport, hchan, csr_completed_ok _, rfl, rfl, fun j => ?_, hlog, hown, hseq, hline⟩
  rw [answeredChannel, completeChannel_data, latchRequest_rhr]
  exact copyPayload_rhr hvs ch.data j

end Sys2Proof.Machine
end

section
/-! Proofs of the family 40_crc16: the CRC16 engine. Each bit step loses nothing: the bit shifted out stands in bit 15 of
the result. So the register determines the byte, and the byte the register; a sequence passes the check exactly when
its CRC is 0, and that CRC tells one byte at one place from every other. -/

namespace Sys2Proof.Machine

/-! ### The bit step (40_crc16.md R140) -/

/-- Each bit moves down one place, and the bit shifted out goes to the places of 0xA001. -/
theorem crcBit_getLsbD (r : Word) (i : Nat) :
    (crcBit r).getLsbD i = (r.getLsbD (i + 1) ^^ (r.getLsbD 0 && (0xA001 : Word).getLsbD i)) := by
  cases h : r.getLsbD 0 with
  | false => rw [crcBit, h, if_neg Bool.false_ne_true, BitVec.getLsbD_ushiftRight, Nat.add_comm]; simp
  | true => rw [crcBit, h, if_pos rfl, BitVec.getLsbD_xor, BitVec.getLsbD_ushiftRight, Nat.add_comm, Bool.true_and]

theorem crcBit_injective : Function.Injective crcBit := by
  intro r r' h
  have hbit : ∀ i, (r.getLsbD (i + 1) ^^ (r.getLsbD 0 && (0xA001 : Word).getLsbD i)) =
      (r'.getLsbD (i + 1) ^^ (r'.getLsbD 0 && (0xA001 : Word).getLsbD i)) := fun i => by
    rw [← crcBit_getLsbD, ← crcBit_getLsbD, h]
  have hout : r.getLsbD 0 = r'.getLsbD 0 := by simpa using hbit 15
  apply BitVec.eq_of_getLsbD_eq
  rintro (_ | i) -
  · exact hout
  · simpa only [hout, Bool.xor_left_inj] using hbit i

/-! ### The byte step (R140) -/

theorem crcByte_eq (r : Word) (b : Byte) : crcByte r b = crcBit^[8] (r ^^^ b.setWidth 16) := rfl

/-- The byte step loses nothing of the register. -/
theorem crcByte_left_injective (b : Byte) : Function.Injective (crcByte · b) := fun _ _ h =>
  (BitVec.xor_left_inj (b.setWidth 16)).1 (crcBit_injective.iterate 8 h)

/-- The byte step loses nothing of the byte. -/
theorem crcByte_right_injective (r : Word) : Function.Injective (crcByte r) := fun a b h => by
  have hw : a.setWidth 16 = b.setWidth 16 := (BitVec.xor_right_inj r).1 (crcBit_injective.iterate 8 h)
  simpa [lo8_eq_setWidth] using congrArg lo8 hw

/-- Bits that stand above those shifted out come down unchanged: no bit step XORs. -/
theorem crcBit_iterate_shiftLeft (h : Byte) {n : Nat} (hn : n ≤ 8) :
    crcBit^[n] (h.setWidth 16 <<< n) = h.setWidth 16 := by
  induction n with
  | zero => simp
  | succ n ih =>
    have hstep : crcBit (h.setWidth 16 <<< (n + 1)) = h.setWidth 16 <<< n := by
      apply BitVec.eq_of_getLsbD_eq
      intro i hi
      rw [crcBit_getLsbD]
      by_cases h15 : i + 1 < 16
      · simp [hi, h15]
      · have htop : h.getLsbD (i - n) = false := BitVec.getLsbD_of_ge h _ (by omega)
        simp [BitVec.getLsbD_shiftLeft, htop]
    rw [Function.iterate_succ_apply, hstep, ih (by omega)]

/-- A byte equal to the register's low half cancels it: the high half comes down. -/
theorem crcByte_join16_low (h l : Byte) : crcByte (join16 h l) l = h.setWidth 16 := by
  have hxor : join16 h l ^^^ l.setWidth 16 = h.setWidth 16 <<< 8 := by
    ext i hi
    by_cases hlow : i < 8
    · simp [join16, hlow]
    · simp [join16, hlow, BitVec.getLsbD_of_ge l i (by omega)]
  rw [crcByte_eq, hxor, crcBit_iterate_shiftLeft h (Nat.le_refl 8)]

theorem crcByte_setWidth_self (h : Byte) : crcByte (h.setWidth 16) h = 0 := by
  rw [crcByte_eq, BitVec.xor_self]; rfl

/-- Two byte steps clear the register exactly when the bytes are its halves, low half first. -/
theorem crcByte_crcByte_eq_zero_iff (r : Word) (l h : Byte) : crcByte (crcByte r l) h = 0 ↔ r = join16 h l := by
  have hzero : crcByte (crcByte (join16 h l) l) h = 0 := by rw [crcByte_join16_low, crcByte_setWidth_self]
  constructor
  · intro hr
    exact crcByte_left_injective l (crcByte_left_injective h (hr.trans hzero.symm))
  · rintro rfl
    exact hzero

/-! ### The CRC of a sequence (R140, R143 to R145) -/

/-- The bytes after a place keep two registers apart. -/
theorem foldl_crcByte_injective (s : List Byte) : Function.Injective (s.foldl crcByte ·) := by
  induction s with
  | nil => exact Function.injective_id
  | cons b s ih => exact ih.comp (crcByte_left_injective b)

/-- With the other bytes as they are, the CRC determines byte `k` (R145). -/
theorem crc16_set_injective {t : List Byte} {k : Nat} (hk : k < t.length) :
    Function.Injective fun b => crc16 (t.set k b) := by
  intro a b h
  simp only [crc16, List.set_eq_take_append_cons_drop, if_pos hk, List.foldl_append, List.foldl_cons] at h
  exact crcByte_right_injective _ (foldl_crcByte_injective _ h)

theorem set_byteAt_self {t : List Byte} {k : Nat} (hk : k < t.length) : t.set k (byteAt t k) = t := by
  simp [byteAt, hk]

/-- A sequence of two bytes or more is its last two bytes after the others. -/
theorem eq_take_append_last_two {t : List Byte} (h : 2 ≤ t.length) :
    t = t.take (t.length - 2) ++ [byteAt t (t.length - 2), byteAt t (t.length - 1)] := by
  have hdrop : t.drop (t.length - 2) = [byteAt t (t.length - 2), byteAt t (t.length - 1)] := by
    have hnext : t.length - 2 + 1 = t.length - 1 := by omega
    have h2 : t.length - 2 < t.length := by omega
    have h1 : t.length - 1 < t.length := by omega
    rw [List.drop_eq_getElem_cons h2, hnext, List.drop_eq_getElem_cons h1, List.drop_of_length_le (by omega)]
    simp [byteAt, h1, h2]
  rw [← hdrop, List.take_append_drop]

theorem crcOk_iff (t : List Byte) : crcOk t = true ↔ 2 ≤ t.length ∧
    crc16 (t.take (t.length - 2)) = join16 (byteAt t (t.length - 1)) (byteAt t (t.length - 2)) := by
  simp [crcOk]

/-- The check passes exactly when the CRC of the whole sequence is 0 (R144). -/
theorem crcOk_iff_crc16_eq_zero (t : List Byte) : crcOk t = true ↔ 2 ≤ t.length ∧ crc16 t = 0 := by
  rw [crcOk_iff]
  refine and_congr_right fun hlen => ?_
  have hcrc : crc16 t = crcByte (crcByte (crc16 (t.take (t.length - 2))) (byteAt t (t.length - 2)))
      (byteAt t (t.length - 1)) := by
    conv_lhs => rw [eq_take_append_last_two hlen]
    simp [crc16]
  rw [hcrc, crcByte_crcByte_eq_zero_iff]

/-- A change of one byte of a sequence that passes the check is detected (R145). -/
theorem crcOk_set_of_ne {t : List Byte} {k : Nat} {b : Byte} (ht : crcOk t = true) (hk : k < t.length)
    (hb : b ≠ byteAt t k) : crcOk (t.set k b) = false := by
  rw [Bool.eq_false_iff]
  intro hset
  obtain ⟨-, hchanged⟩ := (crcOk_iff_crc16_eq_zero _).1 hset
  obtain ⟨-, hzero⟩ := (crcOk_iff_crc16_eq_zero t).1 ht
  rw [← set_byteAt_self hk] at hzero
  exact hb (crc16_set_injective hk (hchanged.trans hzero.symm))

/-- Settles O29: the check is that the CRC is 0, and one byte changed changes the CRC. -/
theorem crcDetectsAnyByteChange : Obligations.CrcDetectsAnyByteChange :=
  ⟨crcOk_appendCrc, fun s _ _ => crcOk_set_of_ne (crcOk_appendCrc s),
    fun s => ((crcOk_iff_crc16_eq_zero _).1 (crcOk_appendCrc s)).2⟩

/-- The CRC decides before any field is looked at (41_adu_codec.md R173, R174). -/
theorem parse_of_crcOk_false {rx : List Byte} (hlen : 5 ≤ rx.length) (hcrc : crcOk rx = false) (req : Request) :
    parse rx req = .crcError := by
  simp [parse, hcrc, Nat.not_lt.2 hlen]

/-- Settles O30: the changed sequence fails the check, which decides before any other. -/
theorem corruptedByteIsNeverAccepted : Obligations.CorruptedByteIsNeverAccepted :=
  fun _ req _ _ hlen hcrc hk hb => parse_of_crcOk_false (by simpa using hlen) (crcOk_set_of_ne hcrc hk hb) req

end Sys2Proof.Machine
end

section
/-! Proofs of the family 40_crc16: the commands CRC and CRCCHK, which run whole in the issue step. -/

namespace Sys2Proof.Machine

section
variable {s : State} {u : Port} {c : Nat} {ch : Channel}

/-! ### The issue step of a command (43_transaction_engine.md R231) -/

theorem exec_of_free (i : Instr) (h : InHand s u ch) (hf : ch.phase = .free) :
    exec i s = .next (s.putPort (issueEffect i u s.sel.chan ch)) := by
  rw [exec_inHand i h, portEffect, hf]

/-- A free channel that accepts a command word and completes at once. -/
theorem completeChannel_acceptCommand (hf : ch.phase = .free) (w : Word) (st : Status) :
    completeChannel st (acceptCommand w ch) =
      { ch with cmd := w, done := true, status := st, exc := 0, attempts := 0, wait := 0 } := by
  cases ch; cases hf; rfl

theorem issueRejected_of_free (hc : u.chans[c]? = some ch) (hf : ch.phase = .free) (hno : u.ps.owner ≠ some c)
    (w : Word) (st : Status) : issueRejected w u c st = u.putChan c
      { ch with cmd := w, done := true, status := st, exc := 0, attempts := 0, wait := 0 } := by
  rw [issueRejected_eq hc hno, completeChannel_acceptCommand hf]

theorem issueComputed_of_free (hc : u.chans[c]? = some ch) (hf : ch.phase = .free) (hno : u.ps.owner ≠ some c)
    (i : Instr) (r : Word) (st : Status) : issueComputed i r st u c = u.putChan c
      { ch with cmd := encode i, done := true, status := st, exc := 0, attempts := 0, wait := 0, crcr := r } := by
  rw [issueComputed_eq hc hno]
  exact congrArg _ (completeChannel_acceptCommand (ch := { ch with crcr := r }) hf (encode i) st)

end

/-- Settles O15, on both sides of the bound on QTY. -/
theorem crcComputesBuffer : Obligations.CrcComputesBuffer := by
  intro s u ch h hf hno
  rw [exec_of_free .crc h hf, issueEffect, issueCrc]
  constructor
  · intro hq
    rw [if_neg (by omega), issueComputed_of_free h.2 hf hno]; rfl
  · intro hq
    rw [if_pos hq, issueRejected_of_free h.2 hf hno]; rfl

/-! ### The check of a frame in the buffer (40_crc16.md R149) -/

theorem take_dataBytes (d : DataBuffer) {m n : Nat} (h : m ≤ n) : (dataBytes d n).take m = dataBytes d m := by
  simp [dataBytes, ← List.map_take, List.take_range, h]

theorem eq_join16_iff {v : Word} {h l : Byte} : v = join16 h l ↔ l = lo8 v ∧ h = hi8 v := by
  constructor
  · rintro rfl
    simp
  · rintro ⟨rfl, rfl⟩
    simp

/-- The check of the first `n` bytes of the buffer, byte by byte (R143). -/
theorem crcOk_dataBytes_iff (d : DataBuffer) {n : Nat} (hn : 2 ≤ n) : crcOk (dataBytes d n) = true ↔
    dataByte d (n - 2) = lo8 (crc16 (dataBytes d (n - 2))) ∧
      dataByte d (n - 1) = hi8 (crc16 (dataBytes d (n - 2))) := by
  rw [crcOk_iff, dataBytes_length, take_dataBytes d (Nat.sub_le n 2), byteAt_dataBytes d (by omega),
    byteAt_dataBytes d (by omega), eq_join16_iff, and_iff_right hn]

/-- Settles O16, on both sides of the bounds on QTY. -/
theorem crcchkChecksBuffer : Obligations.CrcchkChecksBuffer := by
  intro s u ch h hf hno
  rw [exec_of_free .crcchk h hf, issueEffect, issueCrcchk]
  constructor
  · intro h2 h250
    rw [if_neg (by omega), issueComputed_of_free h.2 hf hno, take_dataBytes ch.data (Nat.sub_le _ 2)]
    simp only [crcOk_dataBytes_iff ch.data h2]
    rfl
  · intro hq
    rw [if_pos hq, issueRejected_of_free h.2 hf hno]; rfl

end Sys2Proof.Machine
end

section
/-! Proofs of the family 41_adu_codec: the request ADU, byte by byte, and its length. -/

namespace Sys2Proof.Machine

/-! ### The data bytes of a request (41_adu_codec.md R162 to R165) -/

/-- ON is `FF 00`, OFF is `00 00` (R162). -/
theorem be16_coilValue (q : Word) : be16 (coilValue q) = [if q = 0 then 0x00 else 0xFF, 0x00] := by
  by_cases h : q = 0
  · rw [coilValue, if_neg (not_not.2 h), if_pos h]; rfl
  · rw [coilValue, if_pos h, if_neg h]; rfl

theorem ceilDiv_eight (n : Nat) : ceilDiv n 8 = (n + 7) / 8 := rfl

/-- The first `q` words of the buffer, read one by one. -/
theorem map_getD_range (d : DataBuffer) {q : Nat} (hq : q ≤ 125) :
    (List.range q).map (fun i => (d[i]?).getD 0) = d.toList.take q := by
  refine List.ext_getElem (by simpa using hq) fun i h _ => ?_
  have hi : i < 125 := by simp at h; omega
  simp [hi]

theorem dataWordsBe_eq_flatMap (d : DataBuffer) {q : Nat} (hq : q ≤ 125) :
    dataWordsBe d q = (d.toList.take q).flatMap be16 := by
  rw [← map_getD_range d hq, List.flatMap_map, dataWordsBe]

/-- Settles O21: the bytes before the CRC are slave, function code and `requestBody`. -/
theorem buildFrames : Obligations.BuildFrames := by
  intro req d
  refine ⟨[req.slave, req.op] ++ requestBody req d, rfl, fun hop => ?_, fun hop => ?_, fun hop => ?_,
    fun hop hq => ?_⟩
  · have hbody : requestBody req d = be16 req.addr ++ be16 req.qty := by
      rcases hop with h | h | h | h
      · exact requestBody_read d (isRead_iff.2 (.inl h))
      · exact requestBody_read d (isRead_iff.2 (.inr (.inl h)))
      · exact requestBody_read d (isRead_iff.2 (.inr (.inr h)))
      · exact requestBody_wsr d h
    rw [hbody]; rfl
  · rw [requestBody_wsc d hop, be16_coilValue]; rfl
  · rw [requestBody_wmc d hop]; rfl
  · rw [requestBody_wmr d hop, dataWordsBe_eq_flatMap d hq]; rfl

/-! ### The length of a request (R166) -/

/-- Admitted operands pass the argument checks (43_transaction_engine.md R234, R235). -/
theorem argsOk_of_admitted {i : Instr} {ch : Channel} (h : Admitted i ch) : argsOk i ch = true := by
  obtain ⟨hlo, hhi, hrhr, hrir, hwmr, hrc, hwmc⟩ := h
  have hslave : slaveOk ch = true := by simp [slaveOk, hlo, hhi]
  cases i with
  | rc => simpa [argsOk, hslave, qtyIn] using hrc
  | rhr => simpa [argsOk, hslave, qtyIn] using hrhr
  | rir => simpa [argsOk, hslave, qtyIn] using hrir
  | wmc => simpa [argsOk, hslave, qtyIn] using hwmc
  | wmr => simpa [argsOk, hslave, qtyIn] using hwmr
  | wsc | wsr => exact hslave
  | init | deinit | crc | crcchk => rfl

theorem latchRequest_op {i : Instr} {ch : Channel} (h : decode ch.cmd = .command i) : (latchRequest ch).op = i.op :=
  op_of_commandOf (decode_command h).2

section
variable {req : Request} (d : DataBuffer)

theorem build_length_read (h : isRead req.op = true) : (build req d).length = 8 := by
  rw [build_length, requestBody_read d h]; rfl

theorem build_length_wsc (h : req.op = 0x05) : (build req d).length = 8 := by
  rw [build_length, requestBody_wsc d h]; rfl

theorem build_length_wsr (h : req.op = 0x06) : (build req d).length = 8 := by
  rw [build_length, requestBody_wsr d h]; rfl

theorem build_length_wmc (h : req.op = 0x0F) : (build req d).length = 9 + (req.qty.toNat + 7) / 8 := by
  rw [build_length, requestBody_wmc d h, ceilDiv_eight]
  simp; omega

theorem build_length_wmr (h : req.op = 0x10) : (build req d).length = 9 + 2 * req.qty.toNat := by
  rw [build_length, requestBody_wmr d h]
  simp; omega

end

/-- Settles O22: the length of the body of each function code, with the bounds on QTY. -/
theorem requestLengths : Obligations.RequestLengths := by
  intro i ch hm hadm hdec
  have hop := latchRequest_op hdec
  have hfits := build_length_le hm (argsOk_of_admitted hadm) hop ch.data
  obtain ⟨-, -, -, -, hwmr, -, hwmc⟩ := hadm
  refine ⟨?_, ?_, ?_, hfits⟩
  · rintro (rfl | rfl | rfl | rfl | rfl)
    · exact build_length_read _ (isRead_iff.2 (.inl hop))
    · exact build_length_read _ (isRead_iff.2 (.inr (.inl hop)))
    · exact build_length_read _ (isRead_iff.2 (.inr (.inr hop)))
    · exact build_length_wsc _ hop
    · exact build_length_wsr _ hop
  · rintro rfl
    have hlen : (build (latchRequest ch) ch.data).length = 9 + (ch.qty.toNat + 7) / 8 := build_length_wmc _ hop
    obtain ⟨hq, -⟩ := hwmc rfl
    exact ⟨hlen, by omega⟩
  · rintro rfl
    have hlen : (build (latchRequest ch) ch.data).length = 9 + 2 * ch.qty.toNat := build_length_wmr _ hop
    obtain ⟨hq, -⟩ := hwmr rfl
    exact ⟨hlen, by omega⟩

end Sys2Proof.Machine
end

section
/-! Proofs of the family 41_adu_codec: where the receive phase of a response ends. -/

namespace Sys2Proof.Machine

/-! ### The function code of a response -/

theorem isExceptionFc_eq_false_iff {fc : Byte} : isExceptionFc fc = false ↔ (fc &&& 0x80) = 0 := by
  simp [isExceptionFc]

theorem isExceptionFc_iff {fc : Byte} : isExceptionFc fc = true ↔ (fc &&& 0x80) ≠ 0 := by
  simp [isExceptionFc]

theorem isWrite_iff {op : Byte} : isWrite op = true ↔ op = 0x05 ∨ op = 0x06 ∨ op = 0x0F ∨ op = 0x10 := by
  simp [isWrite, or_assoc]

/-- A write's function code has bit 7 clear (30_encoding.md R114) and is no read's. -/
theorem isWrite_plain {op : Byte} (h : isWrite op = true) :
    isExceptionFc op = false ∧ op &&& 0x7F = op ∧ isRead op = false := by
  obtain rfl | rfl | rfl | rfl := isWrite_iff.1 h <;> decide

/-! ### The expected length (41_adu_codec.md R170) -/

section
variable {rx : List Byte} {op : Byte} {n : Nat}

/-- When the expected length is known, and what it is. -/
theorem expectedLen_eq_some_iff : expectedLen rx op = some n ↔ 2 ≤ rx.length ∧
    (isExceptionFc (byteAt rx 1) = true ∧ n = 5 ∨
      isExceptionFc (byteAt rx 1) = false ∧ isRead op = true ∧ 3 ≤ rx.length ∧ n = 5 + (byteAt rx 2).toNat ∨
      isExceptionFc (byteAt rx 1) = false ∧ isRead op = false ∧ n = 8) := by
  unfold expectedLen
  by_cases hlen : rx.length < 2
  · simp [hlen]
  rw [if_neg hlen, and_iff_right (by omega)]
  cases isExceptionFc (byteAt rx 1)
  · cases isRead op
    · simp [eq_comm (a := n)]
    · by_cases hcount : rx.length < 3
      · simp [hcount]
      · simp [hcount, Nat.not_lt.1 hcount, eq_comm (a := n)]
  · simp [eq_comm (a := n)]

theorem five_le_expectedLen (h : expectedLen rx op = some n) : 5 ≤ n := by
  obtain ⟨-, ⟨-, rfl⟩ | ⟨-, -, -, rfl⟩ | ⟨-, -, rfl⟩⟩ := expectedLen_eq_some_iff.1 h <;> omega

/-- Once known, the expected length stays while bytes arrive. -/
theorem expectedLen_append (h : expectedLen rx op = some n) (s : List Byte) : expectedLen (rx ++ s) op = some n := by
  obtain ⟨h2, hcases⟩ := expectedLen_eq_some_iff.1 h
  refine expectedLen_eq_some_iff.2 ⟨by rw [List.length_append]; omega, ?_⟩
  rw [byteAt_append_left _ _ _ (by omega)]
  obtain hexc | ⟨hexc, hop, h3, hn⟩ | hwrite := hcases
  · exact .inl hexc
  · exact .inr (.inl ⟨hexc, hop, by rw [List.length_append]; omega, by rwa [byteAt_append_left _ _ _ (by omega)]⟩)
  · exact .inr (.inr hwrite)

/-- It is known from the third byte on. -/
theorem exists_expectedLen (op : Byte) (h : 3 ≤ rx.length) : ∃ n, expectedLen rx op = some n := by
  have h2 : 2 ≤ rx.length := by omega
  cases hexc : isExceptionFc (byteAt rx 1)
  · cases hop : isRead op
    · exact ⟨8, expectedLen_eq_some_iff.2 ⟨h2, .inr (.inr ⟨hexc, hop, rfl⟩)⟩⟩
    · exact ⟨_, expectedLen_eq_some_iff.2 ⟨h2, .inr (.inl ⟨hexc, hop, h, rfl⟩)⟩⟩
  · exact ⟨5, expectedLen_eq_some_iff.2 ⟨h2, .inl ⟨hexc, rfl⟩⟩⟩

/-! ### The end of the receive phase (R171) -/

/-- What has arrived of a frame is complete when it fills the buffer or reaches the frame's expected length. -/
theorem frameComplete_take_iff (h : expectedLen rx op = some n) (cap : Nat) {k : Nat} (hk : k ≤ rx.length) :
    frameComplete (rx.take k) op cap = true ↔ k = cap ∨ n ≤ k := by
  have hkl : (rx.take k).length = k := List.length_take_of_le hk
  have hstays : ∀ {m}, expectedLen (rx.take k) op = some m → m = n := fun hm => by
    have hm' := expectedLen_append hm (rx.drop k)
    rw [List.take_append_drop, h] at hm'
    exact (Option.some.inj hm').symm
  rw [frameComplete_eq, hkl]
  refine or_congr_right ⟨?_, fun hn => ?_⟩
  · rintro ⟨m, hm, hmk⟩
    exact hstays hm ▸ hmk
  · have h5 := five_le_expectedLen h
    obtain ⟨m, hm⟩ := exists_expectedLen op (rx := rx.take k) (by omega)
    exact ⟨m, hm, hstays hm ▸ hn⟩

theorem expectedLen_exception (hlen : 2 ≤ rx.length) (hfc : (byteAt rx 1 &&& 0x80) ≠ 0) :
    expectedLen rx op = some 5 :=
  expectedLen_eq_some_iff.2 ⟨hlen, .inl ⟨isExceptionFc_iff.2 hfc, rfl⟩⟩

theorem expectedLen_count (hlen : 3 ≤ rx.length) (hfc : (byteAt rx 1 &&& 0x80) = 0)
    (hop : op = 0x01 ∨ op = 0x03 ∨ op = 0x04) : expectedLen rx op = some (5 + (byteAt rx 2).toNat) :=
  expectedLen_eq_some_iff.2
    ⟨by omega, .inr (.inl ⟨isExceptionFc_eq_false_iff.2 hfc, isRead_iff.2 hop, hlen, rfl⟩)⟩

theorem expectedLen_write (hlen : 2 ≤ rx.length) (hfc : (byteAt rx 1 &&& 0x80) = 0)
    (hop : op = 0x05 ∨ op = 0x06 ∨ op = 0x0F ∨ op = 0x10) : expectedLen rx op = some 8 :=
  expectedLen_eq_some_iff.2
    ⟨hlen, .inr (.inr ⟨isExceptionFc_eq_false_iff.2 hfc, (isWrite_plain (isWrite_iff.2 hop)).2.2, rfl⟩)⟩

end

/-- Settles O23: the expected length of each form of response, and how it compares with the capacity. -/
theorem frameEndsAtExpectedLength : Obligations.FrameEndsAtExpectedLength := by
  refine ⟨fun rx op cap k hcap hk => ⟨fun hfc hop h3 hlen => ?_, fun hfc hop hlen => ?_, fun hfc hlen => ?_⟩,
    fun rx op => ?_, fun rx op cap k hcap hk hfc hop h3 hcut => ?_⟩
  · rw [frameComplete_take_iff (expectedLen_count h3 hfc hop) cap hk]; omega
  · rw [frameComplete_take_iff (expectedLen_write (by omega) hfc hop) cap hk]; omega
  · rw [frameComplete_take_iff (expectedLen_exception (by omega) hfc) cap hk]; omega
  · exact (frameComplete_eq rx op rx.length).2 (.inl rfl)
  · rw [frameComplete_take_iff (expectedLen_count (by omega) hfc hop) cap (by omega)]; omega

end Sys2Proof.Machine
end

section
/-! Proofs of the family 41_adu_codec: what Parse answers, check by check. -/

namespace Sys2Proof.Machine

section
variable {rx : List Byte} {req : Request}

/-! ### The byte count of a read (41_adu_codec.md R179) -/

theorem readByteCount_coils (h : req.op = 0x01) : readByteCount req = (req.qty.toNat + 7) / 8 := by
  rw [readByteCount, if_pos h, ceilDiv_eight]

theorem readByteCount_registers (h : req.op = 0x03 ∨ req.op = 0x04) : readByteCount req = 2 * req.qty.toNat :=
  if_neg (by rcases h with h | h <;> rw [h] <;> decide)

/-! ### The checks before the function code (R173 to R176) -/

theorem parse_of_length_lt (h : rx.length < 5) : parse rx req = .unexpectedResponse :=
  if_pos h

theorem parse_of_slave_ne (hlen : 5 ≤ rx.length) (hcrc : crcOk rx = true) (hslave : byteAt rx 0 ≠ req.slave) :
    parse rx req = .unexpectedResponse := by
  simp [parse, Nat.not_lt.2 hlen, hcrc, hslave]

/-- A frame that passes the first three checks: its length, its CRC and its slave address (R173 to R175). -/
structure Addressed (rx : List Byte) (req : Request) : Prop where
  length : 5 ≤ rx.length
  crc    : crcOk rx = true
  slave  : byteAt rx 0 = req.slave

theorem parse_of_exception (h : Addressed rx req) (hexc : isExceptionFc (byteAt rx 1) = true) :
    parse rx req = .exception (byteAt rx 2) := by
  simp [parse, Nat.not_lt.2 h.length, h.crc, h.slave, hexc]

/-! ### The checks from the function code on (R177 to R180) -/

/-- What these checks ask of a frame: the request's function code, of a read the declared length and the request's byte
count, of a write 8 bytes. -/
structure FieldsOk (rx : List Byte) (req : Request) : Prop where
  op    : (byteAt rx 1 &&& 0x7F) = req.op
  read  : isRead req.op = true → 5 + (byteAt rx 2).toNat = rx.length ∧ (byteAt rx 2).toNat = readByteCount req
  write : isWrite req.op = true → rx.length = 8

/-- Past the exception bit Parse answers OK, or UNEXPECTED_RESPONSE whichever check fails. -/
theorem parse_plain_cases (h : Addressed rx req) (hexc : isExceptionFc (byteAt rx 1) = false) :
    FieldsOk rx req ∧ parse rx req = .ok ∨ ¬ FieldsOk rx req ∧ parse rx req = .unexpectedResponse := by
  rw [parse, if_neg (Nat.not_lt.2 h.length), h.crc, Bool.not_true, if_neg Bool.false_ne_true,
    if_neg (not_not.2 h.slave), hexc, if_neg Bool.false_ne_true]
  split
  next hop => exact .inr ⟨fun hf => hop hf.op, rfl⟩
  next hop =>
  simp only [Bool.and_eq_true, decide_eq_true_eq]
  split
  next hlen => exact .inr ⟨fun hf => hlen.2 (hf.read hlen.1).1, rfl⟩
  next hlen =>
  split
  next hcount => exact .inr ⟨fun hf => hcount.2 (hf.read hcount.1).2, rfl⟩
  next hcount =>
  split
  next hwrite => exact .inr ⟨fun hf => hwrite.2 (hf.write hwrite.1), rfl⟩
  next hwrite =>
  simp only [not_and, not_not] at hlen hcount hwrite
  exact .inl ⟨⟨not_not.1 hop, fun h => ⟨hlen h, hcount h⟩, hwrite⟩, rfl⟩

theorem parse_of_fieldsOk (h : Addressed rx req) (hexc : isExceptionFc (byteAt rx 1) = false)
    (hf : FieldsOk rx req) : parse rx req = .ok := by
  obtain ⟨-, hparse⟩ | ⟨hnot, -⟩ := parse_plain_cases h hexc
  · exact hparse
  · exact absurd hf hnot

theorem parse_of_not_fieldsOk (h : Addressed rx req) (hexc : isExceptionFc (byteAt rx 1) = false)
    (hf : ¬ FieldsOk rx req) : parse rx req = .unexpectedResponse := by
  obtain ⟨hok, -⟩ | ⟨-, hparse⟩ := parse_plain_cases h hexc
  · exact absurd hok hf
  · exact hparse

/-! ### All checks together (R172 to R181) -/

/-- The six things that can become of a frame, in the order of the checks. -/
theorem parse_cases (rx : List Byte) (req : Request) :
    (rx.length < 5 ∧ parse rx req = .unexpectedResponse) ∨
    (crcOk rx = false ∧ parse rx req = .crcError) ∨
    (byteAt rx 0 ≠ req.slave ∧ parse rx req = .unexpectedResponse) ∨
    (isExceptionFc (byteAt rx 1) = true ∧ parse rx req = .exception (byteAt rx 2)) ∨
    (¬ FieldsOk rx req ∧ parse rx req = .unexpectedResponse) ∨
    (Addressed rx req ∧ isExceptionFc (byteAt rx 1) = false ∧ FieldsOk rx req ∧ parse rx req = .ok) := by
  by_cases hlen : rx.length < 5
  · exact .inl ⟨hlen, parse_of_length_lt hlen⟩
  have hlen5 := Nat.not_lt.1 hlen
  cases hcrc : crcOk rx
  · exact .inr (.inl ⟨rfl, parse_of_crcOk_false hlen5 hcrc req⟩)
  by_cases hslave : byteAt rx 0 = req.slave
  case neg => exact .inr (.inr (.inl ⟨hslave, parse_of_slave_ne hlen5 hcrc hslave⟩))
  have h : Addressed rx req := ⟨hlen5, hcrc, hslave⟩
  cases hexc : isExceptionFc (byteAt rx 1)
  case true => exact .inr (.inr (.inr (.inl ⟨rfl, parse_of_exception h hexc⟩)))
  obtain ⟨hf, hparse⟩ | hnot := parse_plain_cases h hexc
  · exact .inr (.inr (.inr (.inr (.inr ⟨h, rfl, hf, hparse⟩))))
  · exact .inr (.inr (.inr (.inr (.inl hnot))))

theorem parse_eq_ok_iff :
    parse rx req = .ok ↔ Addressed rx req ∧ isExceptionFc (byteAt rx 1) = false ∧ FieldsOk rx req := by
  refine ⟨fun hparse => ?_, fun ⟨h, hexc, hf⟩ => parse_of_fieldsOk h hexc hf⟩
  obtain ⟨-, h⟩ | ⟨-, h⟩ | ⟨-, h⟩ | ⟨-, h⟩ | ⟨-, h⟩ | ⟨haddr, hexc, hf, -⟩ := parse_cases rx req
  case inr.inr.inr.inr.inr => exact ⟨haddr, hexc, hf⟩
  all_goals cases h.symm.trans hparse

theorem crcOk_eq_false_of_parse (hparse : parse rx req = .crcError) : crcOk rx = false := by
  obtain ⟨-, h⟩ | ⟨hcrc, -⟩ | ⟨-, h⟩ | ⟨-, h⟩ | ⟨-, h⟩ | ⟨-, -, -, h⟩ := parse_cases rx req
  case inr.inl => exact hcrc
  all_goals cases h.symm.trans hparse

/-- The checks of the fields, one function code after another. -/
theorem fieldsOk_iff : FieldsOk rx req ↔ (byteAt rx 1 &&& 0x7F) = req.op ∧
    (req.op = 0x01 → rx.length = 5 + (byteAt rx 2).toNat ∧ (byteAt rx 2).toNat = (req.qty.toNat + 7) / 8) ∧
    (req.op = 0x03 ∨ req.op = 0x04 →
      rx.length = 5 + (byteAt rx 2).toNat ∧ (byteAt rx 2).toNat = 2 * req.qty.toNat) ∧
    (req.op = 0x05 ∨ req.op = 0x06 ∨ req.op = 0x0F ∨ req.op = 0x10 → rx.length = 8) := by
  rw [eq_comm (a := rx.length)]
  constructor
  · rintro ⟨hop, hread, hwrite⟩
    exact ⟨hop, fun h => readByteCount_coils h ▸ hread (isRead_iff.2 (.inl h)),
      fun h => readByteCount_registers h ▸ hread (isRead_iff.2 (.inr h)), fun h => hwrite (isWrite_iff.2 h)⟩
  · rintro ⟨hop, hcoils, hregs, hwrite⟩
    refine ⟨hop, fun h => ?_, fun h => hwrite (isWrite_iff.1 h)⟩
    obtain h | h := isRead_iff.1 h
    · exact (readByteCount_coils h).symm ▸ hcoils h
    · exact (readByteCount_registers h).symm ▸ hregs h

theorem fieldsOk_write (hop : (byteAt rx 1 &&& 0x7F) = req.op) (hwrite : isWrite req.op = true)
    (hlen : rx.length = 8) : FieldsOk rx req := by
  have hread : isRead req.op ≠ true := Bool.eq_false_iff.1 (isWrite_plain hwrite).2.2
  exact ⟨hop, fun h => absurd h hread, fun _ => hlen⟩

end

/-- Settles O24: the checks of the frame, the exception bit, and the checks of the fields. -/
theorem parseAcceptsExactly : Obligations.ParseAcceptsExactly := by
  intro rx req
  rw [parse_eq_ok_iff, isExceptionFc_eq_false_iff, fieldsOk_iff]
  exact ⟨fun ⟨⟨hlen, hcrc, hslave⟩, hfields⟩ => ⟨hlen, hcrc, hslave, hfields⟩,
    fun ⟨hlen, hcrc, hslave, hfields⟩ => ⟨⟨hlen, hcrc, hslave⟩, hfields⟩⟩

/-- Settles O25: each clause is the check that fails first; the field checks share their answer. -/
theorem parseFirstFailureDecides : Obligations.ParseFirstFailureDecides := by
  intro rx req
  refine ⟨parse_of_length_lt, fun hlen hcrc => parse_of_crcOk_false hlen hcrc req, parse_of_slave_ne,
    fun hlen hcrc hslave hexc => parse_of_exception ⟨hlen, hcrc, hslave⟩ (isExceptionFc_iff.2 hexc),
    fun hlen hcrc hslave hplain => ?_, crcOk_eq_false_of_parse⟩
  have h : Addressed rx req := ⟨hlen, hcrc, hslave⟩
  have hexc := isExceptionFc_eq_false_iff.2 hplain
  refine ⟨fun hop => parse_of_not_fieldsOk h hexc fun hf => hop hf.op, fun hop => ⟨fun hread hn => ?_,
    fun hregs _ hn => ?_, fun hcoils _ hn => ?_, fun hwrite => ⟨fun hn => ?_, fun hlen8 => ?_⟩⟩⟩
  · exact parse_of_not_fieldsOk h hexc fun hf => hn (hf.read (isRead_iff.2 hread)).1
  · refine parse_of_not_fieldsOk h hexc fun hf => hn ?_
    rw [(hf.read (isRead_iff.2 (.inr hregs))).2, readByteCount_registers hregs]
  · refine parse_of_not_fieldsOk h hexc fun hf => hn ?_
    rw [(hf.read (isRead_iff.2 (.inl hcoils))).2, readByteCount_coils hcoils]
  · exact parse_of_not_fieldsOk h hexc fun hf => hn (hf.write (isWrite_iff.2 hwrite))
  · exact parse_of_fieldsOk h hexc (fieldsOk_write hop (isWrite_iff.2 hwrite) hlen8)

/-! ### Responses that are built (R167 to R169) -/

/-- Settles O26: the response is `readResponse`. -/
theorem readResponseRoundTrip : Obligations.ReadResponseRoundTrip :=
  fun _ _ hop hd hn => ⟨parse_readResponse (isRead_iff.2 hop) hd hn, payload_readResponse (isRead_iff.2 hop) hd hn⟩

/-- A write response of the request's slave and function code, whatever two fields it echoes (R168, R180). -/
theorem parse_writeResponse {req : Request} (hwrite : isWrite req.op = true) (a f : Word) :
    parse (appendCrc ([req.slave, req.op] ++ be16 a ++ be16 f)) req = .ok := by
  have hlen : (appendCrc ([req.slave, req.op] ++ be16 a ++ be16 f)).length = 8 := appendCrc_length _
  have h : Addressed (appendCrc ([req.slave, req.op] ++ be16 a ++ be16 f)) req :=
    ⟨by omega, crcOk_appendCrc _, rfl⟩
  obtain ⟨hexc, hop, -⟩ := isWrite_plain hwrite
  exact parse_of_fieldsOk h hexc (fieldsOk_write hop hwrite hlen)

/-- Settles O27: the request ADU of a WRITE_SINGLE command is such a response (R183). -/
theorem writeEchoAccepted : Obligations.WriteEchoAccepted := by
  refine ⟨fun req a f hop => parse_writeResponse (isWrite_iff.2 hop) a f, fun req d hop => ?_⟩
  rcases hop with hop | hop
  · rw [build, requestBody_wsc d hop]
    exact parse_writeResponse (isWrite_iff.2 (.inl hop)) _ _
  · rw [build, requestBody_wsr d hop]
    exact parse_writeResponse (isWrite_iff.2 (.inr (.inl hop))) _ _

theorem isExceptionFc_or (fc : Byte) : isExceptionFc (fc ||| 0x80) = true := by
  have habsorb : (fc ||| 0x80) &&& 0x80 = 0x80 := by
    ext i
    simpa using Or.inr
  rw [isExceptionFc, habsorb]; rfl

/-- Settles O28: Parse looks at the exception bit before the other bits of the function code and the length. -/
theorem exceptionResponseParsed : Obligations.ExceptionResponseParsed :=
  fun _ fc _ => parse_of_exception ⟨by simp, crcOk_appendCrc _, rfl⟩ (isExceptionFc_or fc)

end Sys2Proof.Machine
end

section
/-! Proofs of the family 42_transport_port: the lock-grant steps of INIT and DEINIT, and the events of the line. -/

namespace Sys2Proof.Machine

section
variable {s : State} {u : Port} {c p : Nat} {ch : Channel}

/-! ### A lock grant that completes the command (42_transport_port.md R216) -/

theorem exec_of_grantable (i : Instr) (h : Grantable s u ch) :
    exec i s = .next (s.putPort (grantEffect i s.sel.openOk u s.sel.chan ch)) := by
  obtain ⟨hin, hwait, hlock⟩ := h
  simp only [exec_inHand i hin, portEffect, hwait, hlock, if_true]

/-- A command that takes the lock and completes in the same step leaves its channel free and the lock with no one
(60_exceptions.md R330); `v` is the port in between. -/
theorem complete_acquired (hc : u.chans[c]? = some ch) (v : Port) (hchans : v.chans = (acquireLock u c).chans)
    (hown : v.ps.owner = some c) (st : Status) : complete v c st =
      { v with
        chans := u.chans.set c { ch with done := true, status := st, phase := .free, wait := 0 }
        ps := releaseLock v.ps } := by
  have hset : v.chans = u.chans.set c { ch with phase := .active } := hchans.trans (modify_eq_set hc _)
  simp only [complete, hown, if_true, hset, modify_set]
  rfl

theorem grantInit_of_open (hinit : u.ps.init = true) (o : Bool) :
    grantInit o u c = complete (acquireLock u c) c .alreadyInitialized := if_pos hinit

theorem grantInit_of_closed (hinit : u.ps.init = false) (o : Bool) : grantInit o u c =
    if o then complete (setInit true (callConfigure (acquireLock u c))) c .ok
    else complete (callConfigure (acquireLock u c)) c .error := if_neg (by simp [hinit])

theorem grantDeinit_of_open (hinit : u.ps.init = true) :
    grantDeinit u c = complete (setInit false (acquireLock u c)) c .ok := if_pos hinit

theorem grantDeinit_of_closed (hinit : u.ps.init = false) :
    grantDeinit u c = complete (acquireLock u c) c .notInitialized := if_neg (by simp [hinit])

/-! ### Transmit-complete and an arriving byte (R208, R209) -/

theorem withPort_eq (hu : s.ports[p]? = some u) (k : Port → Host.Outcome State Fault Refusal) :
    s.withPort p k = k u := by
  simp only [State.withPort, hu]

theorem step_txc {rest : List Action} (hn : NextIs s (.txc p) rest) (hu : s.ports[p]? = some u) :
    step s = .next (State.setPort { s with pending := rest } p (txcPort u)) := by
  rw [step_pending hn.1 hn.2]
  exact withPort_eq hu _

theorem step_rx {rest : List Action} {b : Byte} (hn : NextIs s (.rx p b) rest) (hu : s.ports[p]? = some u) :
    step s = .next (State.setPort { s with pending := rest } p (rxPort b u)) := by
  rw [step_pending hn.1 hn.2]
  exact withPort_eq hu _

end

/-- Settles O17, by the three branches of INIT's grant step. -/
theorem initGrantOpensPort : Obligations.InitGrantOpensPort := by
  intro s u ch h
  rw [exec_of_grantable .init h, grantEffect]
  obtain ⟨⟨-, hc⟩, -, -⟩ := h
  refine ⟨fun hinit => ?_, fun hinit hopen => ?_, fun hinit hopen => ?_⟩
  · rw [grantInit_of_open hinit, complete_acquired hc (acquireLock u _) rfl rfl]; rfl
  · rw [grantInit_of_closed hinit, if_pos hopen,
      complete_acquired hc (setInit true (callConfigure (acquireLock u _))) rfl rfl]; rfl
  · rw [grantInit_of_closed hinit, if_neg (by simp [hopen]),
      complete_acquired hc (callConfigure (acquireLock u _)) rfl rfl]; rfl

/-- Settles O18, by the two branches of DEINIT's grant step. -/
theorem deinitGrantClosesPort : Obligations.DeinitGrantClosesPort := by
  intro s u ch h
  rw [exec_of_grantable .deinit h, grantEffect]
  obtain ⟨⟨-, hc⟩, -, -⟩ := h
  refine ⟨fun hinit => ?_, fun hinit => ?_⟩
  · rw [grantDeinit_of_open hinit, complete_acquired hc (setInit false (acquireLock u _)) rfl rfl]; rfl
  · rw [grantDeinit_of_closed hinit, complete_acquired hc (acquireLock u _) rfl rfl]; rfl

/-- Settles O42, on both sides of what enables each event. -/
theorem lineEvents : Obligations.LineEvents := by
  refine ⟨fun s rest p u hn hu => ?_, fun s rest p b u hn hu => ?_⟩
  · rw [step_txc hn hu]
    refine ⟨fun hseq htx hde => ?_, fun hno => ?_⟩
    · rw [txcPort, if_pos ⟨hseq, htx, hde⟩]; rfl
    · rw [txcPort, if_neg hno]
  · rw [step_rx hn hu]
    refine ⟨fun hinit => ?_, fun hinit => ?_⟩
    · rw [rxPort, if_pos hinit]; rfl
    · rw [rxPort, if_neg (by simp [hinit])]

end Sys2Proof.Machine
end

section
/-! Proofs of the family 42_transport_port: what a step does to one port, with the agent whose step it is, and what it
does to INIT. -/

namespace Sys2Proof.Machine

/-! ### One port over one step, by its agent -/

/-- Step `a` writes `v` to register `r`, by its name or at its bus address (00_scope.md R16). -/
def WritesReg (prm : Params) (a : Action) (r : RegName) (v : Word) : Prop :=
  a = .hostWrite r v ∨ ∃ b, a = .busWrite b v ∧ resolve prm b = some r

/-- Everything the agent's step `a` can do to port `p`: the moves of `PortMove`, which names no agent, and the tick,
each with the step that does it. -/
inductive AgentStep (prm : Params) (p : Nat) (u : Port) : Action → Port → Prop where
  | stay (a : Action) : AgentStep prm p u a u
  | operand {a : Action} {c : Nat} {ch : Channel} {n : Byte} {v : Word} (ha : WritesReg prm a ⟨p, c, n⟩ v)
      (hc : u.chans[c]? = some ch) (hn : n ≠ 0) : AgentStep prm p u a (u.putChan c (writeReg ch n v))
  | illegal {a : Action} {c : Nat} {ch : Channel} {v : Word} {why : Illegal} (ha : WritesReg prm a ⟨p, c, 0⟩ v)
      (hc : u.chans[c]? = some ch) (hf : ch.phase = .free) (hv : decode v = .illegal why) :
      AgentStep prm p u a (issueRejected v u c .invalidParameter)
  | issue {a : Action} {c : Nat} {ch : Channel} {v : Word} {i : Instr} (ha : WritesReg prm a ⟨p, c, 0⟩ v)
      (hc : u.chans[c]? = some ch) (hf : ch.phase = .free) (hv : decode v = .command i) :
      AgentStep prm p u a (issueEffect i u c ch)
  | grant {c : Nat} {o : Bool} {ch : Channel} {i : Instr} (hc : u.chans[c]? = some ch) (hwait : ch.phase = .waitLock)
      (hlock : u.ps.owner = none) (hcmd : decode ch.cmd = .command i) :
      AgentStep prm p u (.grant p c o) (grantEffect i o u c ch)
  | sequencer {c n : Nat} {ch : Channel} (hc : u.chans[c]? = some ch) (hact : ch.phase = .active)
      (hown : u.ps.owner = some c) : AgentStep prm p u (.sequencer p n) (sequencerStep prm n u c)
  | tick : AgentStep prm p u .tick (tickPort prm u)
  | rx (b : Byte) : AgentStep prm p u (.rx p b) (rxPort b u)
  | txc : AgentStep prm p u (.txc p) (txcPort u)

/-- Step `a` takes every port of `s` to the port of `t` in its place. -/
def AgentSteps (a : Action) (s t : State) : Prop :=
  ∀ (p : Nat) (u u' : Port), s.ports[p]? = some u → t.ports[p]? = some u' → AgentStep s.params p u a u'

section
variable {s t : State} {a : Action} {p c : Nat} {u u' : Port} {ch : Channel}

theorem agentSteps_of_ports_eq (h : t.ports = s.ports) : AgentSteps a s t := by
  intro p u u' hu hu'
  rw [h, hu] at hu'
  cases hu'
  exact .stay a

/-- A step that replaces one port leaves the others as they are (43_transaction_engine.md R264). -/
theorem agentSteps_set (hu : s.ports[p]? = some u) (h : AgentStep s.params p u a u')
    (ht : t.ports = s.ports.set p u') : AgentSteps a s t := by
  intro q v v' hv hv'
  by_cases hq : p = q
  · subst hq
    obtain rfl : u = v := Option.some.inj (hu.symm.trans hv)
    obtain rfl : u' = v' := Option.some.inj ((setPort_get hu u').symm.trans (by rwa [ht] at hv'))
    exact h
  · rw [ht, List.getElem?_set_ne hq, hv] at hv'
    cases hv'
    exact .stay a

theorem agentSteps_exec {i : Instr} {o : Bool} {n : Nat} (hu : s.ports[p]? = some u) (hc : u.chans[c]? = some ch)
    (h : exec i (s.select p c o n) = .next t) (hs : AgentStep s.params p u a
      (portEffect i s.params { port := p, chan := c, openOk := o, accepted := n } u ch)) : AgentSteps a s t := by
  rw [exec_inHand i ⟨hu, hc⟩] at h
  cases h
  exact agentSteps_set hu hs rfl

theorem hostReadStep_agentSteps {r : RegName} (h : hostReadStep s r = .next t) : AgentSteps a s t := by
  obtain ⟨u, ch, -, -, hk⟩ := withChan_next h
  cases hk
  exact agentSteps_of_ports_eq rfl

theorem issueStep_agentSteps {v : Word} (ha : WritesReg s.params a ⟨p, c, 0⟩ v) (hu : s.ports[p]? = some u)
    (hc : u.chans[c]? = some ch) (h : issueStep s p c u ch v = .next t) : AgentSteps a s t := by
  unfold issueStep at h
  split at h
  · cases h; exact agentSteps_of_ports_eq rfl
  · rename_i hb
    have hf : ch.phase = .free := by simpa [Channel.busy] using hb
    split at h
    · rename_i why hv
      cases h
      exact agentSteps_set hu (.illegal ha hc hf hv) rfl
    · rename_i i hv
      refine agentSteps_exec hu hc h ?_
      rw [portEffect, hf]
      exact .issue ha hc hf hv

theorem hostWriteStep_agentSteps {r : RegName} {v : Word} (ha : WritesReg s.params a r v)
    (h : hostWriteStep s r v = .next t) : AgentSteps a s t := by
  obtain ⟨p, c, n⟩ := r
  obtain ⟨u, ch, hu, hc, hk⟩ := withChan_next h
  dsimp only at hk
  split at hk
  · rename_i hn
    subst hn
    exact issueStep_agentSteps ha hu hc hk
  · rename_i hn
    cases hk
    rw [modChan_eq_putChan hc]
    exact agentSteps_set hu (.operand ha hc hn) rfl

theorem grantStep_agentSteps {o : Bool} (h : grantStep s p c o = .next t) : AgentSteps (.grant p c o) s t := by
  obtain ⟨u, ch, hu, hc, hk⟩ := withChan_next h
  split at hk
  · rename_i hen
    obtain ⟨hwait, hlock⟩ := hen
    split at hk
    · rename_i i hcmd
      refine agentSteps_exec hu hc hk ?_
      simp only [portEffect, hwait, hlock, if_true]
      exact .grant hc hwait hlock hcmd
    · cases hk; exact agentSteps_of_ports_eq rfl
  · cases hk; exact agentSteps_of_ports_eq rfl

theorem portStep_agentSteps {n : Nat} (h : portStep s p n = .next t) : AgentSteps (.sequencer p n) s t := by
  obtain ⟨u, hu, hk⟩ := withPort_next h
  split at hk
  · cases hk; exact agentSteps_of_ports_eq rfl
  · rename_i c hown
    obtain ⟨v, ch, hv, hc, hk⟩ := withChan_next hk
    obtain rfl : u = v := Option.some.inj (hu.symm.trans hv)
    split at hk
    · rename_i hact
      split at hk
      · refine agentSteps_exec hu hc hk ?_
        simp only [portEffect, hact, hown, and_true]
        split
        · exact .sequencer hc hact hown
        · exact .stay _
      · cases hk; exact agentSteps_of_ports_eq rfl
    · cases hk; exact agentSteps_of_ports_eq rfl

theorem actionStep_agentSteps (h : actionStep a s = .next t) : AgentSteps a s t := by
  cases a with
  | hostRead r => exact hostReadStep_agentSteps h
  | hostWrite r v => exact hostWriteStep_agentSteps (.inl rfl) h
  | busRead b =>
    simp only [actionStep] at h
    split at h
    · exact hostReadStep_agentSteps h
    · cases h
  | busWrite b v =>
    simp only [actionStep] at h
    split at h
    · exact hostWriteStep_agentSteps (.inr ⟨b, rfl, ‹_›⟩) h
    · cases h
  | grant p c o => exact grantStep_agentSteps h
  | sequencer p n => exact portStep_agentSteps h
  | tick =>
    cases h
    intro p u u' hu hu'
    rw [tickStep_ports, List.getElem?_map, hu] at hu'
    cases hu'
    exact .tick
  | rx p b =>
    obtain ⟨u, hu, hk⟩ := withPort_next h
    cases hk
    exact agentSteps_set hu (.rx b) rfl
  | txc p =>
    obtain ⟨u, hu, hk⟩ := withPort_next h
    cases hk
    exact agentSteps_set hu .txc rfl

/-- Every step of the machine, seen from one port, with the agent whose step it is. -/
theorem step_agentStep (h : step s = .next t) (hu : s.ports[p]? = some u) (hu' : t.ports[p]? = some u') :
    AgentStep s.params p u s.nextAction u' := by
  have hs := actionStep_agentSteps (step_next h).2 p u u' (by rwa [afterChoice_ports]) hu'
  rwa [afterChoice_params] at hs

end

/-! ### INIT over one step (42_transport_port.md R213) -/

section
variable {prm : Params} {u : Port} {c : Nat} {ch : Channel}

@[simp] theorem complete_init (st : Status) : (complete u c st).ps.init = u.ps.init := by
  rw [complete_ps]; split <;> rfl

@[simp] theorem issueRejected_init (w : Word) (st : Status) : (issueRejected w u c st).ps.init = u.ps.init :=
  complete_init st

@[simp] theorem issueEffect_init (i : Instr) : (issueEffect i u c ch).ps.init = u.ps.init := by
  cases i with
  | rc | rhr | rir | wsc | wsr | wmc | wmr =>
    simp only [issueEffect, issueModbus]
    split
    · rfl
    · exact issueRejected_init _ _
  | init | deinit => rfl
  | crc =>
    simp only [issueEffect, issueCrc]
    split
    · exact issueRejected_init _ _
    · exact complete_init _
  | crcchk =>
    simp only [issueEffect, issueCrcchk]
    split
    · exact issueRejected_init _ _
    · exact complete_init _

/-- Of the lock-grant steps only INIT's opens a port, and only where `open` succeeds (R212). -/
theorem grantEffect_opens {i : Instr} {o : Bool} (h : u.ps.init = false)
    (h' : (grantEffect i o u c ch).ps.init = true) : i = .init ∧ o = true := by
  cases i with
  | rc | rhr | rir | wsc | wsr | wmc | wmr => simp [grantEffect, grantModbus, h] at h'
  | init =>
    cases o with
    | true => exact ⟨rfl, rfl⟩
    | false => simp [grantEffect, grantInit_of_closed h, h] at h'
  | deinit => simp [grantEffect, grantDeinit_of_closed h, h] at h'
  | crc | crcchk => simp [grantEffect, h] at h'

@[simp] theorem sequencerStep_init (n : Nat) : (sequencerStep prm n u c).ps.init = u.ps.init := by
  unfold sequencerStep
  cases u.ps.seq with
  | idle => rfl
  | sending =>
    cases u.ps.txph with
    | start => exact (writePs_sameRequest u.cfg _ u.ps).init
    | wait => rfl
  | awaiting =>
    dsimp only [byteReadStep]
    split
    · rfl
    · exact (readBytePs_sameRequest _ _ u.ps).init
  | validating =>
    dsimp only [validateStep]
    split
    · exact (failAttempt_sameRequest _ u.ps).init
    · split
      · rfl
      · rfl
      · exact (failAttempt_sameRequest _ u.ps).init
      · exact (failAttempt_sameRequest _ u.ps).init
  | success | fatal => exact complete_init _
  | retryable => dsimp only [retryStep]; split <;> rfl

/-- A step that opens a port is the grant step of an INIT that `open` answers with success. -/
theorem agentStep_opens {p : Nat} {a : Action} {u' : Port} (hs : AgentStep prm p u a u') (h : u.ps.init = false)
    (h' : u'.ps.init = true) :
    ∃ c ch, a = .grant p c true ∧ u.chans[c]? = some ch ∧ decode ch.cmd = .command .init := by
  have closed {v : Port} (hv : v.ps.init = u.ps.init) (hv' : v.ps.init = true) : False := by
    rw [hv, h] at hv'; cases hv'
  cases hs with
  | stay => exact (closed rfl h').elim
  | operand => exact (closed rfl h').elim
  | illegal => exact (closed (issueRejected_init _ _) h').elim
  | issue => exact (closed (issueEffect_init _) h').elim
  | grant hc _ _ hcmd =>
    obtain ⟨rfl, rfl⟩ := grantEffect_opens h h'
    exact ⟨_, _, rfl, hc, hcmd⟩
  | sequencer => exact (closed (sequencerStep_init _) h').elim
  | tick => exact (closed (tickPs_sameRequest prm u.cfg u.ps).init h').elim
  | rx => exact (closed (by unfold rxPort; split <;> rfl) h').elim
  | txc => exact (closed (by unfold txcPort; split <;> rfl) h').elim

end

/-- Settles O51, from what each agent's step does to INIT. -/
theorem onlyInitOpensPort : Obligations.OnlyInitOpensPort :=
  fun _ _ _ _ _ h hu hu' => agentStep_opens (step_agentStep h hu hu')

end Sys2Proof.Machine
end

section
/-! Proofs of the family 43_transaction_engine: which command a step is a step of, the issue step, and the lock-grant
step of a Modbus command. -/

namespace Sys2Proof.Machine

section
variable {s : State} {u : Port} {p c : Nat} {ch : Channel} {v : Word} {i : Instr}

/-! ### The agents' steps that run a command (43_transaction_engine.md R240, R243) -/

theorem grantStep_of_grantable (hu : s.ports[p]? = some u) (hc : u.chans[c]? = some ch) (hwait : ch.phase = .waitLock)
    (hlock : u.ps.owner = none) (hcmd : decode ch.cmd = .command i) (o : Bool) :
    grantStep s p c o = exec i (s.select p c o 0) := by
  simp only [grantStep, withChan_eq hu hc, hwait, hlock, and_self, if_true, hcmd]

theorem grantStep_of_not_grantable (hu : s.ports[p]? = some u) (hc : u.chans[c]? = some ch)
    (hno : ch.phase ≠ .waitLock ∨ u.ps.owner ≠ none) (o : Bool) : grantStep s p c o = .next s := by
  rw [grantStep, withChan_eq hu hc, if_neg (not_and_or.2 hno)]

theorem portStep_of_active (hu : s.ports[p]? = some u) (hown : u.ps.owner = some c) (hc : u.chans[c]? = some ch)
    (hact : ch.phase = .active) (hop : u.ps.req.op = i.op) (n : Nat) :
    portStep s p n = exec i (s.select p c false n) := by
  simp only [portStep, withPort_eq hu, hown, withChan_eq hu hc, hact, if_true, hop, commandOf_op]

theorem portStep_of_unowned (hu : s.ports[p]? = some u) (hown : u.ps.owner = none) (n : Nat) :
    portStep s p n = .next s := by
  simp only [portStep, withPort_eq hu, hown]

/-! ### A write that starts no command (R232, R233) -/

theorem putChan_self (hc : u.chans[c]? = some ch) : u.putChan c ch = u := by
  rw [Port.putChan, set_self hc]

theorem setPort_self (hu : s.ports[p]? = some u) : s.setPort p u = s := by
  rw [State.setPort, set_self hu]

theorem busy_of_not_free (hf : ch.phase ≠ .free) : ch.busy = true := decide_eq_true hf

theorem issueStep_busy (hf : ch.phase ≠ .free) (v : Word) : issueStep s p c u ch v = .next s :=
  if_pos (busy_of_not_free hf)

theorem writeReg_busy (hf : ch.phase ≠ .free) (n : Byte) (v : Word) : writeReg ch n v = ch :=
  if_pos (busy_of_not_free hf)

/-- A word that is no command's is illegal (30_encoding.md R102). -/
theorem decode_illegal_of_ne_encode (hv : ∀ i, v ≠ encode i) : ∃ why, decode v = .illegal why := by
  cases hd : decode v with
  | command i => exact absurd (decode_eq_command_iff.1 hd) (hv i)
  | illegal why => exact ⟨why, rfl⟩

theorem issueStep_illegal (hf : ch.phase = .free) {why : Illegal} (hv : decode v = .illegal why) :
    issueStep s p c u ch v = .next (s.setPort p (issueRejected v u c .invalidParameter)) := by
  simp [issueStep, busy_of_free hf, hv]

/-! ### The operands of a Modbus command (R234, R235) -/

/-- A Modbus command passes the argument checks exactly when its operands are in the ranges of the spec. -/
theorem argsOk_iff_admitted (hm : i.isModbus = true) : argsOk i ch = true ↔ Admitted i ch := by
  refine ⟨fun h => ?_, argsOk_of_admitted⟩
  cases i with
  | rc | rhr | rir | wsc | wsr | wmc | wmr => simpa [argsOk, slaveOk, qtyIn, Admitted, and_assoc] using h
  | init | deinit | crc | crcchk => cases hm

theorem issueModbus_of_admitted (hc : u.chans[c]? = some ch) (ha : Admitted i ch) :
    issueModbus i u c ch = u.putChan c (enterWaitLock (encode i) ch) := by
  rw [issueModbus, if_pos (argsOk_of_admitted ha), modChan_eq_putChan hc]

theorem issueModbus_of_not_admitted (hm : i.isModbus = true) (ha : ¬ Admitted i ch) :
    issueModbus i u c ch = issueRejected (encode i) u c .invalidParameter :=
  if_neg (mt (argsOk_iff_admitted hm).1 ha)

/-- The commands that need the port wait for its lock after their issue step (R237). -/
theorem issueEffect_enters_waitLock (hc : u.chans[c]? = some ch)
    (hi : i = .init ∨ i = .deinit ∨ (i.isModbus = true ∧ Admitted i ch)) :
    issueEffect i u c ch = u.putChan c (enterWaitLock (encode i) ch) := by
  obtain rfl | rfl | ⟨hm, ha⟩ := hi
  · exact modChan_eq_putChan hc _
  · exact modChan_eq_putChan hc _
  · rw [issueEffect_modbus hm, issueModbus_of_admitted hc ha]

/-! ### The lock grant of a Modbus command (R240 to R242) -/

theorem exec_modbus_of_grantable (h : Grantable s u ch) (hm : i.isModbus = true) :
    exec i s = .next (s.putPort (grantModbus u s.sel.chan ch)) := by
  rw [exec_of_grantable i h, grantEffect_modbus hm]

theorem grantModbus_of_closed (hinit : u.ps.init = false) :
    grantModbus u c ch = complete (acquireLock u c) c .notInitialized := if_neg (by simp [hinit])

theorem grantModbus_of_open (hinit : u.ps.init = true) : grantModbus u c ch = latchAndBuild (acquireLock u c) ch :=
  if_pos hinit

/-- A write at or below the end of the written bytes keeps the bytes after it. -/
theorem drop_bufWrite (buf a : List Byte) {k : Nat} (hk : k ≤ buf.length) :
    (bufWrite buf k a).drop (k + a.length) = buf.drop (k + a.length) := by
  have h : (buf.take k ++ a).length = k + a.length := by simp; omega
  rw [bufWrite, ← h, List.drop_left]

/-- The latched request and its ADU in TXBUF change nothing of the port but its channel and its port state. -/
theorem latchAndBuild_acquireLock (hc : u.chans[c]? = some ch) : latchAndBuild (acquireLock u c) ch =
    { u.putChan c { ch with phase := .active } with ps := (latchAndBuild (acquireLock u c) ch).ps } := by
  simp only [latchAndBuild, acquireLock, Port.modPs, Port.putChan, modify_eq_set hc]

end

/-- Settles O6, on both sides of what enables the grant step. -/
theorem grantStepRunsWaitingCommand : Obligations.GrantStepRunsWaitingCommand := by
  intro s rest p c o u ch hn hu hc
  rw [step_pending hn.1 hn.2]
  exact ⟨fun i hwait hlock hcmd => grantStep_of_grantable (s := { s with pending := rest }) hu hc hwait hlock hcmd o,
    fun hno => grantStep_of_not_grantable (s := { s with pending := rest }) hu hc hno o⟩

/-- Settles O7, by whether the lock has a holder. -/
theorem sequencerStepRunsLatchedCommand : Obligations.SequencerStepRunsLatchedCommand := by
  intro s rest p n u hn hu
  rw [step_pending hn.1 hn.2]
  exact ⟨fun c ch i hown hc hact hop => portStep_of_active (s := { s with pending := rest }) hu hown hc hact hop n,
    fun hown => portStep_of_unowned (s := { s with pending := rest }) hu hown n⟩

/-- Settles O8: the word decodes to no command, so the issue step rejects it. -/
theorem illegalWordCompletesAtOnce : Obligations.IllegalWordCompletesAtOnce := by
  intro s rest r v u ch hw hr hu hc hf hno hv
  obtain ⟨why, hd⟩ := decode_illegal_of_ne_encode hv
  rw [step_nextWrites hw, hostWriteStep_cmd (s := { s with pending := rest }) hu hc hr, issueStep_illegal hf hd,
    issueRejected_of_free hc hf hno]

/-- Settles O9, for a write of CMD and of the other registers. -/
theorem busyChannelIgnoresWrites : Obligations.BusyChannelIgnoresWrites := by
  intro s rest r v u ch hw hu hc hf
  rw [step_nextWrites hw]
  by_cases hr : r.reg = 0
  · rw [hostWriteStep_cmd (s := { s with pending := rest }) hu hc hr, issueStep_busy hf]
  · rw [hostWriteStep_operand (s := { s with pending := rest }) hu hc hr, writeReg_busy hf, putChan_self hc,
      setPort_self (s := { s with pending := rest }) hu]

/-- Settles O13, from the issue step of the commands that need the port. -/
theorem issueEntersWaitLock : Obligations.IssueEntersWaitLock := by
  intro s u ch i h hf hi
  rw [exec_of_free i h hf, issueEffect_enters_waitLock h.2 hi]; rfl

/-- Settles O14: operands that are not admitted fail the argument checks. -/
theorem issueRejectsOperands : Obligations.IssueRejectsOperands := by
  intro s u ch i h hf hno hm ha
  rw [exec_of_free i h hf, issueEffect_modbus hm, issueModbus_of_not_admitted hm ha, issueRejected_of_free h.2 hf hno]
  rfl

/-- Settles O19: the command takes the lock and completes in the same step. -/
theorem grantUninitialisedPort : Obligations.GrantUninitialisedPort := by
  intro s u ch i h hm hinit
  rw [exec_modbus_of_grantable h hm, grantModbus_of_closed hinit, complete_acquired h.1.2 (acquireLock u _) rfl rfl]
  rfl

/-- Settles O20, with the request and the port state of `latchAndBuild`. -/
theorem grantLatchesAndBuilds : Obligations.GrantLatchesAndBuilds := by
  intro s u ch i h hm hinit
  have hdrop := drop_bufWrite u.ps.txbuf (build (latchRequest ch) ch.data) (Nat.zero_le _)
  rw [Nat.zero_add] at hdrop
  refine ⟨latchRequest ch, (latchAndBuild (acquireLock u s.sel.chan) ch).ps, ?_, rfl, txFrame_latchAndBuild, rfl, hdrop,
    rfl⟩
  rw [exec_modbus_of_grantable h hm, grantModbus_of_open hinit, ← latchAndBuild_acquireLock h.1.2]

end Sys2Proof.Machine
end

section
/-! Proofs of the family 43_transaction_engine: the sequencer's steps, one by one. -/

namespace Sys2Proof.Machine

section
variable {s : State} {u : Port} {c : Nat} {ch : Channel} {i : Instr} {ps : PortState} {cfg : PortConfig}

/-- A step of a Modbus command that holds the lock is its port's sequencer step (43_transaction_engine.md R243). -/
theorem exec_of_running (h : Running s u ch) (hm : i.isModbus = true) :
    exec i s = .next (s.putPort (sequencerStep s.params s.sel.accepted u s.sel.chan)) := by
  obtain ⟨hin, hact, hown⟩ := h
  rw [exec_inHand i hin, portEffect, hact]
  exact congrArg (fun v => Host.Outcome.next (s.putPort v)) (if_pos ⟨hm, hown⟩)

/-! ### The write step (R245 to R247, R250) -/

theorem sequencerStep_write (hs : u.ps.seq = .sending) (hp : u.ps.txph = .start) (prm : Params) (n : Nat) :
    sequencerStep prm n u c = writeStep n u c := by
  simp only [sequencerStep, hs, hp]

theorem writePs_short {n : Nat} (hn : n < ps.txlen) : writePs cfg n ps =
    { ps with txlog := ps.txlog ++ [(txFrame ps).take n], de := false, last := .error, seq := .fatal } := by
  cases hd : cfg.dePresent <;> simp [writePs, beginTransmit, hd, hn, txFrame]

theorem writePs_full_de (hde : cfg.dePresent = true) : writePs cfg ps.txlen ps =
    { ps with txlog := ps.txlog ++ [txFrame ps], de := true, txph := .wait, timer := 0 } := by
  simp [writePs, beginTransmit, hde, txFrame]

theorem writeStep_eq (hc : u.chans[c]? = some ch) (n : Nat) : writeStep n u c =
    { u.putChan c (countAttempt ch) with ps := writePs u.cfg (min n u.ps.txlen) u.ps,
                                         env := { u.env with lineRx := [] } } :=
  modChan_eq_putChan (u := (u.setLine []).modPs (writePs u.cfg (min n u.ps.txlen))) hc countAttempt

/-! ### The byte read step (R251) -/

theorem sequencerStep_read (hs : u.ps.seq = .awaiting) (prm : Params) (n : Nat) :
    sequencerStep prm n u c = byteReadStep u := by
  simp only [sequencerStep, hs]

theorem byteReadStep_cons {b : Byte} {q : List Byte} (hline : u.env.lineRx = b :: q) :
    byteReadStep u = (u.setLine q).modPs (readBytePs u.cfg.rxBufCap b) := by
  simp only [byteReadStep, hline]

/-- The byte read step buffers the byte, and goes to VALIDATING when that completes the frame. -/
theorem readBytePs_eq (hlen : ps.rxlen ≤ ps.rxbuf.length) (cap : Nat) (b : Byte) : readBytePs cap b ps =
    { bufferedPs [b] ps with
      seq := if frameComplete (rxFrame ps ++ [b]) ps.req.op cap = true then .validating else ps.seq } := by
  by_cases hf : frameComplete (rxFrame ps ++ [b]) ps.req.op cap = true
  · rw [readBytePs_last hlen hf, if_pos hf, receivedPs]
  · rw [readBytePs_more hlen hf, if_neg hf, bufferedPs]

/-! ### The validation step (R253) -/

theorem sequencerStep_validate (hs : u.ps.seq = .validating) (prm : Params) (n : Nat) :
    sequencerStep prm n u c = validateStep u c := by
  simp only [sequencerStep, hs]

/-- The status of an attempt that failed: no byte before the timeout, or an error of Parse. -/
def failureStatus (ps : PortState) : Status :=
  if ps.timedOut = true ∧ ps.rxlen = 0 then .timeout
  else if parse (rxFrame ps) ps.req = .crcError then .crcError
  else .unexpectedResponse

theorem failureStatus_of_timeout (h : ps.timedOut = true ∧ ps.rxlen = 0) : failureStatus ps = .timeout := if_pos h

theorem failureStatus_of_crcError (h : ¬ (ps.timedOut = true ∧ ps.rxlen = 0))
    (hr : parse (rxFrame ps) ps.req = .crcError) : failureStatus ps = .crcError := by
  rw [failureStatus, if_neg h, if_pos hr]

theorem failureStatus_of_unexpected (h : ¬ (ps.timedOut = true ∧ ps.rxlen = 0))
    (hr : parse (rxFrame ps) ps.req = .unexpectedResponse) : failureStatus ps = .unexpectedResponse := by
  rw [failureStatus, if_neg h, if_neg (by simp [hr])]

theorem validateStep_of_timeout (h : u.ps.timedOut = true ∧ u.ps.rxlen = 0) :
    validateStep u c = u.modPs (failAttempt .timeout) := if_pos h

theorem validateStep_of_ok (h : ¬ (u.ps.timedOut = true ∧ u.ps.rxlen = 0))
    (hr : parse (rxFrame u.ps) u.ps.req = .ok) : validateStep u c = u.modPs fun ps => { ps with seq := .success } := by
  rw [validateStep, if_neg h, hr]

theorem validateStep_of_exception (h : ¬ (u.ps.timedOut = true ∧ u.ps.rxlen = 0)) {e : Byte}
    (hr : parse (rxFrame u.ps) u.ps.req = .exception e) (hc : u.chans[c]? = some ch) :
    validateStep u c =
      { u.putChan c { ch with exc := e } with ps := { u.ps with last := excStatus e, seq := .fatal } } := by
  rw [validateStep, if_neg h, hr]
  exact modChan_eq_putChan (u := u.modPs fun ps => { ps with last := excStatus e, seq := .fatal }) hc _

theorem validateStep_of_failure (h : (u.ps.timedOut = true ∧ u.ps.rxlen = 0) ∨
      parse (rxFrame u.ps) u.ps.req = .crcError ∨ parse (rxFrame u.ps) u.ps.req = .unexpectedResponse) :
    validateStep u c = u.modPs (failAttempt (failureStatus u.ps)) := by
  by_cases hto : u.ps.timedOut = true ∧ u.ps.rxlen = 0
  · rw [validateStep_of_timeout hto, failureStatus_of_timeout hto]
  · obtain hr | hr := h.resolve_left hto
    · rw [validateStep, if_neg hto, hr, failureStatus_of_crcError hto hr]
    · rw [validateStep, if_neg hto, hr, failureStatus_of_unexpected hto hr]

/-! ### The retry step and the FATAL step (R256, R258) -/

theorem sequencerStep_retry (hs : u.ps.seq = .retryable) (prm : Params) (n : Nat) :
    sequencerStep prm n u c = retryStep prm u := by
  simp only [sequencerStep, hs]

theorem sequencerStep_fatal (hs : u.ps.seq = .fatal) (prm : Params) (n : Nat) :
    sequencerStep prm n u c = complete u c u.ps.last := by
  simp only [sequencerStep, hs, fatalStep]

end

/-- Settles O31, by whether the transport takes the whole frame and the port has direction-enable. -/
theorem writeStepTransmits : Obligations.WriteStepTransmits := by
  intro s u ch i h hm hs hp
  refine ⟨countAttempt ch, writePs u.cfg (min s.sel.accepted u.ps.txlen) u.ps, ?_, rfl, countAttempt_toNat ch,
    fun hn => ?_, fun hn hde => ?_, fun hn hde => ?_⟩
  · rw [exec_of_running h hm, sequencerStep_write hs hp, writeStep_eq h.1.2]
  · rw [Nat.min_eq_left (Nat.le_of_lt hn), writePs_short hn]; rfl
  · rw [Nat.min_eq_right hn, writePs_full_de hde]; rfl
  · rw [Nat.min_eq_right hn, writePs_full hde]; rfl

/-- Settles O32: the byte is buffered, and the frame it ends decides the next sequencer state. -/
theorem byteReadStepReceives : Obligations.ByteReadStepReceives := by
  intro s u ch i b rest h hm hs hline hlen
  have hread := readBytePs_eq hlen u.cfg.rxBufCap b
  have hframe := readBytePs_frame u.cfg.rxBufCap b u.ps hlen
  rw [hread] at hframe
  refine ⟨_, ?_, hframe, rfl, drop_bufWrite _ [b] hlen, ?_, rfl⟩
  · rw [exec_of_running h hm, sequencerStep_read hs, byteReadStep_cons hline, ← hread]; rfl
  · rw [← hs]; rfl

/-- Settles O33, by the result of the validation. -/
theorem validationStepClassifies : Obligations.ValidationStepClassifies := by
  intro s u ch i h hm hs
  rw [exec_of_running h hm, sequencerStep_validate hs]
  refine ⟨_, failureStatus u.ps, rfl, failureStatus_of_timeout, failureStatus_of_crcError, failureStatus_of_unexpected,
    fun hto hr => ?_, fun e hto hr => ?_, fun hf => ?_⟩
  · rw [validateStep_of_ok hto hr]; rfl
  · rw [validateStep_of_exception hto hr h.1.2]
  · rw [validateStep_of_failure hf]; rfl

/-- Settles O34, on both sides of the backoff. -/
theorem retryStepAfterBackoff : Obligations.RetryStepAfterBackoff := by
  intro s u ch i h hm hs
  rw [exec_of_running h hm, sequencerStep_retry hs, retryStep]
  refine ⟨fun hb => ?_, fun hb => ?_⟩
  · rw [if_pos hb]; rfl
  · rw [if_neg (Nat.not_le.2 hb)]

/-- Settles O35: the command that completes holds the lock. -/
theorem fatalStepReportsLastStatus : Obligations.FatalStepReportsLastStatus := by
  intro s u ch i h hm hs
  rw [exec_of_running h hm, sequencerStep_fatal hs, complete_owner h.1.2 h.2.2]; rfl

end Sys2Proof.Machine
end

section
/-! Proofs of the family 43_transaction_engine: the tick. -/

namespace Sys2Proof.Machine

section
variable {s : State} {prm : Params} {cfg : PortConfig} {ps : PortState} {ch : Channel}

theorem reached_eq_true_iff {b : Option Nat} {t : Nat} : reached b t = true ↔ ∃ n, b = some n ∧ n ≤ t := by
  cases b <;> simp [reached]

theorem step_tick {rest : List Action} (hn : NextIs s .tick rest) :
    step s = .next (tickStep { s with pending := rest }) := step_pending hn.1 hn.2

theorem tickStep_get {p : Nat} {u : Port} (hu : s.ports[p]? = some u) :
    (tickStep s).ports[p]? = some (tickPort s.params u) := by simp [hu]

/-! ### The channels (43_transaction_engine.md R238, R239) -/

theorem tickChannel_of_not_waiting (hw : ch.phase ≠ .waitLock) : tickChannel prm ch = ch := by
  obtain ⟨-, e⟩ | ⟨hw', -⟩ := tickChannel_cases prm ch
  · exact e
  · exact absurd hw' hw

theorem tickChannel_of_waiting (hw : ch.phase = .waitLock) : tickChannel prm ch =
    if reached prm.lockWaitMs (ch.wait + 1) then completeChannel .busy ch else { ch with wait := ch.wait + 1 } := by
  simp only [tickChannel, hw]

/-! ### The timer of a port (R248, R252, R258) -/

theorem tickPs_wait (hs : ps.seq = .sending) (hp : ps.txph = .wait) : tickPs prm cfg ps =
    if reached prm.txcTimeoutMs (ps.timer + 1) then endTransmit ps else { ps with timer := ps.timer + 1 } := by
  simp only [tickPs, hs, hp, endTransmit, enterAwaiting]

theorem tickPs_awaiting (hs : ps.seq = .awaiting) : tickPs prm cfg ps =
    if cfg.respTimeoutMs ≤ ps.timer + 1 then { ps with timer := ps.timer + 1, timedOut := true, seq := .validating }
    else { ps with timer := ps.timer + 1 } := by
  simp only [tickPs, hs]

theorem tickPs_retryable (hs : ps.seq = .retryable) : tickPs prm cfg ps = { ps with timer := ps.timer + 1 } := by
  simp only [tickPs, hs]

theorem tickPs_untimed (h : ps.seq = .idle ∨ (ps.seq = .sending ∧ ps.txph = .start) ∨ ps.seq = .validating ∨
    ps.seq = .success ∨ ps.seq = .fatal) : tickPs prm cfg ps = ps := by
  obtain hs | ⟨hs, hp⟩ | hs | hs | hs := h
  · simp only [tickPs, hs]
  · simp only [tickPs, hs, hp]
  all_goals simp only [tickPs, hs]

end

/-- Settles O40, by the phase of the channel and the bound on its wait. -/
theorem tickCountsLockWaits : Obligations.TickCountsLockWaits := by
  intro s rest p c u ch hn hu hc
  have hch : (tickPort s.params u).chans[c]? = some (tickChannel s.params ch) := by simp [hc]
  refine ⟨_, tickChannel s.params ch, step_tick hn, (chanAt_of_port (tickStep_get hu) c).trans hch, rfl, rfl,
    List.length_map _, tickChannel_of_not_waiting, fun hw hb => ?_, fun n hw hb hlt => ?_, fun n hw hb hle => ?_⟩
  · rw [tickChannel_of_waiting hw, if_neg (by simp [hb, reached])]
  · rw [tickChannel_of_waiting hw, if_neg (by simp [hb, reached]; omega)]
  · rw [tickChannel_of_waiting hw, if_pos (by simp [hb, reached]; omega)]; rfl

/-- Settles O41, by the sequencer state of the port. -/
theorem tickDrivesTimers : Obligations.TickDrivesTimers := by
  intro s rest p u _ hn hu
  refine ⟨_, tickPort s.params u, step_tick hn, tickStep_get hu, rfl, rfl, fun hs hp => ?_, fun hs => ?_,
    fun hs => tickPs_retryable hs, fun h => tickPs_untimed h⟩
  · rw [tickPort_ps, tickPs_wait hs hp]
    refine ⟨fun hlt => if_neg ?_, fun n hb hle => if_pos (reached_eq_true_iff.2 ⟨n, hb, hle⟩)⟩
    rw [reached_eq_true_iff]
    rintro ⟨n, hb, hle⟩
    exact absurd (hlt n hb) (Nat.not_lt.2 hle)
  · rw [tickPort_ps, tickPs_awaiting hs]
    exact ⟨fun hlt => if_neg (by omega), fun hle => if_pos hle⟩

end Sys2Proof.Machine
end

section
/-! Proofs of the family 43_transaction_engine: the frame of every command. What one step of a command may change of its
port and its channel is said once, in `CommandStep`; each kind of step starts from the step that changes nothing. -/

namespace Sys2Proof.Machine

/-- What one step of command `i`, on the channel of `sel`, may change as it takes port `u` to `u'` and the channel's
record `ch` to `ch'`: each field is as before, or the step is one of those that write it. -/
structure CommandStep (i : Instr) (sel : Selection) (u : Port) (ch : Channel) (u' : Port) (ch' : Channel) : Prop where
  cfg      : u'.cfg = u.cfg
  chans    : u'.chans = u.chans.set sel.chan ch'
  slave    : ch'.slave = ch.slave
  addr     : ch'.addr = ch.addr
  qty      : ch'.qty = ch.qty
  cmd      : ch'.cmd = ch.cmd ∨ ch.phase = .free
  crcr     : ch'.crcr = ch.crcr ∨ i = .crc ∨ i = .crcchk
  data     : ch'.data = ch.data ∨ (ch.phase = .active ∧ u.ps.seq = .success ∧ isRead u.ps.req.op = true)
  exc      : ch'.exc = ch.exc ∨ ch.phase = .free ∨ (ch.phase = .active ∧ u.ps.seq = .validating)
  attempts : ch'.attempts = ch.attempts ∨ ch.phase = .free ∨
               (ch.phase = .active ∧ u.ps.seq = .sending ∧ u.ps.txph = .start)
  result   : (ch'.done = ch.done ∧ ch'.status = ch.status) ∨ ch.phase = .free ∨ ch'.phase = .free
  init     : (u'.ps.init = u.ps.init ∧ u'.env.configured = u.env.configured) ∨ i = .init ∨ i = .deinit
  txlog    : u'.ps.txlog = u.ps.txlog ∨ (ch.phase = .active ∧ u.ps.seq = .sending ∧ u.ps.txph = .start ∧
               u'.ps.txlog = u.ps.txlog ++ [(txFrame u.ps).take (min sel.accepted u.ps.txlen)])
  request  : (u'.ps.req = u.ps.req ∧ u'.ps.txbuf = u.ps.txbuf ∧ u'.ps.txlen = u.ps.txlen) ∨ ch.phase = .waitLock
  rxbuf    : u'.ps.rxbuf = u.ps.rxbuf ∨ (ch.phase = .active ∧ u.ps.seq = .awaiting)
  line     : u'.env.lineRx = u.env.lineRx ∨ (ch.phase = .waitLock ∧ (i = .init ∨ i = .deinit)) ∨
               (ch.phase = .active ∧ (u.ps.seq = .sending ∨ u.ps.seq = .awaiting))
  released : ch'.phase = .free → ch.phase = .free ∨
               (ch'.done = true ∧ u'.ps.owner = none ∧ u'.ps.seq = .idle ∧ u'.ps.de = false)

section
variable {i : Instr} {sel : Selection} {prm : Params} {u v : Port} {ch x : Channel}

/-- A step that changes nothing, and with it every field that another step leaves as it is. -/
theorem CommandStep.stay (hc : u.chans[sel.chan]? = some ch) : CommandStep i sel u ch u ch where
  cfg := rfl
  chans := (set_self hc).symm
  slave := rfl
  addr := rfl
  qty := rfl
  cmd := .inl rfl
  crcr := .inl rfl
  data := .inl rfl
  exc := .inl rfl
  attempts := .inl rfl
  result := .inl ⟨rfl, rfl⟩
  init := .inl ⟨rfl, rfl⟩
  txlog := .inl rfl
  request := .inl ⟨rfl, rfl, rfl⟩
  rxbuf := .inl rfl
  line := .inl rfl
  released := .inl

/-- A step that ends in a completion adds to what comes before it only the result and the release of the lock
(60_exceptions.md R330). -/
theorem CommandStep.complete (h : CommandStep i sel u ch v x) (ho : ch.phase = .free ∨ v.ps.owner = some sel.chan)
    (st : Status) : CommandStep i sel u ch (complete v sel.chan st) (completeChannel st x) := by
  have hps : (Machine.complete v sel.chan st).ps = v.ps ∨ (Machine.complete v sel.chan st).ps = releaseLock v.ps := by
    rw [complete_ps]
    split
    · exact .inr rfl
    · exact .inl rfl
  refine { h with chans := ?chans, result := .inr (.inr rfl), init := ?init, txlog := ?txlog, request := ?request,
                  rxbuf := ?rxbuf, released := fun _ => ?released }
  case chans => rw [complete_chans, h.chans, modify_set]
  case init => obtain e | e := hps <;> rw [e] <;> exact h.init
  case txlog => obtain e | e := hps <;> rw [e] <;> exact h.txlog
  case request => obtain e | e := hps <;> rw [e] <;> exact h.request
  case rxbuf => obtain e | e := hps <;> rw [e] <;> exact h.rxbuf
  case released =>
    refine ho.imp_right fun hown => ⟨rfl, ?_⟩
    rw [complete_ps, if_pos hown]
    exact ⟨rfl, rfl, rfl⟩

/-! ### The issue step (43_transaction_engine.md R231) -/

theorem commandStep_accept (hc : u.chans[sel.chan]? = some ch) (hf : ch.phase = .free) (w : Word) :
    CommandStep i sel u ch (u.modChan sel.chan (acceptCommand w)) (acceptCommand w ch) :=
  { CommandStep.stay hc with
    chans := modify_eq_set hc _
    cmd := .inr hf
    exc := .inr (.inl hf)
    attempts := .inr (.inl hf)
    result := .inr (.inl hf)
    released := fun _ => .inl hf }

theorem commandStep_enterWaitLock (hc : u.chans[sel.chan]? = some ch) (hf : ch.phase = .free) (w : Word) :
    CommandStep i sel u ch (u.modChan sel.chan (enterWaitLock w)) (enterWaitLock w ch) :=
  { commandStep_accept hc hf w with
    chans := modify_eq_set hc _
    result := .inr (.inl hf)
    released := fun _ => .inl hf }

theorem commandStep_rejected (hc : u.chans[sel.chan]? = some ch) (hf : ch.phase = .free) (w : Word) (st : Status) :
    CommandStep i sel u ch (issueRejected w u sel.chan st) (completeChannel st (acceptCommand w ch)) :=
  (commandStep_accept hc hf w).complete (.inl hf) st

theorem commandStep_computed (hi : i = .crc ∨ i = .crcchk) (hc : u.chans[sel.chan]? = some ch) (hf : ch.phase = .free)
    (j : Instr) (r : Word) (st : Status) :
    CommandStep i sel u ch (issueComputed j r st u sel.chan)
      (completeChannel st { acceptCommand (encode j) ch with crcr := r }) := by
  have haccept := commandStep_accept (i := i) hc hf (encode j)
  have hcrcr : CommandStep i sel u ch
      ((u.modChan sel.chan (acceptCommand (encode j))).modChan sel.chan fun ch => { ch with crcr := r })
      { acceptCommand (encode j) ch with crcr := r } :=
    { haccept with
      chans := by rw [modChan_chans, haccept.chans, modify_set]
      crcr := .inr hi }
  exact hcrcr.complete (.inl hf) st

theorem issueEffect_commandStep (hc : u.chans[sel.chan]? = some ch) (hf : ch.phase = .free) :
    ∃ ch', CommandStep i sel u ch (issueEffect i u sel.chan ch) ch' := by
  cases i with
  | rc | rhr | rir | wsc | wsr | wmc | wmr =>
    simp only [issueEffect, issueModbus]
    split
    · exact ⟨_, commandStep_enterWaitLock hc hf _⟩
    · exact ⟨_, commandStep_rejected hc hf _ _⟩
  | init | deinit => exact ⟨_, commandStep_enterWaitLock hc hf _⟩
  | crc =>
    simp only [issueEffect, issueCrc]
    split
    · exact ⟨_, commandStep_rejected hc hf _ _⟩
    · exact ⟨_, commandStep_computed (.inl rfl) hc hf _ _ _⟩
  | crcchk =>
    simp only [issueEffect, issueCrcchk]
    split
    · exact ⟨_, commandStep_rejected hc hf _ _⟩
    · exact ⟨_, commandStep_computed (.inr rfl) hc hf _ _ _⟩

/-! ### The lock-grant step (R240) -/

theorem commandStep_acquire (hc : u.chans[sel.chan]? = some ch) :
    CommandStep i sel u ch (acquireLock u sel.chan) { ch with phase := .active } :=
  { CommandStep.stay hc with
    chans := modify_eq_set hc _
    result := .inl ⟨rfl, rfl⟩
    released := nofun }

/-- INIT's and DEINIT's work on the port (42_transport_port.md R212, R214). -/
theorem CommandStep.lifecycle (h : CommandStep i sel u ch v x) (hw : ch.phase = .waitLock) (hx : x.phase ≠ .free)
    (hi : i = .init ∨ i = .deinit) {w : Port}
    (hps : ∃ b d, w.ps = { v.ps with init := b, de := d }) (hcfg : w.cfg = v.cfg) (hchans : w.chans = v.chans) :
    CommandStep i sel u ch w x := by
  obtain ⟨b, d, hps⟩ := hps
  exact { h with
    cfg := hcfg.trans h.cfg
    chans := hchans.trans h.chans
    init := .inr hi
    txlog := by rw [hps]; exact h.txlog
    request := .inr hw
    rxbuf := by rw [hps]; exact h.rxbuf
    line := .inr (.inl ⟨hw, hi⟩)
    released := fun hf => absurd hf hx }

theorem grantEffect_commandStep (hc : u.chans[sel.chan]? = some ch) (hw : ch.phase = .waitLock) (o : Bool) :
    ∃ ch', CommandStep i sel u ch (grantEffect i o u sel.chan ch) ch' := by
  have hacquire := commandStep_acquire (i := i) hc
  cases i with
  | rc | rhr | rir | wsc | wsr | wmc | wmr =>
    simp only [grantEffect, grantModbus]
    split
    · exact ⟨_, { hacquire with request := .inr hw, released := nofun }⟩
    · exact ⟨_, hacquire.complete (.inr rfl) _⟩
  | init =>
    simp only [grantEffect, grantInit]
    split
    · exact ⟨_, hacquire.complete (.inr rfl) _⟩
    · split
      · exact ⟨_, (hacquire.lifecycle hw nofun (.inl rfl) (w := setInit true (callConfigure (acquireLock u sel.chan)))
          ⟨_, _, rfl⟩ rfl rfl).complete (.inr rfl) _⟩
      · exact ⟨_, (hacquire.lifecycle hw nofun (.inl rfl) (w := callConfigure (acquireLock u sel.chan))
          ⟨_, _, rfl⟩ rfl rfl).complete (.inr rfl) _⟩
  | deinit =>
    simp only [grantEffect, grantDeinit]
    split
    · exact ⟨_, (hacquire.lifecycle hw nofun (.inr rfl) (w := setInit false (acquireLock u sel.chan))
        ⟨_, _, rfl⟩ rfl rfl).complete (.inr rfl) _⟩
    · exact ⟨_, hacquire.complete (.inr rfl) _⟩
  | crc | crcchk => exact ⟨_, .stay hc⟩

/-! ### The sequencer's steps (R243) -/

theorem writePs_frame (cfg : PortConfig) (n : Nat) (ps : PortState) :
    (writePs cfg n ps).rxbuf = ps.rxbuf ∧ (writePs cfg n ps).txlog = ps.txlog ++ [(txFrame ps).take n] := by
  cases hd : cfg.dePresent <;> by_cases hn : n < ps.txlen <;> simp [writePs, beginTransmit, hd, hn, txFrame]

theorem commandStep_write (hc : u.chans[sel.chan]? = some ch) (ha : ch.phase = .active) (hs : u.ps.seq = .sending)
    (hp : u.ps.txph = .start) :
    CommandStep i sel u ch (writeStep sel.accepted u sel.chan) (countAttempt ch) := by
  have hreq := writePs_sameRequest u.cfg (min sel.accepted u.ps.txlen) u.ps
  obtain ⟨hrx, hlog⟩ := writePs_frame u.cfg (min sel.accepted u.ps.txlen) u.ps
  exact { CommandStep.stay hc with
    chans := modify_eq_set hc _
    attempts := .inr (.inr ⟨ha, hs, hp⟩)
    init := .inl ⟨hreq.init, rfl⟩
    txlog := .inr ⟨ha, hs, hp, hlog⟩
    request := .inl ⟨hreq.req, hreq.txbuf, hreq.txlen⟩
    rxbuf := .inl hrx
    line := .inr (.inr ⟨ha, .inl hs⟩)
    released := .inl }

theorem commandStep_read (hc : u.chans[sel.chan]? = some ch) (ha : ch.phase = .active) (hs : u.ps.seq = .awaiting) :
    CommandStep i sel u ch (byteReadStep u) ch := by
  unfold byteReadStep
  split
  · exact .stay hc
  · rename_i b q _
    have hreq := readBytePs_sameRequest u.cfg.rxBufCap b u.ps
    have hlog : (readBytePs u.cfg.rxBufCap b u.ps).txlog = u.ps.txlog := by
      obtain ⟨ps', rfl, ⟨-, e⟩ | ⟨-, e⟩⟩ := readBytePs_cases u.cfg.rxBufCap b u.ps <;> rw [e]
    exact { CommandStep.stay hc with
      init := .inl ⟨hreq.init, rfl⟩
      txlog := .inl hlog
      request := .inl ⟨hreq.req, hreq.txbuf, hreq.txlen⟩
      rxbuf := .inr ⟨ha, hs⟩
      line := .inr (.inr ⟨ha, .inr hs⟩)
      released := .inl }

theorem commandStep_failAttempt (hc : u.chans[sel.chan]? = some ch) (st : Status) :
    CommandStep i sel u ch (u.modPs (failAttempt st)) ch := by
  have hbuf : (failAttempt st u.ps).txlog = u.ps.txlog ∧ (failAttempt st u.ps).rxbuf = u.ps.rxbuf := by
    obtain ⟨-, e⟩ | e := failAttempt_cases st u.ps <;> rw [e] <;> exact ⟨rfl, rfl⟩
  have hreq := failAttempt_sameRequest st u.ps
  exact { CommandStep.stay hc with
    init := .inl ⟨hreq.init, rfl⟩
    txlog := .inl hbuf.1
    request := .inl ⟨hreq.req, hreq.txbuf, hreq.txlen⟩
    rxbuf := .inl hbuf.2
    released := .inl }

theorem commandStep_validate (hc : u.chans[sel.chan]? = some ch) (ha : ch.phase = .active)
    (hs : u.ps.seq = .validating) : ∃ ch', CommandStep i sel u ch (validateStep u sel.chan) ch' := by
  unfold validateStep
  split
  · exact ⟨_, commandStep_failAttempt hc _⟩
  · split
    · exact ⟨_, { CommandStep.stay hc with released := .inl }⟩
    · rename_i e _
      exact ⟨{ ch with exc := e }, { CommandStep.stay hc with
        chans := modify_eq_set hc _
        exc := .inr (.inr ⟨ha, hs⟩)
        released := .inl }⟩
    · exact ⟨_, commandStep_failAttempt hc _⟩
    · exact ⟨_, commandStep_failAttempt hc _⟩

/-- Only a read's payload is copied to DATA (44_function_commands.md R283). -/
theorem copyPayload_of_not_read {req : Request} (h : isRead req.op = false) (rx : List Byte) (d : DataBuffer) :
    copyPayload req rx d = d := by
  obtain ⟨hcoils, hregisters⟩ := not_or.1 (mt (isRead_iff (op := req.op)).2 (by simp [h]))
  rw [copyPayload, if_neg hregisters, if_neg hcoils]

theorem commandStep_payload (hc : u.chans[sel.chan]? = some ch) (ha : ch.phase = .active)
    (hs : u.ps.seq = .success) :
    CommandStep i sel u ch
      (u.modChan sel.chan fun ch => { ch with data := copyPayload u.ps.req (rxFrame u.ps) ch.data })
      { ch with data := copyPayload u.ps.req (rxFrame u.ps) ch.data } := by
  refine { CommandStep.stay hc with chans := modify_eq_set hc _, data := ?_ }
  cases hr : isRead u.ps.req.op with
  | true => exact .inr ⟨ha, hs, rfl⟩
  | false => exact .inl (copyPayload_of_not_read hr _ _)

theorem sequencerStep_commandStep (hc : u.chans[sel.chan]? = some ch) (ha : ch.phase = .active)
    (ho : u.ps.owner = some sel.chan) :
    ∃ ch', CommandStep i sel u ch (sequencerStep prm sel.accepted u sel.chan) ch' := by
  have stay : CommandStep i sel u ch u ch := .stay hc
  unfold sequencerStep
  cases hs : u.ps.seq with
  | idle => exact ⟨ch, stay⟩
  | sending =>
    cases hp : u.ps.txph with
    | start => exact ⟨_, commandStep_write hc ha hs hp⟩
    | wait => exact ⟨ch, stay⟩
  | awaiting => exact ⟨_, commandStep_read hc ha hs⟩
  | validating => exact commandStep_validate hc ha hs
  | success => exact ⟨_, (commandStep_payload hc ha hs).complete (.inr ho) _⟩
  | retryable =>
    dsimp only [retryStep]
    split
    · exact ⟨ch, { stay with released := .inl }⟩
    · exact ⟨ch, stay⟩
  | fatal => exact ⟨_, stay.complete (.inr ho) _⟩

/-- One step of any command. -/
theorem portEffect_commandStep (hc : u.chans[sel.chan]? = some ch) :
    ∃ ch', CommandStep i sel u ch (portEffect i prm sel u ch) ch' := by
  unfold portEffect
  split
  · exact issueEffect_commandStep hc ‹_›
  · split
    · exact grantEffect_commandStep hc ‹_› _
    · exact ⟨_, .stay hc⟩
  · split
    · rename_i ha hen
      exact sequencerStep_commandStep hc ha hen.2
    · exact ⟨_, .stay hc⟩

/-- The step writes no channel but its own. -/
theorem CommandStep.get_self (h : CommandStep i sel u ch v x) (hc : u.chans[sel.chan]? = some ch) :
    v.chans[sel.chan]? = some x := by
  rw [h.chans]
  exact putChan_get hc x

theorem CommandStep.get_other (h : CommandStep i sel u ch v x) {j : Nat} (hj : j ≠ sel.chan) :
    v.chans[j]? = u.chans[j]? := by
  rw [h.chans, List.getElem?_set_ne hj.symm]

end

/-- Settles O39, from what one step of any command may change. -/
theorem commandFrame : Obligations.CommandFrame := by
  intro s t u ch i hin hexec
  obtain ⟨hu, hc⟩ := hin
  rw [exec_inHand i ⟨hu, hc⟩] at hexec
  cases hexec
  obtain ⟨ch', h⟩ := portEffect_commandStep (i := i) (prm := s.params) hc
  refine ⟨rfl, rfl, rfl, rfl, rfl, fun q hq => setPort_get_other hq.symm _, _, ch', ⟨setPort_get hu _, h.get_self hc⟩,
    h.cfg, by rw [h.chans, List.length_set], fun j hj => h.get_other hj, h.slave, h.addr, h.qty, h.cmd.resolve_right,
    fun h1 h2 => h.crcr.resolve_right (not_or.2 ⟨h1, h2⟩), fun hne => ?data, h.exc.resolve_left,
    h.attempts.resolve_left, fun hne => h.result.resolve_left (not_and_or.2 hne),
    fun h1 h2 => h.init.resolve_right (not_or.2 ⟨h1, h2⟩), h.txlog.resolve_left,
    fun hne => h.request.resolve_left (by tauto), h.rxbuf.resolve_left, h.line.resolve_left⟩
  obtain ⟨ha, hs, hr⟩ := h.data.resolve_left hne
  exact ⟨ha, hs, isRead_iff.1 hr⟩

end Sys2Proof.Machine
end

section
/-! Proofs of the family 43_transaction_engine: the release of the lock, and the transaction an exception response ends. -/

namespace Sys2Proof.Machine

section
variable {prm : Params} {p c : Nat} {u u' : Port} {ch ch' : Channel} {i : Instr} {a : Action}

/-! ### The release of the lock (43_transaction_engine.md R261) -/

/-- The selection of channel `c`, with the transport's answer `n` in a sequencer step. -/
def selectionOf (c n : Nat) : Selection := { port := 0, chan := c, openOk := false, accepted := n }

/-- Neither an issue step nor a lock-grant step writes a channel that is ACTIVE. -/
theorem CommandStep.active_stays {sel : Selection} {x y : Channel} (h : CommandStep i sel u x u' y)
    (hx : u.chans[sel.chan]? = some x) (hx' : x.phase ≠ .active) (hc : u.chans[c]? = some ch)
    (hact : ch.phase = .active) (hc' : u'.chans[c]? = some ch') : ch' = ch := by
  have hne : c ≠ sel.chan := by
    rintro rfl
    rw [hx] at hc; cases hc
    exact hx' hact
  rw [h.get_other hne, hc] at hc'
  exact (Option.some.inj hc').symm

/-- The channel that a step of the sequencer frees has its result, and the lock is free and the sequencer IDLE; no other
step of an agent frees an ACTIVE channel. (Where the step is no command's own, or any Modbus command's, `.rc` stands in
for the command.) -/
theorem agentStep_releases (h : PortInv prm u) (hs : AgentStep prm p u a u') (hc : u.chans[c]? = some ch)
    (hc' : u'.chans[c]? = some ch') (hact : ch.phase = .active) (hfree : ch'.phase = .free) :
    ch'.done = true ∧ u'.ps.owner = none ∧ u'.ps.seq = .idle ∧ u'.ps.de = false := by
  have active {P : Prop} (e : ch' = ch) : P := by
    rw [e, hact] at hfree; cases hfree
  have same {P : Prop} (e : u'.chans = u.chans) : P :=
    active (Option.some.inj (hc'.symm.trans (by rw [e, hc])))
  cases hs with
  | stay => exact same rfl
  | @operand _ d x n v _ hx _ =>
    refine active ?_
    by_cases hd : d = c
    · subst hd
      obtain rfl : ch = x := Option.some.inj (hc.symm.trans hx)
      rw [putChan_get hc, writeReg_busy (by simp [hact])] at hc'
      exact (Option.some.inj hc').symm
    · rw [putChan_get_other hd, hc] at hc'
      exact (Option.some.inj hc').symm
  | @illegal _ d x v _ _ hx hf _ =>
    exact active ((commandStep_rejected (i := .rc) (sel := selectionOf d 0) hx hf v _).active_stays hx (by simp [hf]) hc
      hact hc')
  | @issue _ d x v j _ hx hf _ =>
    obtain ⟨y, hstep⟩ := issueEffect_commandStep (i := j) (sel := selectionOf d 0) hx hf
    exact active (hstep.active_stays hx (by simp [hf]) hc hact hc')
  | @grant d o x j hx hw _ _ =>
    obtain ⟨y, hstep⟩ := grantEffect_commandStep (i := j) (sel := selectionOf d 0) hx hw o
    exact active (hstep.active_stays hx (by simp [hw]) hc hact hc')
  | @sequencer d n x hx _ hown =>
    have hd : d = c := Option.some.inj (hown.symm.trans ((h.ownerIff c).2 ⟨ch, hc, hact⟩))
    subst hd
    obtain ⟨y, hstep⟩ := sequencerStep_commandStep (i := .rc) (prm := prm) (sel := selectionOf d n) hc hact hown
    obtain rfl : ch' = y := Option.some.inj (hc'.symm.trans (hstep.get_self hc))
    exact (hstep.released hfree).resolve_left (by simp [hact])
  | tick =>
    refine active (Option.some.inj (hc'.symm.trans ?_))
    rw [tickPort_chans, List.getElem?_map, hc, Option.map_some, tickChannel_of_not_waiting (by simp [hact])]
  | rx => exact same (by unfold rxPort; split <;> rfl)
  | txc => exact same (by unfold txcPort; split <;> rfl)

/-! ### The holder of the lock -/

/-- In states of the invariant the lock's holder runs the Modbus command whose request is latched (R242). -/
theorem heldBy_of_inv (h : PortInv prm u) (ho : u.ps.owner = some c) (hc : u.chans[c]? = some ch) : HeldBy u c ch where
  owner := ho
  chan := hc
  active := active_of_owner h ho hc
  modbus := by
    have ht := h.transaction c ch ho hc
    obtain ⟨i, hd, hm, -⟩ := ht.command
    exact ⟨i, by rw [ht.latched]; exact (decode_command hd).2, hm⟩

/-! ### An exception response (R254, R257) -/

/-- From the validation of an exception response, two sequencer steps complete the command. -/
theorem portRun_exception {e : Byte} (h : HeldBy u c ch) (hs : u.ps.seq = .validating)
    (hto : ¬ (u.ps.timedOut = true ∧ u.ps.rxlen = 0)) (hparse : parse (rxFrame u.ps) u.ps.req = .exception e) :
    PortRun prm p [.sequencer p 0, .sequencer p 0] u
      { u.putChan c (completeChannel (excStatus e) { ch with exc := e }) with
        ps := releaseLock { u.ps with last := excStatus e, seq := .fatal } } := by
  have hvalidate := portTakes_sequencer (prm := prm) (p := p) h 0
  rw [sequencerStep_validate hs, validateStep_of_exception hto hparse h.chan] at hvalidate
  have hfatal : HeldBy { u.putChan c { ch with exc := e } with ps := { u.ps with last := excStatus e, seq := .fatal } }
      c { ch with exc := e } := h.keep ⟨rfl, rfl, rfl, rfl, rfl⟩ (putChan_get h.chan _) rfl
  have hcomplete := portTakes_sequencer (prm := prm) (p := p) hfatal 0
  rw [sequencerStep_fatal rfl, complete_owner hfatal.chan hfatal.owner] at hcomplete
  have hend : ({ u.putChan c { ch with exc := e } with ps := { u.ps with last := excStatus e, seq := .fatal } } :
      Port).putChan c (completeChannel (excStatus e) { ch with exc := e }) =
      { u.putChan c (completeChannel (excStatus e) { ch with exc := e }) with
        ps := { u.ps with last := excStatus e, seq := .fatal } } := by
    simp [Port.putChan]
  rw [hend] at hcomplete
  exact .cons hvalidate hcomplete.run

end

/-- Settles O53, from the step of an agent that frees an ACTIVE channel. -/
theorem completionReleasesLock : Obligations.CompletionReleasesLock :=
  fun _ _ _ _ _ _ _ _ hi h hu hu' hc hc' =>
    agentStep_releases (hi _ (List.mem_of_getElem? hu)) (step_agentStep h hu hu') hc hc'

/-- Settles O55: the validation step and the FATAL step, one after the other. -/
theorem exceptionIsNotRetried : Obligations.ExceptionIsNotRetried := by
  intro s p c u ch e rest hi hn hu ho hc hs hrx hparse
  have hheld := heldBy_of_inv (hi u (List.mem_of_getElem? hu)) ho hc
  have hto : ¬ (u.ps.timedOut = true ∧ u.ps.rxlen = 0) := fun h => absurd h.2 (Nat.ne_of_gt hrx)
  obtain ⟨t, ht, -, hv⟩ :=
    (portRun_exception (prm := s.params) (p := p) hheld hs hto hparse).runsTo_of_pending hn.1 rfl hu hn.2
  exact ⟨t, _, _, ht, hv, putChan_get hc _, rfl, rfl, rfl, rfl⟩

end Sys2Proof.Machine
end

section
/-! Proofs of the family 43_transaction_engine: the ports are independent. -/

namespace Sys2Proof.Machine

/-- Under the parameters `prm`, the step `k` is a step of port `p` alone (43_transaction_engine.md R264): it leaves every
other port as it is, and what it makes of port `p` is the same in any two states that agree on that port. -/
structure PortLocal (prm : Params) (p : Nat) (k : State → Host.Outcome State Fault Refusal) : Prop where
  others : ∀ {s t : State} {q : Nat}, s.params = prm → k s = .next t → q ≠ p → t.ports[q]? = s.ports[q]?
  same   : ∀ {s s' t t' : State}, s.params = prm → s'.params = prm → s'.ports[p]? = s.ports[p]? → k s = .next t →
             k s' = .next t' → t'.ports[p]? = t.ports[p]?

section
variable {prm : Params} {p : Nat}

/-! ### The steps of one port -/

theorem portLocal_stay : PortLocal prm p Host.Outcome.next where
  others _ h _ := by cases h; rfl
  same _ _ hp h h' := by cases h; cases h'; exact hp

theorem portLocal_setPort (u : Port) : PortLocal prm p fun s => .next (s.setPort p u) where
  others _ h hq := by cases h; exact setPort_get_other hq.symm u
  same _ _ hp h h' := by
    cases h; cases h'
    simp only [setPort_ports, List.getElem?_set_self', hp]

theorem portLocal_withPort {k : State → Port → Host.Outcome State Fault Refusal}
    (hk : ∀ u, PortLocal prm p fun s => k s u) : PortLocal prm p fun s => s.withPort p (k s) where
  others hs h hq := by
    obtain ⟨u, -, h⟩ := withPort_next h
    exact (hk u).others hs h hq
  same hs hs' hp h h' := by
    obtain ⟨u, hu, h⟩ := withPort_next h
    rw [withPort_eq (hp.trans hu)] at h'
    exact (hk u).same hs hs' hp h h'

theorem portLocal_withChan {c : Nat} {k : State → Port → Channel → Host.Outcome State Fault Refusal}
    (hk : ∀ u ch, PortLocal prm p fun s => k s u ch) : PortLocal prm p fun s => s.withChan p c (k s) where
  others hs h hq := by
    obtain ⟨u, ch, -, -, h⟩ := withChan_next h
    exact (hk u ch).others hs h hq
  same hs hs' hp h h' := by
    obtain ⟨u, ch, hu, hc, h⟩ := withChan_next h
    rw [withChan_eq (hp.trans hu) hc] at h'
    exact (hk u ch).same hs hs' hp h h'

/-- A command's step reads the parameters and the port in hand, and writes that port. -/
theorem portLocal_exec (i : Instr) (c : Nat) (o : Bool) (n : Nat) :
    PortLocal prm p fun s => exec i (s.select p c o n) where
  others _ h hq := by
    obtain ⟨u, ch, -, rfl⟩ := exec_next h
    exact setPort_get_other hq.symm _
  same hs hs' hp h h' := by
    obtain ⟨u, ch, ⟨hu, hc⟩, -⟩ := exec_next h
    simp only [select_ports, select_sel] at hu hc
    obtain ⟨r, hr, hv⟩ := exec_takes hu hc i o n
    obtain ⟨r', hr', hv'⟩ := exec_takes (hp.trans hu) hc i o n
    cases h.symm.trans hr
    cases h'.symm.trans hr'
    rw [hv', hv, hs', hs]

/-! ### The agents' steps -/

theorem portLocal_hostWrite (r : RegName) (v : Word) : PortLocal prm r.port fun s => hostWriteStep s r v := by
  refine portLocal_withChan fun u ch => ?_
  split
  · unfold issueStep
    split
    · exact portLocal_stay
    · split
      · exact portLocal_setPort _
      · exact portLocal_exec _ _ _ _
  · exact portLocal_setPort _

theorem portLocal_grant (c : Nat) (o : Bool) : PortLocal prm p fun s => grantStep s p c o := by
  refine portLocal_withChan fun u ch => ?_
  split
  · split
    · exact portLocal_exec _ _ _ _
    · exact portLocal_stay
  · exact portLocal_stay

theorem portLocal_sequencer (n : Nat) : PortLocal prm p fun s => portStep s p n := by
  refine portLocal_withPort fun u => ?_
  split
  · exact portLocal_stay
  · refine portLocal_withChan fun _ ch => ?_
    split
    · split
      · exact portLocal_exec _ _ _ _
      · exact portLocal_stay
    · exact portLocal_stay

theorem hostReadStep_ports {s t : State} {r : RegName} (h : hostReadStep s r = .next t) : t.ports = s.ports := by
  obtain ⟨u, ch, -, -, hk⟩ := withChan_next h
  cases hk
  rfl

/-- A step that is a step of port `p` is local to it. -/
theorem portLocal_actionStep {a : Action} (h : touchedPort prm a = some p) : PortLocal prm p (actionStep a) := by
  cases a with
  | hostRead | busRead | tick => cases h
  | hostWrite r v => cases h; exact portLocal_hostWrite r v
  | busWrite b v =>
    obtain ⟨r, hr, rfl⟩ := Option.map_eq_some_iff.1 h
    have hw := portLocal_hostWrite (prm := prm) r v
    have heq : ∀ s : State, s.params = prm → actionStep (.busWrite b v) s = hostWriteStep s r v := fun s hs => by
      simp only [actionStep, hs, hr]
    exact ⟨fun hs ht => hw.others hs (by rwa [← heq _ hs]),
      fun hs hs' hp ht ht' => hw.same hs hs' hp (by rwa [← heq _ hs]) (by rwa [← heq _ hs'])⟩
  | grant q c o => cases h; exact portLocal_grant c o
  | sequencer q n => cases h; exact portLocal_sequencer n
  | rx q b => cases h; exact portLocal_withPort fun u => portLocal_setPort _
  | txc q => cases h; exact portLocal_withPort fun u => portLocal_setPort _

/-- A step that is no tick and no port's step is a read, and changes no port. -/
theorem actionStep_ports_of_untouched {a : Action} {s t : State} (h : touchedPort s.params a = none) (ha : a ≠ .tick)
    (ht : actionStep a s = .next t) : t.ports = s.ports := by
  cases a with
  | hostRead r => exact hostReadStep_ports ht
  | busRead b =>
    simp only [actionStep] at ht
    split at ht
    · exact hostReadStep_ports ht
    · cases ht
  | busWrite b v =>
    have hr : resolve s.params b = none := Option.map_eq_none_iff.1 h
    simp only [actionStep, hr] at ht
    cases ht
  | tick => exact absurd rfl ha
  | hostWrite | grant | sequencer | rx | txc => cases h

/-- A step other than a tick leaves the ports it is not a step of as they are. -/
theorem actionStep_get_of_untouched {a : Action} {s t : State} {q : Nat} (hq : touchedPort s.params a ≠ some q)
    (ha : a ≠ .tick) (ht : actionStep a s = .next t) : t.ports[q]? = s.ports[q]? := by
  cases hp : touchedPort s.params a with
  | none => rw [actionStep_ports_of_untouched hp ha ht]
  | some p => exact (portLocal_actionStep hp).others rfl ht (by rintro rfl; exact hq hp)

/-- A step ends in the same port `p` from any two states that agree on it and on the parameters. -/
theorem actionStep_get_congr {a : Action} {s s' t t' : State} (hprm : s'.params = s.params)
    (hp : s'.ports[p]? = s.ports[p]?) (ht : actionStep a s = .next t) (ht' : actionStep a s' = .next t') :
    t'.ports[p]? = t.ports[p]? := by
  by_cases ha : a = .tick
  · subst ha
    cases ht; cases ht'
    simp only [tickStep_ports, List.getElem?_map, hp, hprm]
  · by_cases hq : touchedPort s.params a = some p
    · exact (portLocal_actionStep hq).same rfl hprm hp ht ht'
    · rw [actionStep_get_of_untouched hq ha ht, actionStep_get_of_untouched (hprm ▸ hq) ha ht', hp]

theorem actionStep_ports_length {a : Action} {s t : State} (ht : actionStep a s = .next t) :
    t.ports.length = s.ports.length := by
  obtain ⟨-, rfl⟩ | ⟨-, -, -, hports | ⟨p, u, u', -, -, hports⟩⟩ := actionStep_moves ht
  · exact List.length_map _
  · rw [hports]
  · rw [hports, List.length_set]

end

/-- Settles O49: a step that is no tick is local to the port it is a step of, and a tick acts on each port by itself. -/
theorem portsAreIndependent : Obligations.PortsAreIndependent := by
  refine ⟨fun s t h ha => ?_, fun s s' t t' p h h' hact hprm hp => ?_⟩
  · have ht := (step_next h).2
    refine ⟨(actionStep_ports_length ht).trans (by rw [afterChoice_ports]), fun q hq => ?_⟩
    rw [actionStep_get_of_untouched (by rwa [afterChoice_params]) ha ht, afterChoice_ports]
  · have ht' := (step_next h').2
    rw [hact] at ht'
    exact actionStep_get_congr (by simpa using hprm) (by simpa using hp) (step_next h).2 ht'

end Sys2Proof.Machine
end

section
/-! Proofs of the family 43_transaction_engine: the transaction that no byte ever answers, attempt by attempt. -/

namespace Sys2Proof.Machine

section
variable {prm : Params} {p c k m : Nat} {u v : Port} {ch ch' : Channel} {ps : PortState} {cfg : PortConfig}

/-! ### Ticks of a held port (43_transaction_engine.md R263) -/

/-- Port `u` has the record `cfg`, the port state `ps` and, at channel `c`, the record `ch`; its other channels may be
anything. -/
structure PortAt (u : Port) (cfg : PortConfig) (ps : PortState) (c : Nat) (ch : Channel) : Prop where
  cfg  : u.cfg = cfg
  ps   : u.ps = ps
  chan : u.chans[c]? = some ch

theorem HeldBy.keepAt (h : HeldBy u c ch) (hv : PortAt v cfg ps c ch') (hreq : SameRequest u.ps ps)
    (ha : ch'.phase = ch.phase) : HeldBy v c ch' :=
  h.keep (by rw [hv.ps]; exact hreq) hv.chan ha

theorem portTakes_tick : PortTakes prm p .tick u (tickPort prm u) := by
  rintro s rfl hu
  exact ⟨_, rfl, tickStep_get hu⟩

theorem tickPort_at (h : PortAt u cfg ps c ch) (hact : ch.phase = .active) :
    PortAt (tickPort prm u) cfg (tickPs prm cfg ps) c ch where
  cfg := h.cfg
  ps := by rw [tickPort_ps, h.cfg, h.ps]
  chan := by
    rw [tickPort_chans, List.getElem?_map, h.chan, Option.map_some, tickChannel_of_not_waiting (by simp [hact])]

/-- `k` ticks that the timer of a held port counts, none of them its last. -/
theorem portRun_ticks (h : PortAt u cfg ps c ch) (hact : ch.phase = .active)
    (hcount : ∀ j < k, tickPs prm cfg { ps with timer := ps.timer + j } = { ps with timer := ps.timer + j + 1 }) :
    ∃ v, PortRun prm p (List.replicate k .tick) u v ∧ PortAt v cfg { ps with timer := ps.timer + k } c ch := by
  induction k with
  | zero => exact ⟨u, .nil u, h⟩
  | succ k ih =>
    obtain ⟨v, hrun, hv⟩ := ih fun j hj => hcount j (Nat.lt_succ_of_lt hj)
    have hlast := tickPort_at (prm := prm) hv hact
    rw [hcount k (Nat.lt_succ_self k)] at hlast
    rw [List.replicate_succ']
    exact ⟨_, hrun.append portTakes_tick.run, hlast⟩

/-! ### One attempt without an answer (R249, R252, R253) -/

/-- The port state when the response timeout of `resp` ticks ends an attempt in which no byte came. -/
def silentPs (resp : Nat) (ps : PortState) : PortState :=
  { sentPs ps with timer := resp, timedOut := true, seq := .validating }

/-- The receive phase of an attempt that no byte answers ends with its `resp`-th tick. -/
theorem portRun_silence (h : PortAt u cfg (sentPs ps) c ch) (hact : ch.phase = .active) (hresp : 1 ≤ cfg.respTimeoutMs) :
    ∃ v, PortRun prm p (List.replicate cfg.respTimeoutMs .tick) u v ∧
      PortAt v cfg (silentPs cfg.respTimeoutMs ps) c ch := by
  obtain ⟨r, hr⟩ : ∃ r, cfg.respTimeoutMs = r + 1 := ⟨cfg.respTimeoutMs - 1, by omega⟩
  have htimer : (sentPs ps).timer = 0 := rfl
  obtain ⟨v, hrun, hv⟩ := portRun_ticks (prm := prm) (p := p) (k := r) h hact fun j hj => by
    rw [tickPs_awaiting rfl, if_neg (by dsimp only; omega)]
  have hlast := tickPort_at (prm := prm) hv hact
  rw [tickPs_awaiting rfl, if_pos (by dsimp only; omega)] at hlast
  rw [hr, List.replicate_succ']
  refine ⟨_, hrun.append portTakes_tick.run, hlast.cfg, hlast.ps.trans ?_, hlast.chan⟩
  simp [silentPs, htimer]

/-- An attempt without direction-enable that no byte answers: one write step, and it fails with TIMEOUT. -/
theorem portRun_silentAttempt (h : HeldBy u c ch) (hs : u.ps.seq = .sending) (hp : u.ps.txph = .start)
    (hde : u.cfg.dePresent = false) (hresp : 1 ≤ u.cfg.respTimeoutMs) :
    ∃ v, PortRun prm p (silentAttempt p u.ps.txlen u.cfg.respTimeoutMs) u v ∧
      PortAt v u.cfg (failAttempt .timeout (silentPs u.cfg.respTimeoutMs u.ps)) c (countAttempt ch) := by
  have hsent : PortAt (sentPort u c ch) u.cfg (sentPs u.ps) c (countAttempt ch) := ⟨rfl, rfl, putChan_get h.chan _⟩
  obtain ⟨v, hrun, hv⟩ := portRun_silence (prm := prm) (p := p) hsent h.active hresp
  have hvalidate := portTakes_sequencer (prm := prm) (p := p) (h.keepAt hv ⟨rfl, rfl, rfl, rfl, rfl⟩ rfl) 0
  have hto : v.ps.timedOut = true ∧ v.ps.rxlen = 0 := by rw [hv.ps]; exact ⟨rfl, rfl⟩
  rw [sequencerStep_validate (by rw [hv.ps]; rfl), validateStep_of_timeout hto] at hvalidate
  exact ⟨_, .cons (portTakes_write h hs hp hde) (hrun.append hvalidate.run),
    hv.cfg, congrArg (failAttempt .timeout) hv.ps, hv.chan⟩

/-! ### Between the attempts and after the last (R256, R258) -/

theorem failAttempt_of_budget (st : Status) (h : 0 < ps.retriesLeft) :
    failAttempt st ps = { ps with last := st, seq := .retryable, timer := 0 } := if_pos h

theorem failAttempt_of_no_budget (st : Status) (h : ps.retriesLeft = 0) :
    failAttempt st ps = { ps with last := st, seq := .fatal } := if_neg (by simp [h])

/-- The full backoff, and the retry step that opens the next attempt. -/
theorem portRun_backoff (h : HeldBy u c ch) (hs : u.ps.seq = .retryable) :
    ∃ v, PortRun prm p (List.replicate prm.retryBackoffMs .tick ++ [.sequencer p 0]) u v ∧
      PortAt v u.cfg { u.ps with timer := u.ps.timer + prm.retryBackoffMs, retriesLeft := u.ps.retriesLeft - 1,
                                 seq := .sending, txph := .start } c ch := by
  have hat : PortAt u u.cfg u.ps c ch := ⟨rfl, rfl, h.chan⟩
  obtain ⟨v, hrun, hv⟩ := portRun_ticks (prm := prm) (p := p) (k := prm.retryBackoffMs) hat h.active
    fun j _ => tickPs_retryable (by exact hs)
  have hretry := portTakes_sequencer (prm := prm) (p := p) (h.keepAt hv ⟨rfl, rfl, rfl, rfl, rfl⟩ rfl) 0
  have hpassed : prm.retryBackoffMs ≤ v.ps.timer := by rw [hv.ps]; exact Nat.le_add_left ..
  rw [sequencerStep_retry (by rw [hv.ps]; exact hs), retryStep, if_pos hpassed] at hretry
  refine ⟨_, hrun.append hretry.run, hv.cfg, ?_, hv.chan⟩
  rw [modPs_ps, hv.ps]

/-- The FATAL step frees the channel with the last attempt's status. -/
theorem portTakes_fatal (h : HeldBy u c ch) (hs : u.ps.seq = .fatal) :
    PortTakes prm p (.sequencer p 0) u ((u.putChan c (completeChannel u.ps.last ch)).modPs releaseLock) := by
  have hstep := portTakes_sequencer (prm := prm) (p := p) h 0
  rwa [sequencerStep_fatal hs, complete_owner h.chan h.owner] at hstep

/-! ### The whole transaction (R259) -/

theorem countAttempt_iterate (k : Nat) (ch : Channel) : ∃ w : Word, countAttempt^[k] ch = { ch with attempts := w } ∧
    w.toNat = min (ch.attempts.toNat + k) 0xFFFF := by
  induction k with
  | zero => exact ⟨ch.attempts, rfl, by have := ch.attempts.isLt; omega⟩
  | succ k ih =>
    obtain ⟨w, hw, hn⟩ := ih
    refine ⟨(countAttempt { ch with attempts := w }).attempts, ?_, ?_⟩
    · rw [Function.iterate_succ_apply', hw]; rfl
    · rw [countAttempt_toNat, hn]; omega

/-- From the start of an attempt with `m` retries left: `m + 1` write steps of the frame in TXBUF, then TIMEOUT. -/
theorem portRun_silentTransaction (h : HeldBy u c ch) (hs : u.ps.seq = .sending) (hp : u.ps.txph = .start)
    (hde : u.cfg.dePresent = false) (hresp : 1 ≤ u.cfg.respTimeoutMs) (hm : u.ps.retriesLeft = m) :
    ∃ v, PortRun prm p (silentTransaction p u.ps.txlen u.cfg.respTimeoutMs prm.retryBackoffMs m) u v ∧
      v.chans[c]? = some (completeChannel .timeout (countAttempt^[m + 1] ch)) ∧
      v.ps.txlog = u.ps.txlog ++ List.replicate (m + 1) (txFrame u.ps) ∧
      v.ps.owner = none ∧ v.ps.seq = .idle ∧ v.ps.retriesLeft = 0 := by
  induction m generalizing u ch with
  | zero =>
    obtain ⟨v, hrun, hv⟩ := portRun_silentAttempt (prm := prm) (p := p) h hs hp hde hresp
    rw [failAttempt_of_no_budget (ps := silentPs u.cfg.respTimeoutMs u.ps) .timeout hm] at hv
    have hheld := h.keepAt hv ⟨rfl, rfl, rfl, rfl, rfl⟩ rfl
    have hfatal := portTakes_fatal (prm := prm) (p := p) hheld (by rw [hv.ps])
    refine ⟨_, hrun.append hfatal.run, ?_, ?_, rfl, rfl, ?_⟩
    · rw [hv.ps]; exact putChan_get hv.chan _
    · rw [modPs_ps, putChan_ps, hv.ps]; rfl
    · rw [modPs_ps, putChan_ps, hv.ps]; exact hm
  | succ m ih =>
    obtain ⟨v, hrun, hv⟩ := portRun_silentAttempt (prm := prm) (p := p) h hs hp hde hresp
    have hbudget : 0 < (silentPs u.cfg.respTimeoutMs u.ps).retriesLeft := Nat.lt_of_lt_of_eq (Nat.succ_pos m) hm.symm
    rw [failAttempt_of_budget .timeout hbudget] at hv
    have hheld := h.keepAt hv ⟨rfl, rfl, rfl, rfl, rfl⟩ rfl
    obtain ⟨w, hback, hw⟩ := portRun_backoff (prm := prm) (p := p) hheld (by rw [hv.ps])
    rw [hv.cfg, hv.ps] at hw
    obtain ⟨x, hrest, hchan, hlog, hend⟩ := ih (h.keepAt hw ⟨rfl, rfl, rfl, rfl, rfl⟩ rfl) (by rw [hw.ps])
      (by rw [hw.ps]) (by rw [hw.cfg, hde]) (by rw [hw.cfg]; exact hresp)
      (by rw [hw.ps]; exact Nat.pred_eq_of_eq_succ hm)
    have hsame : w.ps.txlen = u.ps.txlen ∧ txFrame w.ps = txFrame u.ps ∧
        w.ps.txlog = u.ps.txlog ++ [txFrame u.ps] := by rw [hw.ps]; exact ⟨rfl, rfl, rfl⟩
    obtain ⟨hlen, hframe, hsent⟩ := hsame
    rw [hlen, hw.cfg] at hrest
    refine ⟨x, (hrun.append hback).append hrest, hchan, ?_, hend⟩
    rw [hlog, hsent, hframe, List.append_assoc]
    rfl

end

/-- Settles O56, by induction on the retries left. -/
theorem silentSlaveEndsInTimeout : Obligations.SilentSlaveEndsInTimeout := by
  intro s p c u ch hi hl hu ho hc hs hp hm hde hpending
  have hmem := List.mem_of_getElem? hu
  have ht := (hi u hmem).transaction c ch ho hc
  obtain ⟨v, hrun, hchan, hlog, hown, hidle, hretries⟩ := portRun_silentTransaction (prm := s.params) (p := p)
    (heldBy_of_inv (hi u hmem) ho hc) hs hp hde (cfgOk_of_legal hl hmem).resp hm
  obtain ⟨t, hsteps, hdone, hv⟩ :=
    hrun.runsTo_of_pending (rest := []) hl rfl hu (by rw [List.append_nil]; exact hpending)
  obtain ⟨w, hw, hn⟩ := countAttempt_iterate (u.cfg.maxRetries + 1) ch
  have hstart : ch.attempts.toNat = 0 := by
    rw [ht.attempts, if_pos ⟨hs, hp⟩, hm]; simp
  have hexc : ch.exc = 0 := ht.noExc (by simp [hs])
  rw [hw] at hchan
  rw [← hpending] at hsteps
  rw [ht.built] at hlog
  exact ⟨t, v, _, hsteps, hdone, hv, hchan, rfl, rfl, rfl, hexc, rfl, by rw [hstart, Nat.zero_add] at hn; exact hn, hlog,
    hown, hidle, hretries⟩

end Sys2Proof.Machine
end

section
/-! Proofs of the family 44_function_commands: how the Modbus commands complete. -/

namespace Sys2Proof.Machine

section
variable {s : State} {u : Port} {ch : Channel} {i : Instr} {req : Request} {rx : List Byte}

/-! ### The SUCCESS step (43_transaction_engine.md R255) -/

theorem sequencerStep_success (hs : u.ps.seq = .success) (prm : Params) (c n : Nat) :
    sequencerStep prm n u c = successStep u c := by
  simp only [sequencerStep, hs]

/-- A command in SUCCESS completes with OK, frees the lock and copies the payload of its response to DATA. -/
theorem exec_of_success (h : Running s u ch) (hm : i.isModbus = true) (hs : u.ps.seq = .success) :
    exec i s = .next (s.putPort
      ((u.putChan s.sel.chan
        (completeChannel .ok { ch with data := copyPayload u.ps.req (rxFrame u.ps) ch.data })).modPs releaseLock)) := by
  rw [exec_of_running h hm, sequencerStep_success hs]
  obtain ⟨⟨-, hchan⟩, -, howner⟩ := h
  rw [successStep_eq hchan howner]

/-! ### What an accepted response leaves in DATA (44_function_commands.md R283) -/

/-- Byte `k` of an accepted read response's payload follows address, function code and byte count on the line
(41_adu_codec.md R179, R181). -/
theorem byteAt_payload (hop : isRead req.op = true) (hparse : parse rx req = .ok) {k : Nat}
    (hk : k < readByteCount req) : byteAt (payload rx req.op) k = byteAt rx (3 + k) := by
  obtain ⟨-, -, hfields⟩ := parse_eq_ok_iff.1 hparse
  have hcount : (byteAt rx 2).toNat = readByteCount req := (hfields.read hop).2
  rw [payload, if_pos hop, hcount, byteAt_take hk, byteAt, List.getElem?_drop, byteAt]

/-- A register read stores the big-endian pairs of its response in the first words (R284, R285). -/
theorem copyPayload_registers (hop : req.op = 0x03 ∨ req.op = 0x04) (hparse : parse rx req = .ok) (d : DataBuffer)
    (j : Fin 125) : (copyPayload req rx d)[j] =
      if j.val < req.qty.toNat then join16 (byteAt rx (3 + 2 * j.val)) (byteAt rx (4 + 2 * j.val)) else d[j] := by
  have hread : isRead req.op = true := isRead_iff.2 (.inr hop)
  have hcount : readByteCount req = 2 * req.qty.toNat := readByteCount_registers hop
  rw [copyPayload, if_pos hop, storeRegisters_get]
  split
  · rw [byteAt_payload hread hparse (by omega), byteAt_payload hread hparse (by omega),
      show 3 + (2 * j.val + 1) = 4 + 2 * j.val by omega]
  · rfl

/-- A coil read stores the bytes of its response in the first bytes of the byte view (R288). -/
theorem dataByte_copyPayload_coils (hop : req.op = 0x01) (hparse : parse rx req = .ok) (d : DataBuffer) {k : Nat}
    (hk : k < 250) : dataByte (copyPayload req rx d) k =
      if k < (req.qty.toNat + 7) / 8 then byteAt rx (3 + k) else dataByte d k := by
  have hcount : readByteCount req = (req.qty.toNat + 7) / 8 := readByteCount_coils hop
  rw [copyPayload, if_neg (by rw [hop]; decide), if_pos hop, ceilDiv_eight, dataByte_storeBytes _ _ _ hk]
  split
  · exact byteAt_payload (isRead_iff.2 (.inl hop)) hparse (by omega)
  · rfl

/-- Bit `j` of the buffer, counted through its words, is the same bit counted through its bytes (10_state.md R53). -/
theorem getLsbD_word_eq_getLsbD_dataByte (d : DataBuffer) {j : Nat} (h : j / 16 < 125) :
    (d[j / 16]).getLsbD (j % 16) = (dataByte d (j / 8)).getLsbD (j % 8) := by
  have hword : j / 8 / 2 = j / 16 := Nat.div_div_eq_div_mul j 8 2
  have hbit : j % 8 < 8 := Nat.mod_lt j (by decide)
  rw [dataByte, hword, Vector.getElem?_eq_getElem h, Option.getD_some]
  split
  · rw [lo8, BitVec.getLsbD_extractLsb', show 0 + j % 8 = j % 16 by omega]; simp [hbit]
  · rw [hi8, BitVec.getLsbD_extractLsb', show 8 + j % 8 = j % 16 by omega]; simp [hbit]

end

/-- Settles O36: each word below the quantity is joined from its pair, so its halves are the pair's bytes. -/
theorem registerReadCompletes : Obligations.RegisterReadCompletes := by
  intro s u ch i h hs hi hop (hparse : parse (rxFrame u.ps) u.ps.req = .ok)
  have hm : i.isModbus = true := by obtain rfl | rfl := hi <;> rfl
  have hregs : u.ps.req.op = 0x03 ∨ u.ps.req.op = 0x04 := by
    obtain rfl | rfl := hi
    · exact .inl hop
    · exact .inr hop
  refine ⟨copyPayload u.ps.req (rxFrame u.ps) ch.data, exec_of_success h hm hs, fun j => ?_⟩
  rw [copyPayload_registers hregs hparse]
  refine ⟨fun hj => ?_, fun hj => if_neg (Nat.not_lt.2 hj)⟩
  rw [if_pos hj]
  exact ⟨hi8_join16 _ _, lo8_join16 _ _⟩

/-- Settles O37: a coil's bit of its word is its bit of the byte view, which took the response's byte. -/
theorem coilReadCompletes : Obligations.CoilReadCompletes := by
  intro s u ch h hs hop (hparse : parse (rxFrame u.ps) u.ps.req = .ok)
  have hbytes {k : Nat} (hk : k < 250) := dataByte_copyPayload_coils hop hparse ch.data hk
  refine ⟨copyPayload u.ps.req (rxFrame u.ps) ch.data, exec_of_success h rfl hs, fun _ => hbytes, fun j hw hj => ?_⟩
  rw [getLsbD_word_eq_getLsbD_dataByte _ hw, hbytes (by omega), if_pos (by omega)]
  rfl

/-- Settles O38: the payload of a write's response is not copied. -/
theorem writeCompletes : Obligations.WriteCompletes := by
  intro s u ch i h hs hi hop
  have hplain : i.isModbus = true ∧ isRead i.op = false := by obtain rfl | rfl | rfl | rfl := hi <;> decide
  obtain ⟨hm, hread⟩ := hplain
  rw [exec_of_success h hm hs, copyPayload_of_not_read (hop ▸ hread)]
  rfl

end Sys2Proof.Machine
end

section
/-! Proofs of the family 60_exceptions: what a step can do to a channel that is FREE, and how long a result stays. -/

namespace Sys2Proof.Machine

section
variable {prm : Params} {p c : Nat} {u u' : Port} {ch ch' : Channel} {i : Instr} {a : Action}

/-- A command's step leaves the record of every channel but its own. -/
theorem CommandStep.other_stays {sel : Selection} {x y : Channel} (h : CommandStep i sel u x u' y)
    (hne : c ≠ sel.chan) (hc : u.chans[c]? = some ch) (hc' : u'.chans[c]? = some ch') : ch' = ch := by
  rw [h.get_other hne, hc] at hc'
  exact (Option.some.inj hc').symm

/-- Two records of one port in different phases are those of different channels. -/
theorem ne_of_phase_ne {d : Nat} {x : Channel} (hc : u.chans[c]? = some ch) (hx : u.chans[d]? = some x)
    (hne : ch.phase ≠ x.phase) : c ≠ d := by
  rintro rfl
  exact hne (congrArg Channel.phase (Option.some.inj (hc.symm.trans hx)))

/-- A FREE channel is touched by host writes to its own registers alone (20_memory.md R85). -/
theorem agentStep_free_channel (hs : AgentStep prm p u a u') (hc : u.chans[c]? = some ch)
    (hc' : u'.chans[c]? = some ch') (hf : ch.phase = .free) :
    ch' = ch ∨ (∃ n v, ch' = writeReg ch n v) ∨ ∃ v, WritesReg prm a ⟨p, c, 0⟩ v := by
  have same {P : Prop} (e : u'.chans = u.chans) : ch' = ch ∨ P :=
    .inl (Option.some.inj (hc'.symm.trans (by rw [e, hc])))
  cases hs with
  | stay => exact same rfl
  | @operand _ d x n v _ hx _ =>
    by_cases hd : d = c
    · subst hd
      obtain rfl : ch = x := Option.some.inj (hc.symm.trans hx)
      rw [putChan_get hc] at hc'
      exact .inr (.inl ⟨n, v, (Option.some.inj hc').symm⟩)
    · rw [putChan_get_other hd, hc] at hc'
      exact .inl (Option.some.inj hc').symm
  | @illegal _ d x v _ ha hx hfx _ =>
    by_cases hd : c = d
    · exact .inr (.inr ⟨v, hd ▸ ha⟩)
    · exact .inl ((commandStep_rejected (i := .rc) (sel := selectionOf d 0) hx hfx v _).other_stays hd hc hc')
  | @issue _ d x v j ha hx hfx _ =>
    by_cases hd : c = d
    · exact .inr (.inr ⟨v, hd ▸ ha⟩)
    · obtain ⟨y, hstep⟩ := issueEffect_commandStep (i := j) (sel := selectionOf d 0) hx hfx
      exact .inl (hstep.other_stays hd hc hc')
  | @grant d o x j hx hw _ _ =>
    obtain ⟨y, hstep⟩ := grantEffect_commandStep (i := j) (sel := selectionOf d 0) hx hw o
    exact .inl (hstep.other_stays (ne_of_phase_ne hc hx (by simp [hf, hw])) hc hc')
  | @sequencer d n x hx hact hown =>
    obtain ⟨y, hstep⟩ := sequencerStep_commandStep (i := .rc) (prm := prm) (sel := selectionOf d n) hx hact hown
    exact .inl (hstep.other_stays (ne_of_phase_ne hc hx (by simp [hf, hact])) hc hc')
  | tick =>
    rw [tickPort_chans, List.getElem?_map, hc, Option.map_some, tickChannel_of_not_waiting (by simp [hf])] at hc'
    exact .inl (Option.some.inj hc').symm
  | rx => exact same (by unfold rxPort; split <;> rfl)
  | txc => exact same (by unfold txcPort; split <;> rfl)

/-- A host write to a register other than CMD leaves the result and the phase. -/
theorem writeReg_keeps_result (ch : Channel) (n : Byte) (v : Word) : (writeReg ch n v).done = ch.done ∧
    (writeReg ch n v).status = ch.status ∧ (writeReg ch n v).phase = ch.phase := by
  unfold writeReg
  split
  · exact ⟨rfl, rfl, rfl⟩
  · split <;> exact ⟨rfl, rfl, rfl⟩

/-- CSR shows DONE, STATUS and the phase, and nothing else (10_state.md R48). -/
theorem csr_congr (hd : ch'.done = ch.done) (hs : ch'.status = ch.status) (hp : ch'.phase = ch.phase) :
    ch'.csr = ch.csr := by
  simp only [Channel.csr, Channel.busy, hd, hs, hp]

/-- The result of a FREE channel stays over every step but a CMD write to it (60_exceptions.md R331). -/
theorem agentStep_keeps_result (hs : AgentStep prm p u a u') (hc : u.chans[c]? = some ch)
    (hc' : u'.chans[c]? = some ch') (hf : ch.phase = .free) (ha : ∀ v, ¬ WritesReg prm a ⟨p, c, 0⟩ v) :
    ch'.done = ch.done ∧ ch'.status = ch.status ∧ ch'.csr = ch.csr := by
  obtain rfl | ⟨n, v, rfl⟩ | ⟨v, hv⟩ := agentStep_free_channel hs hc hc' hf
  · exact ⟨rfl, rfl, rfl⟩
  · obtain ⟨hdone, hstatus, hphase⟩ := writeReg_keeps_result ch n v
    exact ⟨hdone, hstatus, csr_congr hdone hstatus hphase⟩
  · exact absurd hv (ha v)

/-- A channel that shows a result is FREE (70_reset_and_hazards.md R366). -/
theorem free_of_done (h : PortInv prm u) (hc : u.chans[c]? = some ch) (hd : ch.done = true) : ch.phase = .free := by
  by_contra hf
  obtain ⟨hd', -⟩ := (h.channels ch (List.mem_of_getElem? hc)).noResultYet hf
  rw [hd'] at hd; cases hd

/-- A channel that is found is one of a port that is found. -/
theorem port_of_chanAt {s : State} (h : s.chanAt p c = some ch) :
    ∃ u, s.ports[p]? = some u ∧ u.chans[c]? = some ch := Option.bind_eq_some_iff.1 h

end

/-- Settles O52: a channel with DONE set is FREE, and only a CMD write takes the result of a FREE channel. -/
theorem statusStaysUntilNextCommand : Obligations.StatusStaysUntilNextCommand := by
  intro s t p c ch ch' hi h hch hch' hd hhost hbus
  obtain ⟨u, hu, hc⟩ := port_of_chanAt hch
  obtain ⟨u', hu', hc'⟩ := port_of_chanAt hch'
  have hf := free_of_done (hi u (List.mem_of_getElem? hu)) hc hd
  have hno : ∀ v, ¬ WritesReg s.params s.nextAction ⟨p, c, 0⟩ v := by
    rintro v (ha | ⟨b, ha, hr⟩)
    · exact hhost v ha
    · exact hbus b v ha hr
  obtain ⟨hdone, hstatus, hcsr⟩ := agentStep_keeps_result (step_agentStep h hu hu') hc hc' hf hno
  exact ⟨hdone.trans hd, hstatus, hcsr⟩

end Sys2Proof.Machine
end

section
/-! Proofs of the family 60_exceptions: the transport, the line queue and the lock. What one step of an agent may do to
the three is said once, in `LockUse`. -/

namespace Sys2Proof.Machine

/-- Everything a step can do to a port's TXLOG, to its line queue and to the holder of its lock. -/
inductive LockUse (u u' : Port) : Prop where
  /-- Nothing is sent, nothing leaves the line, and a holder stays the holder. -/
  | keep (hlog : u'.ps.txlog = u.ps.txlog) (hline : u.env.lineRx <+: u'.env.lineRx)
      (hown : u.ps.owner = none ∨ u'.ps.owner = u.ps.owner)
  /-- The write step (43_transaction_engine.md R245). -/
  | write {c n : Nat} (hown : u.ps.owner = some c) (hown' : u'.ps.owner = some c) (hseq : u.ps.seq = .sending)
      (hph : u.ps.txph = .start) (hlog : u'.ps.txlog = u.ps.txlog ++ [(txFrame u.ps).take n])
      (hline : u'.env.lineRx = [])
  /-- The byte read step (R251). -/
  | read {c : Nat} {b : Byte} (hown : u.ps.owner = some c) (hown' : u'.ps.owner = some c)
      (hseq : u.ps.seq = .awaiting) (hlog : u'.ps.txlog = u.ps.txlog) (hline : u.env.lineRx = b :: u'.env.lineRx)
  /-- INIT and DEINIT on a free lock (42_transport_port.md R212, R214). -/
  | flush (hown : u.ps.owner = none) (hown' : u'.ps.owner = none) (hlog : u'.ps.txlog = u.ps.txlog)
      (hline : u'.env.lineRx = [])
  /-- The holder's command completes (60_exceptions.md R330). -/
  | complete {c : Nat} {ch' : Channel} (hown : u.ps.owner = some c) (hown' : u'.ps.owner = none)
      (hlog : u'.ps.txlog = u.ps.txlog) (hline : u'.env.lineRx = u.env.lineRx) (hc' : u'.chans[c]? = some ch')
      (hfree : ch'.phase = .free) (hdone : ch'.done = true)

section
variable {prm : Params} {p c : Nat} {u u' : Port} {ch x : Channel} {i : Instr} {a : Action}

/-! ### The steps, one by one -/

/-- A step that leaves the port state and the line. -/
theorem lockUse_of_same (hps : u'.ps = u.ps) (hline : u'.env.lineRx = u.env.lineRx) : LockUse u u' :=
  .keep (by rw [hps]) (by rw [hline]) (.inr (by rw [hps]))

/-- The issue step leaves the port to its holder, which is another channel. -/
theorem issueEffect_lockUse (hc : u.chans[c]? = some ch) (hf : ch.phase = .free) (hno : u.ps.owner ≠ some c) :
    LockUse u (issueEffect i u c ch) := by
  obtain ⟨y, hstep⟩ := issueEffect_commandStep (i := i) (sel := selectionOf c 0) hc hf
  exact lockUse_of_same (issueEffect_ps hno i).1 (hstep.line.resolve_right (by simp [hf]))

/-- A command that takes the lock and completes in the same step (42_transport_port.md R216), `v` being the port in
between, sends nothing; the line is left or flushed. -/
theorem lockUse_complete_acquired (hlock : u.ps.owner = none) (v : Port) (hown : v.ps.owner = some c)
    (hlog : v.ps.txlog = u.ps.txlog) (hline : v.env.lineRx = u.env.lineRx ∨ v.env.lineRx = []) (st : Status) :
    LockUse u (complete v c st) := by
  have hps : (complete v c st).ps = releaseLock v.ps := if_pos hown
  have hlog' : (complete v c st).ps.txlog = u.ps.txlog := by rw [hps]; exact hlog
  obtain hline | hline := hline
  · exact .keep hlog' (by rw [complete_env, hline]) (.inl hlock)
  · exact .flush hlock (by rw [hps]; rfl) hlog' hline

theorem grantEffect_lockUse (hlock : u.ps.owner = none) (o : Bool) : LockUse u (grantEffect i o u c ch) := by
  have finish := lockUse_complete_acquired (c := c) hlock
  cases i with
  | rc | rhr | rir | wsc | wsr | wmc | wmr =>
    simp only [grantEffect, grantModbus]
    split
    · exact .keep rfl List.prefix_rfl (.inl hlock)
    · exact finish (acquireLock u c) rfl rfl (.inl rfl) _
  | init =>
    simp only [grantEffect, grantInit]
    split
    · exact finish (acquireLock u c) rfl rfl (.inl rfl) _
    · split
      · exact finish (setInit true (callConfigure (acquireLock u c))) rfl rfl (.inr rfl) _
      · exact finish (callConfigure (acquireLock u c)) rfl rfl (.inl rfl) _
  | deinit =>
    simp only [grantEffect, grantDeinit]
    split
    · exact finish (setInit false (acquireLock u c)) rfl rfl (.inr rfl) _
    · exact finish (acquireLock u c) rfl rfl (.inl rfl) _
  | crc | crcchk => exact lockUse_of_same rfl rfl

/-- The completion of the lock's holder, `v` being the port with its payload copied. -/
theorem lockUse_complete_holder (hown : u.ps.owner = some c) (v : Port) (hps : v.ps = u.ps) (henv : v.env = u.env)
    (hc : v.chans[c]? = some x) (st : Status) : LockUse u (complete v c st) := by
  have hv : v.ps.owner = some c := by rw [hps, hown]
  rw [complete_owner hc hv]
  exact .complete hown rfl (by rw [← hps]; rfl) (by rw [← henv]; rfl) (putChan_get hc _) rfl rfl

theorem writeStep_lockUse (hown : u.ps.owner = some c) (hs : u.ps.seq = .sending) (hp : u.ps.txph = .start) (n : Nat) :
    LockUse u (writeStep n u c) :=
  .write hown ((writePs_sameRequest u.cfg _ u.ps).owner.trans hown) hs hp (writePs_frame u.cfg _ u.ps).2 rfl

theorem readBytePs_txlog (cap : Nat) (b : Byte) (ps : PortState) : (readBytePs cap b ps).txlog = ps.txlog := by
  obtain ⟨ps', rfl, ⟨-, e⟩ | ⟨-, e⟩⟩ := readBytePs_cases cap b ps <;> rw [e]

theorem byteReadStep_lockUse (hown : u.ps.owner = some c) (hs : u.ps.seq = .awaiting) :
    LockUse u (byteReadStep u) := by
  unfold byteReadStep
  split
  · exact lockUse_of_same rfl rfl
  · exact .read hown ((readBytePs_sameRequest _ _ u.ps).owner.trans hown) hs (readBytePs_txlog _ _ _) ‹_›

theorem failAttempt_lockUse (st : Status) : LockUse u (u.modPs (failAttempt st)) := by
  have hlog : (failAttempt st u.ps).txlog = u.ps.txlog := by
    obtain ⟨-, e⟩ | e := failAttempt_cases st u.ps <;> rw [e]
  exact .keep hlog List.prefix_rfl (.inr (failAttempt_sameRequest st u.ps).owner)

theorem validateStep_lockUse : LockUse u (validateStep u c) := by
  unfold validateStep
  split
  · exact failAttempt_lockUse _
  · split
    · exact .keep rfl List.prefix_rfl (.inr rfl)
    · exact .keep rfl List.prefix_rfl (.inr rfl)
    · exact failAttempt_lockUse _
    · exact failAttempt_lockUse _

theorem sequencerStep_lockUse (hc : u.chans[c]? = some ch) (hown : u.ps.owner = some c) (n : Nat) :
    LockUse u (sequencerStep prm n u c) := by
  unfold sequencerStep
  cases hs : u.ps.seq with
  | idle => exact lockUse_of_same rfl rfl
  | sending =>
    cases hp : u.ps.txph with
    | start => exact writeStep_lockUse hown hs hp n
    | wait => exact lockUse_of_same rfl rfl
  | awaiting => exact byteReadStep_lockUse hown hs
  | validating => exact validateStep_lockUse
  | success =>
    dsimp only [successStep]
    rw [modChan_eq_putChan hc]
    exact lockUse_complete_holder hown (u.putChan c _) rfl rfl (putChan_get hc _) _
  | retryable =>
    dsimp only [retryStep]
    split
    · exact .keep rfl List.prefix_rfl (.inr rfl)
    · exact lockUse_of_same rfl rfl
  | fatal => exact lockUse_complete_holder hown u rfl rfl hc _

theorem tickPs_txlog (prm : Params) (cfg : PortConfig) (ps : PortState) : (tickPs prm cfg ps).txlog = ps.txlog := by
  obtain e | ⟨-, -, e | ⟨-, e⟩⟩ | ⟨-, e | ⟨-, e⟩⟩ | ⟨-, e⟩ := tickPs_cases prm cfg ps <;>
    simp only [e, endTransmit_txlog]

/-- Every agent's step uses the lock in one of the five ways. -/
theorem agentStep_lockUse (h : PortInv prm u) (hs : AgentStep prm p u a u') : LockUse u u' := by
  cases hs with
  | stay => exact lockUse_of_same rfl rfl
  | operand => exact lockUse_of_same rfl rfl
  | illegal _ hc hf _ =>
    rw [issueRejected_eq hc (not_owner_of_not_active h hc (by simp [hf]))]
    exact lockUse_of_same rfl rfl
  | issue _ hc hf _ => exact issueEffect_lockUse hc hf (not_owner_of_not_active h hc (by simp [hf]))
  | grant _ _ hlock _ => exact grantEffect_lockUse hlock _
  | sequencer hc _ hown => exact sequencerStep_lockUse hc hown _
  | tick => exact .keep (tickPs_txlog prm u.cfg u.ps) List.prefix_rfl (.inr (tickPs_sameRequest prm u.cfg u.ps).owner)
  | rx b =>
    unfold rxPort
    split
    · exact .keep rfl (List.prefix_append _ _) (.inr rfl)
    · exact lockUse_of_same rfl rfl
  | txc =>
    unfold txcPort
    split
    · exact .keep rfl List.prefix_rfl (.inr rfl)
    · exact lockUse_of_same rfl rfl

/-! ### What each of the five ways means for the lock's holder (60_exceptions.md R349) -/

/-- Only the write step adds to TXLOG. -/
theorem LockUse.transmits (h : LockUse u u') (hne : u'.ps.txlog ≠ u.ps.txlog) :
    ∃ c n, u.ps.owner = some c ∧ u'.ps.owner = some c ∧ u.ps.seq = .sending ∧ u.ps.txph = .start ∧
      u'.ps.txlog = u.ps.txlog ++ [(u.ps.txbuf.take u.ps.txlen).take n] := by
  cases h with
  | keep hlog | read _ _ _ hlog | flush _ _ hlog | complete _ _ hlog => exact absurd hlog hne
  | write hown hown' hseq hph hlog => exact ⟨_, _, hown, hown', hseq, hph, hlog⟩

/-- In AWAITING only the byte read takes from the line. -/
theorem LockUse.receives (h : LockUse u u') (hi : PortInv prm u) (hs : u.ps.seq = .awaiting)
    (hne : ¬ u.env.lineRx <+: u'.env.lineRx) :
    ∃ c b, u.ps.owner = some c ∧ u'.ps.owner = some c ∧ u.env.lineRx = b :: u'.env.lineRx := by
  cases h with
  | keep _ hline => exact absurd hline hne
  | write _ _ hseq => simp [hs] at hseq
  | read hown hown' _ _ hline => exact ⟨_, _, hown, hown', hline⟩
  | flush hown => cases hs.symm.trans (hi.idleUnowned.2 hown)
  | complete _ _ _ hline => exact absurd (hline ▸ List.prefix_rfl) hne

/-- Elsewhere only the flushes take from the line, and they leave the lock as it is. -/
theorem LockUse.flushes (h : LockUse u u') (hs : u.ps.seq ≠ .awaiting) (hne : ¬ u.env.lineRx <+: u'.env.lineRx) :
    u'.env.lineRx = [] ∧ u'.ps.owner = u.ps.owner ∧
      ((∃ c, u.ps.owner = some c ∧ u.ps.seq = .sending ∧ u.ps.txph = .start) ∨ u.ps.owner = none) := by
  cases h with
  | keep _ hline => exact absurd hline hne
  | write hown hown' hseq hph _ hline => exact ⟨hline, hown'.trans hown.symm, .inl ⟨_, hown, hseq, hph⟩⟩
  | read _ _ hseq => exact absurd hseq hs
  | flush hown hown' _ hline => exact ⟨hline, hown'.trans hown.symm, .inr hown⟩
  | complete _ _ _ hline => exact absurd (hline ▸ List.prefix_rfl) hne

/-- A holder leaves the lock by its completion alone. -/
theorem LockUse.releases (h : LockUse u u') (hown : u.ps.owner = some c) (hne : u'.ps.owner ≠ some c) :
    u'.ps.owner = none ∧ ∃ ch', u'.chans[c]? = some ch' ∧ ch'.phase = .free ∧ ch'.done = true := by
  cases h with
  | keep _ _ hkeep =>
    obtain hnone | hsame := hkeep
    · simp [hown] at hnone
    · exact absurd (hsame.trans hown) hne
  | write hd hd' | read hd hd' => exact absurd (hd'.trans (hd.symm.trans hown)) hne
  | flush hnone => simp [hown] at hnone
  | complete hd hd' _ _ hc' hfree hdone =>
    obtain rfl := Option.some.inj (hd.symm.trans hown)
    exact ⟨hd', _, hc', hfree, hdone⟩

end

/-- Settles O50, from the five ways in which a step can use the lock. -/
theorem transmitOnlyUnderLock : Obligations.TransmitOnlyUnderLock := by
  intro s t p u u' hi h hu hu'
  have hinv := hi u (List.mem_of_getElem? hu)
  have huse := agentStep_lockUse hinv (step_agentStep h hu hu')
  exact ⟨huse.transmits, huse.receives hinv, huse.flushes, fun _ => huse.releases⟩

end Sys2Proof.Machine
end

section
/-! Proofs of the family 70_reset_and_hazards: the state after reset, and the stillness of a quiescent block. -/

namespace Sys2Proof.Machine

section
variable {prm : Params} {p c : Nat} {u u' : Port} {a : Action}

/-! ### The state after reset (70_reset_and_hazards.md R360) -/

theorem resetWith_get {cfg : Config} (hu : (State.resetWith cfg).ports[p]? = some u) :
    ∃ f, cfg.ports[p]? = some f ∧ u = Port.reset cfg.params.numChannels f := by
  obtain ⟨f, hf, rfl⟩ := Option.map_eq_some_iff.1 (List.getElem?_map.symm.trans hu)
  exact ⟨f, hf, rfl⟩

theorem reset_chan {n : Nat} {f : PortConfig} {ch : Channel} (hc : (Port.reset n f).chans[c]? = some ch) :
    ch = Channel.reset := List.eq_of_mem_replicate (List.mem_of_getElem? hc)

theorem channelReset_data (k : Fin 125) : Channel.reset.data[k] = 0 := by
  simp [Channel.reset, dataWords]

/-- At reset PSR reads 0 on every channel: no bit of it is set (10_state.md R57). -/
theorem psr_reset (c : Nat) : PortState.reset.psr c = 0 := by
  simp [PortState.psr, PortState.reset, Seq.code]

/-! ### A quiescent port (R379) -/

theorem owner_of_quiet (h : PortInv prm u) (hq : ∀ ch ∈ u.chans, ch.phase = .free) : u.ps.owner = none := by
  rw [Option.eq_none_iff_forall_ne_some]
  intro c ho
  obtain ⟨ch, hc, hact⟩ := (h.ownerIff c).1 ho
  cases (hq ch (List.mem_of_getElem? hc)).symm.trans hact

/-- A tick changes nothing of a port without a command. -/
theorem tickPort_of_quiet (h : PortInv prm u) (hq : ∀ ch ∈ u.chans, ch.phase = .free) : tickPort prm u = u := by
  have hps : tickPs prm u.cfg u.ps = u.ps := tickPs_untimed (.inl (h.idleUnowned.2 (owner_of_quiet h hq)))
  have hchans : u.chans.map (tickChannel prm) = u.chans :=
    (List.map_congr_left fun ch hch => tickChannel_of_not_waiting (by simp [hq ch hch])).trans (List.map_id _)
  simp only [tickPort, hps, hchans]

/-- Without a command and without a host write to it, a port takes a byte on its line if it is open, and nothing else
happens to it. -/
theorem agentStep_of_quiet (h : PortInv prm u) (hq : ∀ ch ∈ u.chans, ch.phase = .free)
    (ha : ∀ r v, ¬ WritesReg prm a r v) (hs : AgentStep prm p u a u') : u' = u ∨ ∃ b, u' = rxPort b u := by
  cases hs with
  | stay => exact .inl rfl
  | operand hw | illegal hw | issue hw => exact absurd hw (ha _ _)
  | grant hc hwait => cases (hq _ (List.mem_of_getElem? hc)).symm.trans hwait
  | sequencer hc hact => cases (hq _ (List.mem_of_getElem? hc)).symm.trans hact
  | tick => exact .inl (tickPort_of_quiet h hq)
  | rx b => exact .inr ⟨b, rfl⟩
  | txc =>
    have hidle := h.idleUnowned.2 (owner_of_quiet h hq)
    exact .inl (if_neg (by simp [hidle]))

end

/-- Settles O43: every port after reset is made of the reset records of R360. -/
theorem resetValues : Obligations.ResetValues := by
  intro cfg
  refine ⟨rfl, List.length_map _, fun p u hu => ?_⟩
  obtain ⟨f, hf, rfl⟩ := resetWith_get hu
  refine ⟨hf, List.length_replicate, rfl, rfl, rfl, rfl, rfl, rfl, rfl, rfl, rfl, rfl, rfl, rfl, rfl, rfl,
    fun j ch hc => ?_⟩
  obtain rfl := reset_chan hc
  exact ⟨rfl, rfl, rfl, rfl, rfl, channelReset_data, rfl, rfl, rfl, rfl, rfl, psr_reset j⟩

/-- Settles O54: without a command only an arriving byte changes a port, and a closed port loses it. -/
theorem quiescentBlockIsStill : Obligations.QuiescentBlockIsStill := by
  intro s t hi hq h hhost hbus
  refine ⟨(actionStep_ports_length (step_next h).2).trans (by rw [afterChoice_ports]), fun p u u' hu hu' => ?_⟩
  have hmem := List.mem_of_getElem? hu
  have hfree : ∀ ch ∈ u.chans, ch.phase = .free := fun ch hch => by simpa [Channel.busy] using hq u hmem ch hch
  have hno : ∀ r v, ¬ WritesReg s.params s.nextAction r v := by
    rintro r v (ha | ⟨b, ha, -⟩)
    · exact hhost r v ha
    · exact hbus b v ha
  obtain rfl | ⟨b, rfl⟩ := agentStep_of_quiet (hi u hmem) hfree hno (step_agentStep h hu hu')
  · exact ⟨rfl, rfl, rfl, rfl, fun hne => absurd rfl hne⟩
  · unfold rxPort
    split
    · exact ⟨rfl, rfl, rfl, rfl, fun _ => ‹_›⟩
    · exact ⟨rfl, rfl, rfl, rfl, fun hne => absurd rfl hne⟩

end Sys2Proof.Machine
end

section
/-! Proofs of the family 70_reset_and_hazards: the ticks of a wait and of a transaction. A run is read as the history of
one port and of one channel; a counter that every tick raises bounds a wait, and a potential that every counted tick
lowers bounds a transaction. -/

namespace Sys2Proof.Machine

/-! ### A run, seen from one port and from one channel -/

/-- `v m` is port `p`, and `prm` and `cfg` its parameters and its record, in the m-th state of the run `f` under the
schedule `a`, which starts in the invariant. -/
structure PortTrace (a : Nat → Action) (f : Nat → State) (p : Nat) (prm : Params) (cfg : PortConfig)
    (v : Nat → Port) : Prop where
  run    : IsRun a f
  params : ∀ m, (f m).params = prm
  get    : ∀ m, (f m).ports[p]? = some (v m)
  cfg    : ∀ m, (v m).cfg = cfg
  inv    : ∀ m, PortInv prm (v m)

/-- And `w m` is channel `c` of that port. -/
structure ChannelTrace (a : Nat → Action) (f : Nat → State) (p c : Nat) (prm : Params) (cfg : PortConfig)
    (v : Nat → Port) (w : Nat → Channel) : Prop extends PortTrace a f p prm cfg v where
  chan : ∀ m, (v m).chans[c]? = some (w m)

section
variable {a : Nat → Action} {f : Nat → State} {p c n : Nat} {prm : Params} {cfg : PortConfig} {v : Nat → Port}
  {w : Nat → Channel} {u : Port} {ch : Channel} {T : Nat}

theorem run_config (hr : IsRun a f) (m : Nat) : (f m).config = (f 0).config := by
  induction m with
  | zero => rfl
  | succ m ih => exact (step_config (hr m)).trans ih

theorem run_inv (hr : IsRun a f) (hi : Inv (f 0)) (m : Nat) : Inv (f m) := by
  induction m with
  | zero => exact hi
  | succ m ih => exact step_inv (s := { f m with pending := [a m] }) ih (hr m)

/-- A port of one state of a run is there in all of them, under one configuration (10_state.md R32). -/
theorem exists_portTrace (hr : IsRun a f) (hi : Inv (f 0)) (hu : (f n).ports[p]? = some u) :
    ∃ v, v n = u ∧ PortTrace a f p (f n).params u.cfg v := by
  have hconfig m : (f m).config = (f n).config := (run_config hr m).trans (run_config hr n).symm
  have hparams m : (f m).params = (f n).params := congrArg Config.params (hconfig m)
  have hport m : ∃ x, (f m).ports[p]? = some x ∧ x.cfg = u.cfg := by
    have hrecord : ((f m).ports.map Port.cfg)[p]? = ((f n).ports.map Port.cfg)[p]? :=
      congrArg (·.ports[p]?) (hconfig m)
    rw [List.getElem?_map, List.getElem?_map, hu] at hrecord
    exact Option.map_eq_some_iff.1 hrecord
  choose v hget hcfg using hport
  exact ⟨v, Option.some.inj ((hget n).symm.trans hu), hr, hparams, hget, hcfg,
    fun m => hparams m ▸ run_inv hr hi m _ (List.mem_of_getElem? (hget m))⟩

/-- A channel of the port in one state is there in all of them. -/
theorem PortTrace.exists_channelTrace (h : PortTrace a f p prm cfg v) (hc : (v n).chans[c]? = some ch) :
    ∃ w, w n = ch ∧ ChannelTrace a f p c prm cfg v w := by
  have hlt : c < prm.numChannels := (h.inv n).chanCount ▸ (List.getElem?_eq_some_iff.1 hc).1
  have hchan m : ∃ x, (v m).chans[c]? = some x := by
    rw [← (h.inv m).chanCount] at hlt
    exact ⟨_, List.getElem?_eq_getElem hlt⟩
  choose w hw using hchan
  exact ⟨w, Option.some.inj ((hw n).symm.trans hc), h, hw⟩

theorem PortTrace.eq_of_get (h : PortTrace a f p prm cfg v) {m : Nat} (hu : (f m).ports[p]? = some u) : u = v m :=
  Option.some.inj (hu.symm.trans (h.get m))

theorem PortTrace.actionStep_next (h : PortTrace a f p prm cfg v) (m : Nat) :
    actionStep (a m) { f m with pending := [] } = .next (f (m + 1)) := (step_next (h.run m)).2

theorem PortTrace.agentStep (h : PortTrace a f p prm cfg v) (m : Nat) :
    AgentStep prm p (v m) (a m) (v (m + 1)) :=
  h.params m ▸ actionStep_agentSteps (h.actionStep_next m) p _ _ (h.get m) (h.get (m + 1))

theorem PortTrace.moved (h : PortTrace a f p prm cfg v) (m : Nat) :
    (a m = .tick ∧ v (m + 1) = tickPort prm (v m)) ∨ (a m ≠ .tick ∧ PortMove prm (v m) (v (m + 1))) := by
  obtain ⟨-, x, hx, hmove⟩ := step_port (h.run m) (h.get m)
  obtain rfl := h.eq_of_get hx
  rwa [h.params m] at hmove

theorem ChannelTrace.phaseAt_eq (h : ChannelTrace a f p c prm cfg v w) (m : Nat) :
    (f m).phaseAt p c = some (w m).phase := by
  rw [State.phaseAt, chanAt_of_port (h.get m), h.chan m, Option.map_some]

theorem ChannelTrace.phaseAt_iff (h : ChannelTrace a f p c prm cfg v w) (m : Nat) (ph : Phase) :
    (f m).phaseAt p c = some ph ↔ (w m).phase = ph := by rw [h.phaseAt_eq, Option.some.injEq]

theorem ChannelTrace.owner (h : ChannelTrace a f p c prm cfg v w) {m : Nat} (hact : (w m).phase = .active) :
    (v m).ps.owner = some c := ((h.inv m).ownerIff c).2 ⟨_, h.chan m, hact⟩

theorem ChannelTrace.countsFor_waiting (h : ChannelTrace a f p c prm cfg v w) {m : Nat}
    (hw : (w m).phase = .waitLock) : countsFor (f m) p c = true := by
  simp only [countsFor, h.get m, h.phaseAt_eq, hw]

theorem ChannelTrace.countsFor_active (h : ChannelTrace a f p c prm cfg v w) {m : Nat}
    (hact : (w m).phase = .active) : countsFor (f m) p c = countsTick prm (v m) := by
  simp only [countsFor, h.get m, h.phaseAt_eq, hact, h.params m]

/-! ### What a tick does to a wait -/

theorem tickPort_chan (hc : u.chans[c]? = some ch) : (tickPort prm u).chans[c]? = some (tickChannel prm ch) := by
  rw [tickPort_chans, List.getElem?_map, hc, Option.map_some]

/-- A lock wait that goes on counts its ticks (43_transaction_engine.md R238). -/
theorem ChannelTrace.wait_succ (h : ChannelTrace a f p c prm cfg v w) {m : Nat} (hw : (w m).phase = .waitLock)
    (hw' : (w (m + 1)).phase = .waitLock) : (w (m + 1)).wait = (w m).wait + if a m = .tick then 1 else 0 := by
  obtain ⟨ha, hv⟩ | ⟨ha, hmove⟩ := h.moved m
  · have hnext : w (m + 1) = tickChannel prm (w m) :=
      Option.some.inj ((h.chan (m + 1)).symm.trans (hv ▸ tickPort_chan (h.chan m)))
    rw [if_pos ha, hnext]
    obtain ⟨hno, -⟩ | ⟨-, e | ⟨-, e⟩⟩ := tickChannel_cases prm (w m)
    · exact absurd hw hno
    · rw [hnext, e] at hw'; cases hw'
    · rw [e]
  · rw [if_neg ha]
    exact move_wait hmove (h.chan m) (h.chan (m + 1)) hw hw'

/-- A lock wait is below its bound (R239). -/
theorem ChannelTrace.wait_lt (h : ChannelTrace a f p c prm cfg v w) {m L : Nat} (hL : prm.lockWaitMs = some L)
    (hw : (w m).phase = .waitLock) : (w m).wait < L := by
  have := ((h.inv m).channels _ (List.mem_of_getElem? (h.chan m))).waitBound hw
  simpa [hL, reached] using this

/-- A wait of the port's timer that goes on counts its ticks (R248, R252). -/
theorem PortTrace.timer_succ (h : PortTrace a f p prm cfg v) {m : Nat}
    (hs : ((v m).ps.seq = .awaiting ∧ (v (m + 1)).ps.seq = .awaiting) ∨
      (((v m).ps.seq = .sending ∧ (v m).ps.txph = .wait) ∧
        ((v (m + 1)).ps.seq = .sending ∧ (v (m + 1)).ps.txph = .wait))) :
    (v (m + 1)).ps.timer = (v m).ps.timer + if a m = .tick then 1 else 0 := by
  obtain ⟨ha, hv⟩ | ⟨ha, hmove⟩ := h.moved m
  · rw [if_pos ha]
    rw [hv] at hs ⊢
    obtain ⟨hawait, htransmit⟩ := tick_timer (prm := prm) (u := v m)
    obtain ⟨hs, hs'⟩ | ⟨⟨hs, hp⟩, hs', hp'⟩ := hs
    · exact hawait hs hs'
    · exact htransmit hs hp hs' hp'
  · rw [if_neg ha]
    obtain ⟨hawait, htransmit⟩ := move_timer (h.inv m) hmove
    obtain ⟨hs, hs'⟩ | ⟨⟨hs, hp⟩, hs', hp'⟩ := hs
    · exact hawait hs hs'
    · exact htransmit hs hp hs' hp'

/-! ### The potential of a transaction -/

/-- A potential that every counted tick lowers, and no step raises, bounds the ticks counted. -/
theorem ticksWhere_add_le_of_potential {q : Nat → Bool} (g : Nat → Nat) (k : Nat)
    (h : ∀ j, j < k → g (n + j + 1) + (if a (n + j) = .tick ∧ q (n + j) = true then 1 else 0) ≤ g (n + j)) :
    ticksWhere a q n k + g (n + k) ≤ g n := by
  induction k with
  | zero => exact Nat.le_of_eq (Nat.zero_add _)
  | succ k ih =>
    have hsum := ih fun j hj => h j (by omega)
    have hlast := h k (by omega)
    rw [ticksWhere_succ, ← Nat.add_assoc n k 1]
    omega

/-- Over one step of a held port, the ticks left to its transaction lose the tick that counts, and gain nothing. -/
theorem PortTrace.ticksLeft_succ (h : PortTrace a f p prm cfg v) (hd : TxcBound prm T (v m))
    (ho : (v m).ps.owner ≠ none) :
    ticksLeft prm T (v (m + 1)) + (if a m = .tick ∧ countsTick prm (v m) = true then 1 else 0) ≤
      ticksLeft prm T (v m) := by
  obtain ⟨ha, hv⟩ | ⟨ha, hmove⟩ := h.moved m
  · simpa only [ha, hv, true_and] using ticksLeft_tick (h.inv m) hd
  · rw [if_neg fun hcount => ha hcount.1]
    exact (ticksLeft_move (h.inv m) ho hmove).1

/-! ### The bounds (70_reset_and_hazards.md R376) -/

/-- A stretch over which the phase of channel `c` is named is empty, or the channel exists. -/
theorem PortTrace.channelTrace_of_phaseAt (h : PortTrace a f p prm cfg v) {ph : Phase} {k : Nat}
    (hp : ∀ j, j < k → (f (n + j)).phaseAt p c = some ph) :
    k = 0 ∨ ∃ w, ChannelTrace a f p c prm cfg v w ∧ ∀ j, j < k → (w (n + j)).phase = ph := by
  obtain rfl | hk := Nat.eq_zero_or_pos k
  · exact .inl rfl
  · obtain ⟨ch, hc, -⟩ := Option.map_eq_some_iff.1 (hp 0 hk)
    rw [chanAt_of_port (h.get _)] at hc
    obtain ⟨w, -, ht⟩ := h.exists_channelTrace hc
    exact .inr ⟨w, ht, fun j hj => (ht.phaseAt_iff _ _).1 (hp j hj)⟩

theorem ChannelTrace.lockWait_le (h : ChannelTrace a f p c prm cfg v w) {k L : Nat} (hL : prm.lockWaitMs = some L)
    (hw : ∀ j, j < k → (w (n + j)).phase = .waitLock) : ticksWhere a (fun _ => true) n k ≤ L :=
  ticksWhere_le_of_counter (fun m => (w m).wait) n L k (fun j hj => h.wait_lt hL (hw j hj))
    fun j hj => (h.wait_succ (hw j (by omega)) (hw (j + 1) hj)).ge

theorem PortTrace.txWait_le (h : PortTrace a f p prm cfg v) {k : Nat} (hT : prm.txcTimeoutMs = some T)
    (hs : ∀ j, j < k → (v (n + j)).ps.seq = .sending ∧ (v (n + j)).ps.txph = .wait) :
    ticksWhere a (fun _ => true) n k ≤ T := by
  refine ticksWhere_le_of_counter (fun m => (v m).ps.timer) n T k (fun j hj => ?_) fun j hj =>
    (h.timer_succ (.inr ⟨hs j (by omega), hs (j + 1) hj⟩)).ge
  obtain ⟨hseq, hph⟩ := hs j hj
  simpa [hT, reached] using (h.inv (n + j)).txcTimer hseq hph

theorem PortTrace.awaiting_le (h : PortTrace a f p prm cfg v) {k : Nat}
    (hs : ∀ j, j < k → (v (n + j)).ps.seq = .awaiting) :
    ticksWhere a (fun _ => true) n k ≤ cfg.respTimeoutMs :=
  ticksWhere_le_of_counter (fun m => (v m).ps.timer) n cfg.respTimeoutMs k
    (fun j hj => h.cfg (n + j) ▸ (h.inv (n + j)).respTimer (hs j hj))
    fun j hj => (h.timer_succ (.inl ⟨hs j (by omega), hs (j + 1) hj⟩)).ge

theorem ChannelTrace.transaction_le (h : ChannelTrace a f p c prm cfg v w) {k : Nat}
    (hd : cfg.dePresent = false ∨ prm.txcTimeoutMs = some T) (hact : ∀ j, j < k → (w (n + j)).phase = .active) :
    ticksWhere a (fun m => countsFor (f m) p c) n k ≤ transactionTicks prm cfg T := by
  cases k with
  | zero => exact Nat.zero_le _
  | succ k =>
    have howner j (hj : j < k + 1) : (v (n + j)).ps.owner ≠ none := by simp [h.owner (hact j hj)]
    have hpotential := ticksWhere_add_le_of_potential (a := a) (q := fun m => countsFor (f m) p c)
      (fun m => ticksLeft prm T (v m)) (n := n) (k + 1) fun j hj => by
        rw [h.countsFor_active (hact j hj)]
        exact h.ticksLeft_succ (by rwa [TxcBound, h.cfg]) (howner j hj)
    have hbound := ticksLeft_le (T := T) (h.inv n) (howner 0 (by omega))
    rw [h.cfg n] at hbound
    omega

/-- Where no internal step is enabled at a tick, the tick counts. -/
theorem ChannelTrace.ticksWhere_eq (h : ChannelTrace a f p c prm cfg v w) {k : Nat}
    (hact : ∀ j, j < k → (w (n + j)).phase = .active)
    (hfirst : ∀ j, j < k → a (n + j) = .tick → ¬ sequencerEnabled prm (v (n + j))) :
    ticksWhere a (fun _ => true) n k = ticksWhere a (fun m => countsFor (f m) p c) n k := by
  refine ticksWhere_congr _ _ n k fun j hj ha => ?_
  have howner := h.owner (hact j hj)
  rw [h.countsFor_active (hact j hj)]
  exact ((countsTick_or_enabled (h.inv (n + j)) (by simp [howner])).resolve_right (hfirst j hj ha)).symm

end

/-- Settles O59: WAIT and the port's timer count the ticks of the waits, and `ticksLeft` bounds a transaction's. -/
theorem ticksWithinBounds : Obligations.TicksWithinBounds := by
  intro a f hr hi n k p c u hu
  obtain ⟨v, rfl, h⟩ := exists_portTrace hr hi hu
  refine ⟨fun L hL hw => ?lock, fun hs hp => ((h.inv n).waitingDe hs hp).1,
    fun T hT hs => h.txWait_le hT fun j hj => ?tx, fun hs => h.awaiting_le fun j hj => ?rx, fun T hd hact => ?transaction⟩
  case lock =>
    obtain rfl | ⟨w, ht, hw⟩ := h.channelTrace_of_phaseAt hw
    · exact Nat.zero_le _
    · exact ht.lockWait_le hL hw
  case tx =>
    obtain ⟨x, hx, hs⟩ := hs j hj
    rwa [h.eq_of_get hx] at hs
  case rx =>
    obtain ⟨x, hx, hs⟩ := hs j hj
    rwa [h.eq_of_get hx] at hs
  case transaction =>
    obtain rfl | ⟨w, ht, hact⟩ := h.channelTrace_of_phaseAt hact
    · exact ⟨Nat.zero_le _, fun _ => Nat.zero_le _⟩
    · have hcounted := ht.transaction_le hd hact
      refine ⟨hcounted, fun hfirst => (ht.ticksWhere_eq hact fun j hj ha => ?_).trans_le hcounted⟩
      rw [← h.params (n + j)]
      exact hfirst j _ hj ha (h.get _)

end Sys2Proof.Machine
end

section
/-! Proofs of the family 70_reset_and_hazards: every command completes. A command leaves its wait and its transaction in
one direction only; the ticks left to it (`commandTicksLeft`) and then the sequencer steps left (`stepsLeft`) cannot
fall for ever. -/

namespace Sys2Proof.Machine

section
variable {prm : Params} {p c : Nat} {u u' : Port} {ch ch' : Channel} {act : Action} {i : Instr}

/-! ### The phases of a command, over one step (10_state.md R58) -/

/-- An ACTIVE channel stays ACTIVE or is freed. -/
theorem agentStep_active (h : PortInv prm u) (h' : PortInv prm u') (hs : AgentStep prm p u act u')
    (hc : u.chans[c]? = some ch) (hc' : u'.chans[c]? = some ch') (hact : ch.phase = .active) :
    ch'.phase = .active ∨ ch'.phase = .free := by
  have ho : u.ps.owner = some c := (h.ownerIff c).2 ⟨ch, hc, hact⟩
  by_cases ho' : u'.ps.owner = some c
  · exact .inl (active_of_owner h' ho' hc')
  · obtain ⟨-, x, hx, hfree, -⟩ := (agentStep_lockUse h hs).releases ho ho'
    obtain rfl := Option.some.inj (hx.symm.trans hc')
    exact .inr hfree

/-- A command's step that frees a busy channel is a step of that channel, and completes it. -/
theorem CommandStep.done_of_freed {sel : Selection} {x y : Channel} (h : CommandStep i sel u x u' y)
    (hx : u.chans[sel.chan]? = some x) (hc : u.chans[c]? = some ch) (hc' : u'.chans[c]? = some ch')
    (hbusy : ch.phase ≠ .free) (hfree : ch'.phase = .free) : ch'.done = true := by
  by_cases hd : c = sel.chan
  · subst hd
    obtain rfl := Option.some.inj (hx.symm.trans hc)
    obtain rfl := Option.some.inj ((h.get_self hx).symm.trans hc')
    exact ((h.released hfree).resolve_left hbusy).1
  · rw [h.other_stays hd hc hc'] at hfree
    exact absurd hfree hbusy

/-- A channel that is BUSY and then is not has completed (60_exceptions.md R330). -/
theorem agentStep_done_of_freed (hs : AgentStep prm p u act u') (hc : u.chans[c]? = some ch)
    (hc' : u'.chans[c]? = some ch') (hbusy : ch.phase ≠ .free) (hfree : ch'.phase = .free) : ch'.done = true := by
  have same {P : Prop} (e : u'.chans = u.chans) : P := by
    obtain rfl := Option.some.inj (hc'.symm.trans (by rw [e, hc]))
    exact absurd hfree hbusy
  cases hs with
  | stay => exact same rfl
  | @operand _ d x n v _ hx _ =>
    refine absurd ?_ hbusy
    by_cases hd : d = c
    · subst hd
      obtain rfl : ch = x := Option.some.inj (hc.symm.trans hx)
      rw [putChan_get hc, writeReg_busy hbusy] at hc'
      rwa [Option.some.inj hc']
    · rw [putChan_get_other hd, hc] at hc'
      rwa [Option.some.inj hc']
  | @illegal _ d x v _ _ hx hf _ =>
    exact (commandStep_rejected (i := .rc) (sel := selectionOf d 0) hx hf v _).done_of_freed hx hc hc' hbusy hfree
  | @issue _ d x v j _ hx hf _ =>
    obtain ⟨y, hstep⟩ := issueEffect_commandStep (i := j) (sel := selectionOf d 0) hx hf
    exact hstep.done_of_freed hx hc hc' hbusy hfree
  | @grant d o x j hx hw _ _ =>
    obtain ⟨y, hstep⟩ := grantEffect_commandStep (i := j) (sel := selectionOf d 0) hx hw o
    exact hstep.done_of_freed hx hc hc' hbusy hfree
  | @sequencer d n x hx hact hown =>
    obtain ⟨y, hstep⟩ := sequencerStep_commandStep (i := .rc) (prm := prm) (sel := selectionOf d n) hx hact hown
    exact hstep.done_of_freed hx hc hc' hbusy hfree
  | tick =>
    obtain rfl := Option.some.inj (hc'.symm.trans (tickPort_chan hc))
    obtain ⟨-, e⟩ | ⟨hw, e | ⟨-, e⟩⟩ := tickChannel_cases prm ch <;> rw [e] at hfree ⊢
    · exact absurd hfree hbusy
    · rfl
    · exact absurd hfree hbusy
  | rx => exact same (by unfold rxPort; split <;> rfl)
  | txc => exact same (by unfold txcPort; split <;> rfl)

/-! ### The steps of a held port -/

/-- What an agent can do to a held port: leave its port state, taking no byte from the line; take its sequencer's step;
tick; or end TX_WAIT. -/
theorem agentStep_held (h : PortInv prm u) (ho : u.ps.owner ≠ none) (hs : AgentStep prm p u act u') :
    (u'.ps = u.ps ∧ u.env.lineRx <+: u'.env.lineRx) ∨
      (∃ c k, u.ps.owner = some c ∧ act = .sequencer p k ∧ u' = sequencerStep prm k u c) ∨ u' = tickPort prm u ∨
      (u.ps.seq = .sending ∧ u.ps.txph = .wait ∧ u' = u.modPs endTransmit) := by
  cases hs with
  | stay | operand => exact .inl ⟨rfl, List.prefix_rfl⟩
  | illegal _ hc hf _ =>
    rw [issueRejected_eq hc (not_owner_of_not_active h hc (by simp [hf]))]
    exact .inl ⟨rfl, List.prefix_rfl⟩
  | @issue _ d _ _ j _ hc hf _ =>
    obtain ⟨y, hstep⟩ := issueEffect_commandStep (i := j) (sel := selectionOf d 0) hc hf
    have hline := hstep.line.resolve_right (by simp [hf])
    exact .inl ⟨(issueEffect_ps (not_owner_of_not_active h hc (by simp [hf])) _).1, hline ▸ List.prefix_rfl⟩
  | grant _ _ hlock _ => exact absurd hlock ho
  | sequencer _ _ hown => exact .inr (.inl ⟨_, _, hown, rfl, rfl⟩)
  | tick => exact .inr (.inr (.inl rfl))
  | rx b =>
    unfold rxPort
    split
    · exact .inl ⟨rfl, List.prefix_append _ _⟩
    · exact .inl ⟨rfl, List.prefix_rfl⟩
  | txc =>
    unfold txcPort
    split
    · rename_i hen
      exact .inr (.inr (.inr ⟨hen.1, hen.2.1, rfl⟩))
    · exact .inl ⟨rfl, List.prefix_rfl⟩

/-! ### What stays enabled -/

theorem sequencerEnabled_tickPort (h : sequencerEnabled prm u) : sequencerEnabled prm (tickPort prm u) := by
  unfold sequencerEnabled at h ⊢
  rw [tickPort_ps]
  obtain e | ⟨hs, hp, -⟩ | ⟨hs, e | ⟨-, e⟩⟩ | ⟨hs, e⟩ := tickPs_cases prm u.cfg u.ps
  · rw [e]; exact h
  · rw [hs] at h
    cases h.symm.trans hp
  · rw [e]; trivial
  · rw [e]
    dsimp only
    rwa [hs] at h ⊢
  · rw [e]
    dsimp only
    rw [hs] at h ⊢
    exact Nat.le_succ_of_le h

/-- Only the sequencer's own step disables it (70_reset_and_hazards.md R378). -/
theorem sequencerEnabled_agentStep (h : PortInv prm u) (hs : AgentStep prm p u act u')
    (hno : ∀ k, act ≠ .sequencer p k) (hen : sequencerEnabled prm u) : sequencerEnabled prm u' := by
  have ho : u.ps.owner ≠ none := fun ho => by simp [sequencerEnabled, h.idleUnowned.2 ho] at hen
  obtain ⟨hps, hline⟩ | ⟨-, k, -, ha, -⟩ | rfl | ⟨hseq, hph, -⟩ := agentStep_held h ho hs
  · unfold sequencerEnabled at hen ⊢
    rw [hps]
    cases hseq : u.ps.seq with
    | awaiting =>
      rw [hseq] at hen
      exact fun e => hen (List.prefix_nil.1 (e ▸ hline))
    | idle | sending | validating | success | retryable | fatal => rwa [hseq] at hen
  · exact absurd ha (hno k)
  · exact sequencerEnabled_tickPort hen
  · simp [sequencerEnabled, hseq, hph] at hen

/-! ### The sequencer steps left to a transaction -/

/-- The sequencer steps of one attempt: the write, a read for each byte of the buffer, the validation, and the step that
follows it. -/
def attemptSteps (cfg : PortConfig) : Nat := cfg.rxBufCap + 3

/-- How many sequencer steps can still be made for the transaction of port `u`. -/
def stepsLeft (u : Port) : Nat :=
  match u.ps.seq with
  | .idle => 0
  | .sending =>
    (match u.ps.txph with | .start => attemptSteps u.cfg | .wait => u.cfg.rxBufCap + 2) +
      u.ps.retriesLeft * attemptSteps u.cfg
  | .awaiting => (u.cfg.rxBufCap - u.ps.rxlen) + 2 + u.ps.retriesLeft * attemptSteps u.cfg
  | .validating => 2 + u.ps.retriesLeft * attemptSteps u.cfg
  | .success => 1
  | .retryable => 1 + u.ps.retriesLeft * attemptSteps u.cfg
  | .fatal => 1

theorem stepsLeft_congr (hps : u'.ps = u.ps) (hcfg : u'.cfg = u.cfg) : stepsLeft u' = stepsLeft u := by
  simp only [stepsLeft, hps, hcfg]

theorem stepsLeft_tickPort_le : stepsLeft (tickPort prm u) ≤ stepsLeft u := by
  simp only [stepsLeft, tickPort_ps, tickPort_cfg]
  obtain e | ⟨hs, hp, e | ⟨-, e⟩⟩ | ⟨hs, e | ⟨-, e⟩⟩ | ⟨hs, e⟩ := tickPs_cases prm u.cfg u.ps
  · rw [e]
  · simp [e, hs, hp]
  · simp [e, hs, hp]
  · simp [e, hs]
  · simp [e, hs]
  · simp [e, hs]

theorem stepsLeft_endTransmit_le (hs : u.ps.seq = .sending) (hp : u.ps.txph = .wait) :
    stepsLeft (u.modPs endTransmit) ≤ stepsLeft u := by
  simp [stepsLeft, hs, hp]

theorem stepsLeft_writeStep_lt (hs : u.ps.seq = .sending) (hp : u.ps.txph = .start) (k c : Nat) :
    stepsLeft (writeStep k u c) < stepsLeft u := by
  have hps : (writeStep k u c).ps = writePs u.cfg (min k u.ps.txlen) u.ps := rfl
  have hcfg : (writeStep k u c).cfg = u.cfg := rfl
  obtain ⟨log, e | ⟨-, e⟩ | ⟨-, e⟩⟩ := writePs_cases u.cfg (min k u.ps.txlen) u.ps <;>
    simp only [stepsLeft, hps, hcfg, e, hs, hp, attemptSteps, enterAwaiting] <;> omega

theorem stepsLeft_byteReadStep_lt (h : PortInv prm u) (hs : u.ps.seq = .awaiting) (hline : u.env.lineRx ≠ []) :
    stepsLeft (byteReadStep u) < stepsLeft u := by
  obtain ⟨hroom, -⟩ := h.awaitingRoom hs
  obtain ⟨b, q, hq⟩ := List.exists_cons_of_ne_nil hline
  have hps : (byteReadStep u).ps = readBytePs u.cfg.rxBufCap b u.ps := by simp only [byteReadStep, hq]; rfl
  obtain ⟨ps, rfl, ⟨-, e⟩ | ⟨-, e⟩⟩ := readBytePs_cases u.cfg.rxBufCap b u.ps <;>
    simp only [stepsLeft, hps, byteReadStep_cfg, e, hs] <;> omega

theorem stepsLeft_failAttempt_lt (hs : u.ps.seq = .validating) (st : Status) :
    stepsLeft (u.modPs (failAttempt st)) < stepsLeft u := by
  obtain ⟨-, e⟩ | e := failAttempt_cases st u.ps <;> simp only [stepsLeft, modPs_ps, modPs_cfg, e, hs] <;> omega

theorem stepsLeft_validateStep_lt (hs : u.ps.seq = .validating) (c : Nat) :
    stepsLeft (validateStep u c) < stepsLeft u := by
  have hleft : 1 < stepsLeft u := by simp only [stepsLeft, hs]; omega
  unfold validateStep
  split
  · exact stepsLeft_failAttempt_lt hs _
  · split
    · exact hleft
    · exact hleft
    · exact stepsLeft_failAttempt_lt hs _
    · exact stepsLeft_failAttempt_lt hs _

theorem stepsLeft_retryStep_lt (h : PortInv prm u) (hs : u.ps.seq = .retryable)
    (hen : prm.retryBackoffMs ≤ u.ps.timer) : stepsLeft (retryStep prm u) < stepsLeft u := by
  obtain ⟨hpos, -⟩ := h.retryBudget hs
  obtain ⟨r, hr⟩ := Nat.exists_eq_succ_of_ne_zero hpos.ne'
  rw [retryStep, if_pos hen]
  simp only [stepsLeft, modPs_ps, modPs_cfg, hs, hr, Nat.succ_mul, Nat.succ_sub_one]
  omega

theorem stepsLeft_complete_lt (ho : u.ps.owner = some c) (hs : u.ps.seq = .success ∨ u.ps.seq = .fatal) {v : Port}
    (hps : v.ps = u.ps) (st : Status) : stepsLeft (complete v c st) < stepsLeft u := by
  have hleft : stepsLeft u = 1 := by obtain hs | hs := hs <;> simp only [stepsLeft, hs]
  rw [hleft, stepsLeft, complete_ps, hps, if_pos ho]
  exact Nat.one_pos

/-- An enabled sequencer step leaves fewer. -/
theorem stepsLeft_sequencerStep_lt (h : PortInv prm u) (ho : u.ps.owner = some c) (hen : sequencerEnabled prm u)
    (k : Nat) : stepsLeft (sequencerStep prm k u c) < stepsLeft u := by
  unfold sequencerEnabled at hen
  unfold sequencerStep
  cases hs : u.ps.seq <;> rw [hs] at hen
  case idle => exact hen.elim
  case sending =>
    rw [hen]
    exact stepsLeft_writeStep_lt hs hen k c
  case awaiting => exact stepsLeft_byteReadStep_lt h hs hen
  case validating => exact stepsLeft_validateStep_lt hs c
  case success => exact stepsLeft_complete_lt ho (.inl hs) rfl .ok
  case retryable => exact stepsLeft_retryStep_lt h hs hen
  case fatal => exact stepsLeft_complete_lt ho (.inr hs) rfl u.ps.last

/-- A sequencer step that is not enabled changes nothing (43_transaction_engine.md R244). -/
theorem sequencerStep_of_not_enabled (hen : ¬ sequencerEnabled prm u) (k c : Nat) : sequencerStep prm k u c = u := by
  unfold sequencerEnabled at hen
  unfold sequencerStep
  cases hs : u.ps.seq with
  | idle => rfl
  | sending =>
    rw [hs] at hen
    cases hp : u.ps.txph with
    | start => exact absurd hp hen
    | wait => rfl
  | awaiting =>
    rw [hs] at hen
    simp only [byteReadStep, not_not.1 hen]
  | validating | success | fatal =>
    rw [hs] at hen
    exact absurd trivial hen
  | retryable =>
    rw [hs] at hen
    exact if_neg hen

/-- No step of a held port adds to them. -/
theorem stepsLeft_agentStep_le (h : PortInv prm u) (ho : u.ps.owner ≠ none) (hs : AgentStep prm p u act u')
    (hcfg : u'.cfg = u.cfg) : stepsLeft u' ≤ stepsLeft u := by
  obtain ⟨hps, -⟩ | ⟨c, k, hown, -, rfl⟩ | rfl | ⟨hseq, hph, rfl⟩ := agentStep_held h ho hs
  · exact (stepsLeft_congr hps hcfg).le
  · by_cases hen : sequencerEnabled prm u
    · exact (stepsLeft_sequencerStep_lt h hown hen k).le
    · rw [sequencerStep_of_not_enabled hen]
  · exact stepsLeft_tickPort_le
  · exact stepsLeft_endTransmit_le hseq hph

end

section
variable {a : Nat → Action} {f : Nat → State} {p c n m L T : Nat} {prm : Params} {cfg : PortConfig} {v : Nat → Port}
  {w : Nat → Channel} {u x : Port} {ch : Channel}

/-! ### The ticks left to a command -/

/-- How many ticks can still count for the command on channel `ch` of port `u`, `L` and `T` being the bounds of its lock
wait and of TX_WAIT. -/
def commandTicksLeft (prm : Params) (L T : Nat) (u : Port) (ch : Channel) : Nat :=
  match ch.phase with
  | .free => 0
  | .waitLock => (L - ch.wait) + transactionTicks prm u.cfg T
  | .active => ticksLeft prm T u

theorem commandTicksLeft_waiting (hw : ch.phase = .waitLock) :
    commandTicksLeft prm L T u ch = (L - ch.wait) + transactionTicks prm u.cfg T := by simp only [commandTicksLeft, hw]

theorem commandTicksLeft_active (hact : ch.phase = .active) : commandTicksLeft prm L T u ch = ticksLeft prm T u := by
  simp only [commandTicksLeft, hact]

theorem commandTicksLeft_free (hf : ch.phase = .free) : commandTicksLeft prm L T u ch = 0 := by
  simp only [commandTicksLeft, hf]

/-- Once the lock wait is over, no more than R376's bound is left. -/
theorem commandTicksLeft_le_of_not_waiting (h : PortInv prm u) (hc : u.chans[c]? = some ch)
    (hw : ch.phase ≠ .waitLock) : commandTicksLeft prm L T u ch ≤ transactionTicks prm u.cfg T := by
  cases hph : ch.phase with
  | free => exact (commandTicksLeft_free hph).trans_le (Nat.zero_le _)
  | waitLock => exact absurd hph hw
  | active =>
    have ho : u.ps.owner = some c := (h.ownerIff c).2 ⟨ch, hc, hph⟩
    exact (commandTicksLeft_active hph).trans_le (ticksLeft_le h (by simp [ho]))

theorem commandTicksLeft_le (h : PortInv prm u) (hc : u.chans[c]? = some ch) :
    commandTicksLeft prm L T u ch ≤ L + transactionTicks prm u.cfg T := by
  by_cases hw : ch.phase = .waitLock
  · rw [commandTicksLeft_waiting hw]
    exact Nat.add_le_add_right (Nat.sub_le _ _) _
  · exact (commandTicksLeft_le_of_not_waiting h hc hw).trans (Nat.le_add_left _ _)

/-- Over one step of a BUSY channel they lose the tick that counts, and gain nothing. -/
theorem ChannelTrace.commandTicksLeft_succ (h : ChannelTrace a f p c prm cfg v w) (hL : prm.lockWaitMs = some L)
    (hT : prm.txcTimeoutMs = some T) (hbusy : (w m).phase ≠ .free) :
    commandTicksLeft prm L T (v (m + 1)) (w (m + 1)) +
        (if a m = .tick ∧ countsFor (f m) p c = true then 1 else 0) ≤ commandTicksLeft prm L T (v m) (w m) := by
  cases hph : (w m).phase with
  | free => exact absurd hph hbusy
  | waitLock =>
    have hlt := h.wait_lt hL hph
    rw [commandTicksLeft_waiting hph, h.cfg, h.countsFor_waiting hph]
    by_cases hph' : (w (m + 1)).phase = .waitLock
    · rw [commandTicksLeft_waiting hph', h.cfg, h.wait_succ hph hph']
      simp only [and_true]
      split <;> omega
    · have hle := commandTicksLeft_le_of_not_waiting (L := L) (T := T) (h.inv (m + 1)) (h.chan (m + 1)) hph'
      rw [h.cfg] at hle
      split <;> omega
  | active =>
    have hleft := h.ticksLeft_succ (.inr hT) (m := m) (by simp [h.owner hph])
    rw [commandTicksLeft_active hph, h.countsFor_active hph]
    obtain hph' | hph' := agentStep_active (h.inv m) (h.inv (m + 1)) (h.agentStep m) (h.chan m) (h.chan (m + 1)) hph
    · rwa [commandTicksLeft_active hph']
    · rw [commandTicksLeft_free hph']
      omega

/-! ### Under fairness nothing stays BUSY (70_reset_and_hazards.md R378) -/

/-- A sequence of numbers that never rises is constant from some place on. -/
theorem exists_stationary {g : Nat → Nat} (h : ∀ m, n ≤ m → g (m + 1) ≤ g m) :
    ∃ N, n ≤ N ∧ ∀ m, N ≤ m → g (m + 1) = g m := by
  have hanti : Antitone fun k => g (n + k) := antitone_nat_of_succ_le fun k => h (n + k) (Nat.le_add_right n k)
  obtain ⟨k, hk⟩ := WellFoundedGT.monotone_chain_condition (α := ℕᵒᵈ) ⟨_, hanti.dual_right⟩
  refine ⟨n + k, Nat.le_add_right n k, fun m hm => ?_⟩
  obtain ⟨j, rfl⟩ := Nat.exists_eq_add_of_le hm
  have h0 : g (n + k) = g (n + (k + j)) := hk (k + j) (by omega)
  have h1 : g (n + k) = g (n + (k + j + 1)) := hk (k + j + 1) (by omega)
  rw [Nat.add_assoc n k j, ← h0]
  exact h1.symm

theorem PortTrace.next_of_takes (h : PortTrace a f p prm cfg v) (ht : PortTakes prm p (a m) (v m) x) :
    v (m + 1) = x := by
  obtain ⟨t, hstep, hx⟩ := ht { f m with pending := [] } (h.params m) (h.get m)
  obtain rfl := Host.Outcome.next.inj (hstep.symm.trans (h.actionStep_next m))
  exact (h.eq_of_get hx).symm

/-- The sequencer of a held port, when it is its turn, takes its step. -/
theorem ChannelTrace.sequencer_next (h : ChannelTrace a f p c prm cfg v w) (hact : (w m).phase = .active) {k : Nat}
    (ha : a m = .sequencer p k) : v (m + 1) = sequencerStep prm k (v m) c :=
  h.next_of_takes (ha ▸ portTakes_sequencer (heldBy_of_inv (h.inv m) (h.owner hact) (h.chan m)) k)

/-- A channel cannot stay ACTIVE while no tick counts: an internal step would stay enabled and never be taken. -/
theorem ChannelTrace.not_active_forever (h : ChannelTrace a f p c prm cfg v w) (hfair : Fair a f)
    (hact : ∀ m, n ≤ m → (w m).phase = .active) (hcount : ∀ m, n ≤ m → a m = .tick → countsTick prm (v m) = false) :
    False := by
  have howner m (hm : n ≤ m) : (v m).ps.owner ≠ none := by simp [h.owner (hact m hm)]
  obtain ⟨N, hN, hconst⟩ := exists_stationary (g := fun m => stepsLeft (v m)) fun m hm =>
    stepsLeft_agentStep_le (h.inv m) (howner m hm) (h.agentStep m) ((h.cfg _).trans (h.cfg m).symm)
  have hnotTaken {m k : Nat} (hm : N ≤ m) (hen : sequencerEnabled prm (v m)) : a m ≠ .sequencer p k := fun ha => by
    have hlt := stepsLeft_sequencerStep_lt (h.inv m) (h.owner (hact m (hN.trans hm))) hen k
    rw [← h.sequencer_next (hact m (hN.trans hm)) ha, hconst m hm] at hlt
    exact Nat.lt_irrefl _ hlt
  obtain ⟨M, hM, htick⟩ := hfair.ticks N
  have henabled : ∀ m, M ≤ m → sequencerEnabled prm (v m) := by
    intro m hm
    induction m, hm using Nat.le_induction with
    | base =>
      have hM' := hN.trans hM
      exact (countsTick_or_enabled (h.inv M) (howner M hM')).resolve_left (by simp [hcount M hM' htick])
    | succ m hm hen =>
      exact sequencerEnabled_agentStep (h.inv m) (h.agentStep m) (fun k => hnotTaken (hM.trans hm) hen) hen
  obtain ⟨m, hm, k, ha⟩ := hfair.internal p M fun m hm => ⟨v m, h.get m, (h.params m).symm ▸ henabled m hm⟩
  exact hnotTaken (hM.trans hm) (henabled m hm) ha

/-- A channel cannot stay BUSY: from some place on no tick counts, so it is no longer waiting, and ACTIVE for ever. -/
theorem ChannelTrace.exists_free (h : ChannelTrace a f p c prm cfg v w) (hfair : Fair a f)
    (hL : prm.lockWaitMs = some L) (hT : prm.txcTimeoutMs = some T) (n : Nat) :
    ∃ k, (w (n + k)).phase = .free := by
  by_contra hno
  have hbusy m (hm : n ≤ m) : (w m).phase ≠ .free := fun hf => hno ⟨m - n, by rwa [Nat.add_sub_cancel' hm]⟩
  have hsucc m (hm : n ≤ m) := h.commandTicksLeft_succ hL hT (hbusy m hm)
  obtain ⟨N, hN, hconst⟩ := exists_stationary (g := fun m => commandTicksLeft prm L T (v m) (w m)) fun m hm =>
    (Nat.le_add_right _ _).trans (hsucc m hm)
  have hcount m (hm : N ≤ m) (ha : a m = .tick) : countsFor (f m) p c = false := by
    by_contra hc
    have hle := hsucc m (hN.trans hm)
    rw [if_pos ⟨ha, by simpa using hc⟩, hconst m hm] at hle
    omega
  obtain ⟨M, hM, htick⟩ := hfair.ticks N
  have hact : ∀ m, M ≤ m → (w m).phase = .active := by
    intro m hm
    induction m, hm using Nat.le_induction with
    | base =>
      cases hph : (w M).phase with
      | free => exact absurd hph (hbusy M (hN.trans hM))
      | waitLock =>
        have := h.countsFor_waiting hph
        simp [hcount M hM htick] at this
      | active => rfl
    | succ m hm hact =>
      have hfree := hbusy (m + 1) (by omega)
      exact (agentStep_active (h.inv m) (h.inv (m + 1)) (h.agentStep m) (h.chan m) (h.chan (m + 1)) hact).resolve_right
        hfree
  exact h.not_active_forever hfair hact fun m hm ha =>
    (h.countsFor_active (hact m hm)).symm.trans (hcount m (hM.trans hm) ha)

end

/-- Settles O60: a BUSY channel is freed, and the first step that frees it completes its command. -/
theorem everyCommandCompletes : Obligations.EveryCommandCompletes := by
  intro a f L T hr hfair hi hL hT n p c u ch hu hc hbusy
  obtain ⟨v, rfl, hport⟩ := exists_portTrace hr hi hu
  obtain ⟨w, rfl, h⟩ := hport.exists_channelTrace hc
  rw [h.params 0] at hL hT
  have hex := h.exists_free hfair hL hT n
  obtain ⟨k, hfree, hbefore⟩ : ∃ k, (w (n + k)).phase = .free ∧ ∀ j, j < k → (w (n + j)).phase ≠ .free :=
    ⟨Nat.find hex, Nat.find_spec hex, fun _ => Nat.find_min hex⟩
  have hsum := ticksWhere_add_le_of_potential (a := a) (q := fun m => countsFor (f m) p c)
    (fun m => commandTicksLeft (f n).params L T (v m) (w m)) (n := n) k
    fun j hj => h.commandTicksLeft_succ hL hT (hbefore j hj)
  have hbound := commandTicksLeft_le (L := L) (T := T) (h.inv n) (h.chan n)
  refine ⟨k, w (n + k), fun j hj => mt (h.phaseAt_iff _ _).1 (hbefore j hj),
    (chanAt_of_port (h.get _) c).trans (h.chan _), hfree, ?done, by omega⟩
  cases k with
  | zero => exact absurd hfree hbusy
  | succ k =>
    exact agentStep_done_of_freed (h.agentStep (n + k)) (h.chan (n + k)) (h.chan (n + k + 1))
      (hbefore k (Nat.lt_succ_self k)) hfree

end Sys2Proof.Machine
end
